-- ==== Sys2Proof/Word.lean ====
section
/-! DEFINITION. The word types of the block (00_scope.md R7): every narrow value is unsigned, bit 0 is the least
significant bit. -/

namespace Sys2Proof

/-- `u8` of R7. -/
abbrev Byte := BitVec 8

/-- `u16` of R7: `T_YEAR` and `C_CODE` (R26). -/
abbrev Half := BitVec 16

/-- A 6-bit chip register address, `0x00..0x3F` (R50 (b), R92). -/
abbrev Address := BitVec 6

end Sys2Proof
end

