-- ==== Sys2Proof/Config.lean ====
section
/-! DEFINITION. What is fixed when the block is built (10_state.md R30, 00_scope.md R6) and the values the spec leaves
open. A parameter to which the spec gives a value is an argument, a field of `Params`; one to which it gives none is an
`opaque` constant. An `opaque` constant has no body: whatever is proved holds for every value of it. -/

namespace Sys2Proof

/-- The nine registers of the RegisterMap, by the source's names (R56). -/
inductive ChipReg where
  | seconds | minutes | hours | date | month | day | year | trickle | ram0
  deriving DecidableEq, Repr

/-- The RegisterMap (R56): "seconds=0x00, minutes=0x01, hours=0x02, date=0x03, month=0x04, day=0x05, year=0x06,
trickle-charge-control=0x08, scratch-RAM-byte-0=0x20". -/
def ChipReg.address : ChipReg → Address
  | .seconds => 0x00#6
  | .minutes => 0x01#6
  | .hours => 0x02#6
  | .date => 0x03#6
  | .month => 0x04#6
  | .day => 0x05#6
  | .year => 0x06#6
  | .trickle => 0x08#6
  | .ram0 => 0x20#6

/-- All nine, in the order of R56's table. -/
def ChipReg.all : List ChipReg :=
  [.seconds, .minutes, .hours, .date, .month, .day, .year, .trickle, .ram0]

/-- The register at an address, if the RegisterMap defines one there (R56, R57). -/
def ChipReg.atAddress? (a : Address) : Option ChipReg :=
  ChipReg.all.find? (fun r => r.address == a)

/-- The parameters of R6 that the model takes as an argument and to which the spec gives a value: the two timing literals,
which R6 calls fixed and 93_implementation_defined.md U12 has a model take as parameters, and `DECODE_NONDECIMAL`, which R6
calls OPEN with a default (log entry 30). -/
structure Params where
  /-- `T_PULSE`, in time-units. -/
  tPulse : Nat
  /-- `T_SETTLE`, in time-units. -/
  tSettle : Nat
  /-- `DECODE_NONDECIMAL`: what bytes with a nibble above 9 decode to, where that is not the formula of R162. -/
  nonDecimal : List (Byte × Nat)
  deriving DecidableEq, Repr

/-- The values R6 gives: `T_PULSE = 1`, `T_SETTLE = 4`, the formula on every byte. -/
def Params.default : Params := { tPulse := 1, tSettle := 4, nonDecimal := [] }

/-- Parameter `BACKEND` (R6, R55): which LineBackend implementation was chosen at construction. -/
inductive Backend where
  | genericGpio
  | memoryMappedPort
  deriving DecidableEq, Repr, Inhabited

/-- Parameter `BACKEND`: "changes nothing a rule of this spec reads" (R55), so nothing reads it (log entry 18). -/
opaque Config.backend : Backend

/-- Parameter `T_UNIT` (R6, R262): the length of one time-unit, not in the source. The model keeps no time
(log entry 17), so nothing reads it. -/
opaque Config.tUnit : Nat

/-- Parameter `CTRL_TC_STRENGTH` (R6, R195): the one control request code the block recognises. OPEN (log entry 12). -/
opaque Config.ctrlTcStrength : Half

/-- FREE VALUE (R72, log entry 8): what the environment answers at the `n`-th free draw of `LineRead(DAT)`. -/
opaque Config.lineAnswer : Nat → Bool

/-- FREE VALUE (R32, log entry 7): what host register number `k` holds after the hardware reset that is draw `n`. -/
opaque Config.hostRegAfterReset : Nat → Nat → Half

end Sys2Proof
end

