-- ==== Sys2Proof/Syntax.lean ====
section
/-! DEFINITION. The instructions: one constructor for each row of spec/opcode_table.json. The seventeen host operations
(30_encoding.md R99) take their operands from host registers (R98, R100), so they carry none. The wire rows are the
command bytes of R92 and R93: `CMD_READ` and `CMD_WRITE` carry the 6-bit address, the eighteen named rows are the two
command bytes of each register of the RegisterMap. -/

namespace Sys2Proof

/-- The read/write flag of the command byte (R92): bit 0 is 1 for a read. -/
inductive RW where
  | read
  | write
  deriving DecidableEq, Repr

inductive Instr where
  -- BitProtocol (R121 to R126)
  | reset | start | stop | clock | txbit | rxbit
  -- ByteFramer (R142, R143, R146, R147)
  | sendbits | recvbits | readbyte | writebyte
  -- TimeCodec (R169, R170)
  | readTime | setTime
  -- TrickleChargeControl and self-test (R191 to R199)
  | tcGet | tcSet | tcStrength | ctrl | selftest
  -- Wire level: the two command patterns (R92)
  | cmdRead (a : Address)
  | cmdWrite (a : Address)
  -- Wire level: the command bytes of the nine registers (R93)
  | wrSeconds | rdSeconds | wrMinutes | rdMinutes | wrHours | rdHours
  | wrDate | rdDate | wrMonth | rdMonth | wrDay | rdDay
  | wrYear | rdYear | wrTrickle | rdTrickle | wrRam0 | rdRam0
  deriving DecidableEq, Repr

/-- The two levels at which something is encoded (30_encoding.md, opening): the host port's operation codes and the
command byte on the wire. The same eight bits mean different things at the two: `0xFF` is an illegal operation code
and a command byte. -/
inductive Level where
  | host
  | wire
  deriving DecidableEq, Repr

end Sys2Proof
end

