-- ==== Sys2Proof/WellFormed.lean ====
section
/-! DEFINITION. Which instruction terms stand for a word of their own. The command byte of a register of the RegisterMap
is the row named after that register (R93), so the general patterns `CMD_READ` and `CMD_WRITE` stand for the command
bytes of the other addresses (R57, R101); log entry 4. -/

namespace Sys2Proof

def Instr.wellFormed : Instr → Bool
  | .cmdRead a => (ChipReg.atAddress? a).isNone
  | .cmdWrite a => (ChipReg.atAddress? a).isNone
  | .reset | .start | .stop | .clock | .txbit | .rxbit => true
  | .sendbits | .recvbits | .readbyte | .writebyte => true
  | .readTime | .setTime => true
  | .tcGet | .tcSet | .tcStrength | .ctrl | .selftest => true
  | .wrSeconds | .rdSeconds | .wrMinutes | .rdMinutes | .wrHours | .rdHours => true
  | .wrDate | .rdDate | .wrMonth | .rdMonth | .wrDay | .rdDay => true
  | .wrYear | .rdYear | .wrTrickle | .rdTrickle | .wrRam0 | .rdRam0 => true

end Sys2Proof
end

