-- ==== Sys2Proof/Decode.lean ====
section
/-! DEFINITION. Decoding and encoding at both levels (30_encoding.md R92, R93, R98, R99, R101, R102). Decoding is total:
every byte at either level gives an instruction or a rejection by name. -/

namespace Sys2Proof

/-- Why a byte is no instruction at its level. -/
inductive DecodeError where
  /-- The code is one of the 239 of R102 that R99 does not assign. -/
  | illegalOp (code : Byte)
  /-- Bit 7 is clear: "no value below `0x80` is ever sent as a command" (R93, R101). -/
  | notACommand (b : Byte)
  deriving DecidableEq, Repr

/-- The operation codes of R99, row by row. -/
def opTable : List (Byte × Instr) :=
  [ (0x00#8, .reset), (0x01#8, .start), (0x02#8, .stop), (0x03#8, .clock), (0x04#8, .txbit), (0x05#8, .rxbit),
    (0x08#8, .sendbits), (0x09#8, .recvbits), (0x0A#8, .readbyte), (0x0B#8, .writebyte),
    (0x10#8, .readTime), (0x11#8, .setTime),
    (0x18#8, .tcGet), (0x19#8, .tcSet), (0x1A#8, .tcStrength), (0x1B#8, .ctrl), (0x1F#8, .selftest) ]

/-- The operation a code of the host register `OP` selects (R98, R99), or `IllegalOp` (R102). -/
def decodeOp (code : Byte) : Except DecodeError Instr :=
  match opTable.lookup code with
  | some i => .ok i
  | none => .error (.illegalOp code)

/-- The read row of a register (R93). -/
def readRow : ChipReg → Instr
  | .seconds => .rdSeconds
  | .minutes => .rdMinutes
  | .hours => .rdHours
  | .date => .rdDate
  | .month => .rdMonth
  | .day => .rdDay
  | .year => .rdYear
  | .trickle => .rdTrickle
  | .ram0 => .rdRam0

/-- The write row of a register (R93). -/
def writeRow : ChipReg → Instr
  | .seconds => .wrSeconds
  | .minutes => .wrMinutes
  | .hours => .wrHours
  | .date => .wrDate
  | .month => .wrMonth
  | .day => .wrDay
  | .year => .wrYear
  | .trickle => .wrTrickle
  | .ram0 => .wrRam0

/-- The address field of a command byte: bits 6 to 1 (R92). -/
def commandAddress (b : Byte) : Address := b.extractLsb' 1 6

/-- The instruction a command byte stands for: the row of its register where the RegisterMap defines its address, else
the pattern with the address in it (R92, R93, R101). -/
def decodeCommand (b : Byte) : Except DecodeError Instr :=
  if b.getLsbD 7 then
    match ChipReg.atAddress? (commandAddress b), b.getLsbD 0 with
    | some r, true => .ok (readRow r)
    | some r, false => .ok (writeRow r)
    | none, true => .ok (.cmdRead (commandAddress b))
    | none, false => .ok (.cmdWrite (commandAddress b))
  else .error (.notACommand b)

def decode : Level → Byte → Except DecodeError Instr
  | .host, b => decodeOp b
  | .wire, b => decodeCommand b

/-- The command byte (R92): bit 7 constant 1, bits 6 to 1 the address, bit 0 the read/write flag. -/
def commandByte (a : Address) : RW → Byte
  | .read => 1#1 ++ a ++ 1#1
  | .write => 1#1 ++ a ++ 0#1

/-- The encoder, from R99 and R92. -/
def encode : Instr → Level × Byte
  | .reset => (.host, 0x00#8)
  | .start => (.host, 0x01#8)
  | .stop => (.host, 0x02#8)
  | .clock => (.host, 0x03#8)
  | .txbit => (.host, 0x04#8)
  | .rxbit => (.host, 0x05#8)
  | .sendbits => (.host, 0x08#8)
  | .recvbits => (.host, 0x09#8)
  | .readbyte => (.host, 0x0A#8)
  | .writebyte => (.host, 0x0B#8)
  | .readTime => (.host, 0x10#8)
  | .setTime => (.host, 0x11#8)
  | .tcGet => (.host, 0x18#8)
  | .tcSet => (.host, 0x19#8)
  | .tcStrength => (.host, 0x1A#8)
  | .ctrl => (.host, 0x1B#8)
  | .selftest => (.host, 0x1F#8)
  | .cmdRead a => (.wire, commandByte a .read)
  | .cmdWrite a => (.wire, commandByte a .write)
  | .wrSeconds => (.wire, commandByte ChipReg.seconds.address .write)
  | .rdSeconds => (.wire, commandByte ChipReg.seconds.address .read)
  | .wrMinutes => (.wire, commandByte ChipReg.minutes.address .write)
  | .rdMinutes => (.wire, commandByte ChipReg.minutes.address .read)
  | .wrHours => (.wire, commandByte ChipReg.hours.address .write)
  | .rdHours => (.wire, commandByte ChipReg.hours.address .read)
  | .wrDate => (.wire, commandByte ChipReg.date.address .write)
  | .rdDate => (.wire, commandByte ChipReg.date.address .read)
  | .wrMonth => (.wire, commandByte ChipReg.month.address .write)
  | .rdMonth => (.wire, commandByte ChipReg.month.address .read)
  | .wrDay => (.wire, commandByte ChipReg.day.address .write)
  | .rdDay => (.wire, commandByte ChipReg.day.address .read)
  | .wrYear => (.wire, commandByte ChipReg.year.address .write)
  | .rdYear => (.wire, commandByte ChipReg.year.address .read)
  | .wrTrickle => (.wire, commandByte ChipReg.trickle.address .write)
  | .rdTrickle => (.wire, commandByte ChipReg.trickle.address .read)
  | .wrRam0 => (.wire, commandByte ChipReg.ram0.address .write)
  | .rdRam0 => (.wire, commandByte ChipReg.ram0.address .read)

/-- The byte of a table word of `nbits` bits: the bits above `nbits` are 0, and every row of the table is one byte. -/
def tableByte (nbits w : Nat) : Byte := BitVec.ofNat 8 (w % 2 ^ nbits)

/-- At which level a byte of the opcode table stands: the host codes of R99 all lie below `0x20` and the command bytes
are exactly `0x80..0xFF` (R93), so bit 7 tells them apart. -/
def tableLevel (b : Byte) : Level := if b.getLsbD 7 then .wire else .host

/-- The instruction the decoder reads from a word numbered as spec/opcode_table.json numbers it. -/
def decodeTableWord (nbits w : Nat) : Option Instr :=
  (decode (tableLevel (tableByte nbits w)) (tableByte nbits w)).toOption

end Sys2Proof
end

