-- ==== Sys2Proof/Machine/State.lean ====
section
/-! DEFINITION. The state of the machine (10_state.md R20 to R32), as plain data: the line port, the sequencer's working
state and position, the two flags, the host registers, the host port's answer, and, because a machine needs something at
the far end of its lines and of its port, the environment (R72 to R75) and the actions the host has queued. -/

namespace Sys2Proof.Machine

/-! ### The line port (R21, R22) -/

/-- The three lines (R8). -/
inductive Line where
  | rst | clk | dat
  deriving DecidableEq, Repr

inductive Dir where
  | input | output
  deriving DecidableEq, Repr

/-- `dir[L]` and `out[L]` of each line (R21). -/
structure LinePort where
  dirRst : Dir
  dirClk : Dir
  dirDat : Dir
  outRst : Bool
  outClk : Bool
  outDat : Bool
  deriving DecidableEq, Repr

/-- One entry of a trace (R9): a line event or a delay. A read carries the level the environment answered. -/
inductive TraceEntry where
  | dir (l : Line) (d : Dir)
  | write (l : Line) (b : Bool)
  | read (l : Line) (b : Bool)
  | delay (n : Nat)
  deriving DecidableEq, Repr

/-! ### Flags and statuses (R25, R212) -/

/-- `PRESENT` (R25). -/
inductive Present where
  | unknown | ok | absent
  deriving DecidableEq, Repr

/-- The statuses an operation can end with (R212). `LineAcquisitionError` and `MalformedInput` are in the source's
taxonomy and are never reported (R213, R217); `Busy` is an answer of the port, not a status (R219). -/
inductive Status where
  | ok | invalidTime | deviceNotPresent | unsupportedControlRequest | invalidArgument | protocolViolation | illegalOp
  deriving DecidableEq, Repr

/-! ### Sequencer working state and position (R23, R24) -/

/-- The seven raw register bytes of `read_time` (R23, R169), by register. -/
structure RawTime where
  sec  : Byte
  min  : Byte
  hour : Byte
  day  : Byte
  date : Byte
  mon  : Byte
  year : Byte
  deriving DecidableEq, Repr

/-- What an operation holds while it runs (R23). `got` is the byte or bit an inner `rxbit`, `recvbits` or `readbyte`
returned (the `r` of the rules); `secBack` is the seconds byte `set_time` read back (its `s0`, then its `s1`);
`opBefore` is the model's own, what `OP` held before the write that started the operation (R222, log entry 14). -/
structure Work where
  shift   : Byte
  bitIdx  : BitVec 3
  cmd     : Byte
  got     : Byte
  secBack : Byte
  raw     : RawTime
  opBefore : Byte
  deriving DecidableEq, Repr

/-- The working state between operations: "none survives the end of the operation" (R23, log entry 15). -/
def Work.idle : Work :=
  { shift := 0, bitIdx := 0, cmd := 0, got := 0, secBack := 0,
    raw := { sec := 0, min := 0, hour := 0, day := 0, date := 0, mon := 0, year := 0 }, opBefore := 0 }

/-- The local a received byte is kept in. -/
inductive Local where
  | got | secBack | sec | min | hour | day | date | mon | year
  deriving DecidableEq, Repr

/-- The byte `sendbits` is called with. -/
inductive ByteSrc where
  | lit (v : Byte)   -- an operand latched at the start, or a constant
  | cmd              -- the command byte of this transaction
  | halt             -- `s0 | 0x80` of R170
  | resume           -- `s1 & 0x7F` of R170
  deriving DecidableEq, Repr

/-- The two waits the block asks for (R226): `T_PULSE` and `T_SETTLE`. -/
inductive Wait where
  | pulse | settle
  deriving DecidableEq, Repr

/-- One step of an operation's rule (R24). A `call` of a rule is written out: the steps of the called operation stand in
the caller's list, so the list of the steps still to do is the sequence position with its pushed callers. -/
inductive SeqStep where
  -- conditional steps (R141), which go on or end the operation with a status
  | gate                             -- R201
  | checkDomain (vs : List Nat)      -- R170: the values to be BCD-encoded
  | checkRequest (code : Half)       -- R195
  | compareSentinel                  -- R199
  | checkTime                        -- R169
  -- line events and delays (R8)
  | lineDir (l : Line) (d : Dir)
  | lineWrite (l : Line) (b : Bool)
  | delay (w : Wait)
  -- bits and bytes (R125, R126, R142, R143, R140)
  | txbit (b : Bool)
  | txShift
  | shiftRight
  | rxbit
  | rxShift
  | nextBit
  | load (src : ByteSrc)
  | command (a : Byte) (f : RW)
  | save (dst : Local)
  -- the end of an operation (R27)
  | storeR
  | storeTime
  | setStatus (e : Status)
  | release
  deriving DecidableEq, Repr

/-! ### Host registers (R26) -/

/-- The CalendarTime record, `T_SEC` to `T_YEAR` (R26, R160). -/
structure CalendarTime where
  sec  : Byte
  min  : Byte
  hour : Byte
  wday : Byte
  mday : Byte
  mon  : Byte
  year : Half
  deriving DecidableEq, Repr

/-- The host register file (R26). -/
structure HostRegs where
  op     : Byte
  a      : Byte
  v      : Byte
  r      : Byte
  status : Byte
  time   : CalendarTime
  cCode  : Half
  cArg   : Byte
  deriving DecidableEq, Repr

/-- A host write of one operand register (R26, R27), with the value at the register's width. -/
inductive OperandWrite where
  | a (x : Byte) | v (x : Byte)
  | tSec (x : Byte) | tMin (x : Byte) | tHour (x : Byte) | tWday (x : Byte) | tMday (x : Byte) | tMon (x : Byte)
  | tYear (x : Half)
  | cCode (x : Half) | cArg (x : Byte)
  deriving DecidableEq, Repr

/-- What the host can read at the port: the readable registers of R26, and `BUSY` (R27, R220). -/
inductive PortReg where
  | a | v | r | status | tSec | tMin | tHour | tWday | tMday | tMon | tYear | cCode | cArg | busy
  deriving DecidableEq, Repr

/-- What the port answered the host's last access. `busy` is the refusal of R219. -/
inductive PortAnswer where
  | none
  | accepted
  | busy
  | data (x : Half)
  deriving DecidableEq, Repr

/-- What the host does at the port, one action a step (log entries 1 and 2). -/
inductive HostAction where
  /-- A line of a program (R104): write `OP` and wait until the operation has ended. -/
  | call (code : Byte)
  /-- Write `OP` and do not wait (R27). -/
  | post (code : Byte)
  /-- One transaction given by its command byte (log entry 3). -/
  | frame (cmd : Byte)
  | write (w : OperandWrite)
  | read (p : PortReg)
  /-- The wrapper functions of R105. -/
  | tcShow
  | tcStore (text : List Byte)
  /-- The reset input of R240. -/
  | hardReset
  /-- The host does nothing: the block advances one step. -/
  | wait
  deriving DecidableEq, Repr

/-! ### The environment (R72) -/

/-- The chip register cells of the register-echo device: (address, byte) pairs, addresses rising, no zero byte
(log entry 10). -/
abbrev Memory := List Host.Cell

/-- The register-echo device of R75. -/
structure EchoDevice where
  mem : Memory
  n   : Nat
  c   : Byte
  d   : Byte
  deriving DecidableEq, Repr

/-- The three environments of R72. -/
inductive Env where
  /-- The unconstrained one: the answers in `given` first, then free values (log entry 8). -/
  | free (given : List Bool)
  /-- The loopback backend of R74, with its queue `Q`. -/
  | loopback (q : List Bool)
  /-- The register-echo device of R75. -/
  | echo (d : EchoDevice)
  deriving DecidableEq, Repr

/-! ### Stops -/

/-- The machine has no fault: no rule stops the block. Every error of the spec is a status with which an operation ends
and after which "the block is idle and takes the next operation" (R222), every line event always succeeds (R51), and no
address is out of range (R58). Nobody raises one. -/
inductive Fault where
  deriving DecidableEq, Repr

inductive Refusal where
  /-- Raised by an arm of `exec` for an instruction that has no meaning yet. Safe. No arm raises it. -/
  | notModelled (mnemonic : String)
  /-- Raised by the step for a `frame` action whose byte has bit 7 clear: "A command byte with bit 7 clear is never
  produced" (R101), so it stands for no instruction. Safe. -/
  | notACommandByte (b : Byte)
  deriving DecidableEq, Repr

/-! ### The whole -/

structure State where
  /-- The parameters the block was built with (R6, R30). The model's own field: no state of the block, and nothing writes
  it (log entry 30). -/
  params  : Params
  lines   : LinePort
  work    : Work
  /-- `SEQ` (R24): the steps still to do; the empty list is `Idle`. -/
  seq     : List SeqStep
  busy    : Bool
  present : Present
  regs    : HostRegs
  /-- What the port answered last (R219, R27). -/
  answer  : PortAnswer
  /-- The text of the last `tc_show`, if it gave one (R196). -/
  text    : Option (List Byte)
  /-- What the host will do, next action first. The model's own field (log entry 2). -/
  inputs  : List HostAction
  /-- Every trace entry so far, newest first. The model's own field (R228, log entry 16). -/
  trace   : List TraceEntry
  /-- Every non-`Ok` status reported so far, newest first: the record R28 speaks of (log entry 16). -/
  raised  : List Status
  env     : Env
  /-- How many free values have been drawn. The model's own field (log entry 8). -/
  draws   : Nat
  deriving DecidableEq, Repr

/-- The trace in the order things happened (R9). -/
def State.events (s : State) : List TraceEntry := s.trace.reverse

/-- The host registers after reset: the spec gives `STATUS` (R32, `0`); the others are the model's choice (log entry 5). -/
def HostRegs.atReset : HostRegs :=
  { op := 0, a := 0, v := 0, r := 0, status := 0,
    time := { sec := 0, min := 0, hour := 0, wday := 0, mday := 0, mon := 0, year := 0 },
    cCode := 0, cArg := 0 }

/-- The machine after power-on (R32), built with the values R6 gives (log entry 30). The levels of the output latches are
the model's choice (log entry 6); the environment is the unconstrained one with nothing given (log entry 9); the host has queued nothing (log entry 2). -/
def State.reset : State :=
  { params := Params.default,
    lines := { dirRst := .output, dirClk := .output, dirDat := .input, outRst := false, outClk := false, outDat := false },
    work := Work.idle,
    seq := [],
    busy := false,
    present := .unknown,
    regs := HostRegs.atReset,
    answer := .none,
    text := none,
    inputs := [],
    trace := [],
    raised := [],
    env := .free [],
    draws := 0 }

end Sys2Proof.Machine
end

