-- ==== Sys2Proof/Machine/Operands.lean ====
section
/-! DEFINITION. Operand assembly (30_encoding.md R100) and every pure function of the spec: the command byte (R140), the
BCD codec (R161, R162), the century rule (R165), the validity of a record (R167, R168), the strength encoding (R193) and
the two text formats (R106, R196, R198). -/

namespace Sys2Proof

/-! ### Bits of a byte -/

/-- `zext_8` of one bit (R8, R100): the bit in position 0, zeros above. -/
def Byte.ofBit (b : Bool) : Byte := if b then 1#8 else 0#8

/-- `v` with bit `i` set to `b`, the other bits kept: the assignment `v[i] <- b` of R75. -/
def Byte.setBit (v : Byte) (i : Nat) (b : Bool) : Byte :=
  if b then v ||| (1#8 <<< i) else v &&& ~~~(1#8 <<< i)

end Sys2Proof

namespace Sys2Proof.Machine

/-! ### Operands (R58, R100) -/

/-- A bit operand is `V[0]`; `V[7:1]` is ignored (R100). -/
def bitOperand (v : Byte) : Bool := v.getLsbD 0

/-- `encode_command(address, flag)` (R140): the address masked to 6 bits, shifted left one, OR-ed with the pattern. -/
def encodeCommand (address : Byte) : RW → Byte
  | .read => ((address &&& 0x3F#8) <<< 1) ||| 0x81#8
  | .write => ((address &&& 0x3F#8) <<< 1) ||| 0x80#8

/-- A register's address as the operand of `readbyte` or `writebyte`. -/
def addressOperand (a : Address) : Byte := a.zeroExtend 8

/-! ### BCD (R94, R161, R162) -/

/-- `encode_bcd(v)` (R161); its domain is `0..99`, which `set_time` checks first (R170). -/
def encodeBcd (v : Nat) : Byte := BitVec.ofNat 8 (((v / 10) <<< 4) ||| (v % 10))

/-- Both nibbles at most 9: the byte encodes a value (R94). -/
def isDecimal (b : Byte) : Bool := (b >>> 4).toNat ≤ 9 && (b &&& 0x0F#8).toNat ≤ 9

/-- The arithmetic formula of R162. -/
def decodeFormula (b : Byte) : Nat := (b >>> 4).toNat * 10 + (b &&& 0x0F#8).toNat

/-- Parameter `DECODE_NONDECIMAL` (R6, D12): what is given for a byte with a nibble above 9, by default the formula
(log entries 11 and 30). -/
def decodeNonDecimal (p : Params) (b : Byte) : Nat := (p.nonDecimal.lookup b).getD (decodeFormula b)

/-- `decode_bcd(b)` (R162). -/
def decodeBcd (p : Params) (b : Byte) : Nat := if isDecimal b then decodeFormula b else decodeNonDecimal p b

/-! ### The calendar (R165, R167, R168) -/

/-- `year_off` of `century(y)` (R165): years since 1900. -/
def centuryOffset (y : Nat) : Nat := if y < 70 then y + 100 else y

/-- `year` of `century(y)` (R165): the calendar year, the value of `T_YEAR`. -/
def centuryYear (y : Nat) : Nat := 1900 + centuryOffset y

/-- Leap years (R168; PRESUMED by the spec, log entry 24). -/
def isLeapYear (year : Nat) : Bool := year % 4 == 0 && (year % 100 != 0 || year % 400 == 0)

/-- `days_in_month(mon, year)` for `mon` in `0..11` (R168). -/
def daysInMonth (mon year : Nat) : Nat :=
  match mon with
  | 1 => if isLeapYear year then 29 else 28
  | 3 | 5 | 8 | 10 => 30
  | _ => 31

/-- `valid_time` (R167), over integers: the month may be -1. The day of the week is not checked (log entry 27). -/
def validTime (sec min hour mday : Nat) (mon : Int) (year : Nat) : Bool :=
  decide (sec ≤ 59) && decide (min ≤ 59) && decide (hour ≤ 23) &&
    decide (0 ≤ mon) && decide (mon ≤ 11) &&
    decide (1 ≤ mday) && decide (mday ≤ daysInMonth mon.toNat year)

/-- The record `read_time` makes of its seven bytes (R169), before any check and before any narrowing. -/
structure DecodedTime where
  sec  : Nat
  min  : Nat
  hour : Nat
  wday : Nat
  mday : Nat
  mon  : Int
  year : Nat
  deriving DecidableEq, Repr

def decodeTime (p : Params) (b : RawTime) : DecodedTime :=
  { sec := decodeBcd p b.sec, min := decodeBcd p b.min, hour := decodeBcd p b.hour, wday := decodeBcd p b.day,
    mday := decodeBcd p b.date, mon := (decodeBcd p b.mon : Int) - 1, year := centuryYear (decodeBcd p b.year) }

def DecodedTime.valid (t : DecodedTime) : Bool := validTime t.sec t.min t.hour t.mday t.mon t.year

/-- The values as the `T_*` registers take them (R169): `wday` by `trunc_8`; the others fit when the record is valid, the
year for every decoded byte up to 63635 (log entry 11). -/
def DecodedTime.toRegs (t : DecodedTime) : CalendarTime :=
  { sec := BitVec.ofNat 8 t.sec, min := BitVec.ofNat 8 t.min, hour := BitVec.ofNat 8 t.hour,
    wday := BitVec.ofNat 8 t.wday, mday := BitVec.ofNat 8 t.mday, mon := BitVec.ofNat 8 t.mon.toNat,
    year := BitVec.ofNat 16 t.year }

/-- The values `set_time` BCD-encodes and checks against 99 (R170): the six 8-bit fields, the month with its bias. -/
def bcdOperands (t : CalendarTime) : List Nat :=
  [t.sec.toNat, t.min.toNat, t.hour.toNat, t.wday.toNat, t.mday.toNat, t.mon.toNat + 1]

/-! ### Trickle charge (R193) -/

/-- `tc_encode_strength(selector)` (R193): product and OR over the integers, low 8 bits kept. -/
def encodeStrength (selector : Byte) : Byte := BitVec.ofNat 8 (0xA0 ||| (selector.toNat * 0x0F))

/-! ### The two texts (R106, R196, R198), as ASCII bytes (log entry 23) -/

/-- "trickle charge register content: 0x" (R196), 35 characters. -/
def tcShowHead : List Byte :=
  [0x74, 0x72, 0x69, 0x63, 0x6B, 0x6C, 0x65, 0x20] ++ [0x63, 0x68, 0x61, 0x72, 0x67, 0x65, 0x20] ++
  [0x72, 0x65, 0x67, 0x69, 0x73, 0x74, 0x65, 0x72, 0x20] ++ [0x63, 0x6F, 0x6E, 0x74, 0x65, 0x6E, 0x74, 0x3A, 0x20] ++
  [0x30, 0x78]

/-- The lower-case hexadecimal digit of a value below 16. -/
def hexDigit (n : Nat) : Byte := BitVec.ofNat 8 (if n < 10 then 0x30 + n else 0x57 + n)

/-- `%x` of a byte (R106): lower case, no leading zeros, at least one digit. -/
def hexText (b : Byte) : List Byte :=
  if b.toNat < 16 then [hexDigit b.toNat] else [hexDigit (b.toNat / 16), hexDigit (b.toNat % 16)]

/-- `format_tc(r)` (R196). -/
def formatTc (r : Byte) : List Byte := tcShowHead ++ hexText r

/-- ASCII space, tab, carriage return, line feed (R198). -/
def isBlank (ch : Byte) : Bool := ch == 0x20#8 || ch == 0x09#8 || ch == 0x0D#8 || ch == 0x0A#8

def stripBlanks (text : List Byte) : List Byte :=
  ((text.dropWhile isBlank).reverse.dropWhile isBlank).reverse

/-- One optional `0x` or `0X` (R198). -/
def stripHexMark : List Byte → List Byte
  | c0 :: c1 :: rest => if c0 == 0x30#8 && (c1 == 0x78#8 || c1 == 0x58#8) then rest else c0 :: c1 :: rest
  | text => text

/-- The value of one of `0-9`, `a-f`, `A-F` (R198). -/
def hexValue? (ch : Byte) : Option Nat :=
  if 0x30 ≤ ch.toNat ∧ ch.toNat ≤ 0x39 then some (ch.toNat - 0x30)
  else if 0x61 ≤ ch.toNat ∧ ch.toNat ≤ 0x66 then some (ch.toNat - 0x57)
  else if 0x41 ≤ ch.toNat ∧ ch.toNat ≤ 0x46 then some (ch.toNat - 0x37)
  else none

/-- The number a text of hexadecimal digits stands for, going on from `acc`; `none` if some character is no digit. -/
def hexNumber? (acc : Nat) : List Byte → Option Nat
  | [] => some acc
  | ch :: rest =>
    match hexValue? ch with
    | some x => hexNumber? (acc * 16 + x) rest
    | none => none

/-- `parse_hex_or_zero(text)` (R198): total; what does not parse is 0 (R197, R217). -/
def parseHexOrZero (text : List Byte) : Byte :=
  match stripHexMark (stripBlanks text) with
  | [] => 0
  | digits =>
    match hexNumber? 0 digits with
    | some x => BitVec.ofNat 8 x
    | none => 0

end Sys2Proof.Machine
end

