-- ==== Sys2Proof/Machine/Flags.lean ====
section
/-! DEFINITION. `BUSY`, `PRESENT` and `STATUS` (10_state.md R25, R28; 60_exceptions.md R212; 43_tricklecharge_selftest.md
R201). The block has no condition codes (R25). -/

namespace Sys2Proof.Machine

/-- The status codes (R212). -/
def Status.code : Status → Byte
  | .ok => 0
  | .invalidTime => 1
  | .deviceNotPresent => 2
  | .unsupportedControlRequest => 3
  | .invalidArgument => 4
  | .protocolViolation => 5
  | .illegalOp => 6

/-- The `PRESENT` gate (R201): open when the last self-test ended `Ok`. -/
def State.gateOpen (s : State) : Bool := s.present == .ok

def State.setPresent (p : Present) (s : State) : State := { s with present := p }

/-- `STATUS <- code(e)` (R28): the last status overwrites; the model's record keeps every non-`Ok` one. -/
def State.setStatus (e : Status) (s : State) : State :=
  { s with
    regs := { s.regs with status := e.code },
    raised := if e = .ok then s.raised else e :: s.raised }

/-- `BUSY <- false`, with which `SEQ` is `Idle` (R24, R27); the working state is dead (R23, log entry 15). -/
def State.release (s : State) : State := { s with busy := false, seq := [], work := Work.idle }

end Sys2Proof.Machine
end

