-- ==== Sys2Proof/Machine/Ops.lean ====
section
/-! DEFINITION. The named operations over the state: the chip cells of the test device (R75), the environment (R72, R74,
R75), the three line events and the delay (R8, R51 to R54), and how an operation begins and ends (R27, R211). -/

namespace Sys2Proof.Machine

/-! ### Chip register cells (R50 (b), R75) -/

/-- The byte at an address; a cell that is not listed reads as zero (log entry 10). -/
def Memory.read : Memory → Nat → Byte
  | [], _ => 0
  | (b, w) :: m, a => if a = b then w else Memory.read m a

/-- Sets one cell and keeps the canonical form. -/
def Memory.write : Memory → Nat → Byte → Memory
  | [], a, v => if v = 0 then [] else [(a, v)]
  | (b, w) :: m, a, v =>
    if a < b then (if v = 0 then (b, w) :: m else (a, v) :: (b, w) :: m)
    else if a = b then (if v = 0 then m else (a, v) :: m)
    else (b, w) :: Memory.write m a v

/-- The canonical form: 6-bit addresses (R50), strictly rising, and no entry that says what an unlisted cell says. -/
abbrev Memory.wf (m : Memory) : Prop :=
  m.Pairwise (fun x y => x.1 < y.1) ∧ ∀ x ∈ m, x.1 < 64 ∧ x.2 ≠ 0

/-- The address field of the command byte the device has taken in: `c[6:1]` (R75). -/
def EchoDevice.address (d : EchoDevice) : Nat := (commandAddress d.c).toNat

/-! ### The waits of the sequences (R6) -/

/-- How long a wait is, in time-units: `T_PULSE` or `T_SETTLE` (R124, R144; log entry 30). -/
def Wait.units (p : Params) : Wait → Nat
  | .pulse => p.tPulse
  | .settle => p.tSettle

/-! ### The environment's side of a line event (R72, R74, R75)

What an event does in the environment is taken at the line state before the event. -/

/-- A rising clock edge inside a transaction, at the register-echo device (R75). -/
def EchoDevice.onPulse (p : LinePort) (dev : EchoDevice) : EchoDevice :=
  if dev.n < 8 then { dev with c := dev.c.setBit dev.n p.outDat, n := dev.n + 1 }
  else if dev.n < 16 ∧ dev.c.getLsbD 0 = false ∧ p.dirDat = .output then
    { dev with
      d := dev.d.setBit (dev.n - 8) p.outDat,
      mem := if dev.n = 15 then dev.mem.write dev.address (dev.d.setBit 7 p.outDat) else dev.mem,
      n := dev.n + 1 }
  else { dev with n := dev.n + 1 }

/-- What the register-echo device shows on `DAT` (R75). -/
def EchoDevice.shows (p : LinePort) (dev : EchoDevice) : Bool :=
  if p.outRst = true ∧ dev.c.getLsbD 0 = true ∧ 8 ≤ dev.n ∧ dev.n < 16 then
    (dev.mem.read dev.address).getLsbD (dev.n - 8)
  else false

/-- `LineWrite(L, b)` as the environment sees it. -/
def Env.onWrite (p : LinePort) (l : Line) (b : Bool) : Env → Env
  | .free given => .free given
  | .loopback q =>
    if l = .clk ∧ b = true then
      match p.dirDat with
      | .output => .loopback (q ++ [p.outDat])
      | .input => .loopback (q.drop 1)
    else .loopback q
  | .echo dev =>
    if l = .rst ∧ b = true ∧ p.outRst = false then .echo { dev with n := 0, c := 0, d := 0 }
    else if l = .clk ∧ b = true ∧ p.outClk = false ∧ p.outRst = true then .echo (dev.onPulse p)
    else .echo dev

/-- The level the environment answers to `LineRead(DAT)` (R54, R72, R74, R75). -/
def State.datLevel (s : State) : Bool :=
  match s.env with
  | .free (b :: _) => b
  | .free [] => Config.lineAnswer s.draws
  | .loopback q => q.headD false
  | .echo dev => dev.shows s.lines

/-! ### Line events (R8, R21, R51) -/

/-- The level the block puts on a line, if it drives it (R22). -/
def State.drives (s : State) : Line → Option Bool
  | .rst => if s.lines.dirRst = .output then some s.lines.outRst else none
  | .clk => if s.lines.dirClk = .output then some s.lines.outClk else none
  | .dat => if s.lines.dirDat = .output then some s.lines.outDat else none

def LinePort.setDir (p : LinePort) (d : Dir) : Line → LinePort
  | .rst => { p with dirRst := d }
  | .clk => { p with dirClk := d }
  | .dat => { p with dirDat := d }

def LinePort.setOut (p : LinePort) (b : Bool) : Line → LinePort
  | .rst => { p with outRst := b }
  | .clk => { p with outClk := b }
  | .dat => { p with outDat := b }

/-- `LineDir(L, d)` (R52): `dir[L] <- d` and nothing else. -/
def State.lineDir (l : Line) (d : Dir) (s : State) : State :=
  { s with lines := s.lines.setDir d l, trace := .dir l d :: s.trace }

/-- `LineWrite(L, b)` (R53): `out[L] <- b` and nothing else in the block. -/
def State.lineWrite (l : Line) (b : Bool) (s : State) : State :=
  { s with
    lines := s.lines.setOut b l,
    env := s.env.onWrite s.lines l b,
    trace := .write l b :: s.trace }

/-- What `LineRead(DAT)` leaves (R54): no state of the block changes; the environment has given one answer, which is
`State.datLevel` of the state before. -/
def State.afterRead (s : State) : State :=
  match s.env with
  | .free (_ :: given) => { s with env := .free given, trace := .read .dat s.datLevel :: s.trace }
  | .free [] => { s with draws := s.draws + 1, trace := .read .dat s.datLevel :: s.trace }
  | .loopback _ => { s with trace := .read .dat s.datLevel :: s.trace }
  | .echo _ => { s with trace := .read .dat s.datLevel :: s.trace }

/-- `Delay(n)`: a trace entry with no state (R9, log entry 17). -/
def State.delay (n : Nat) (s : State) : State := { s with trace := .delay n :: s.trace }

/-! ### Beginning and ending an operation (R27, R211, R219) -/

/-- A write of `OP` that is taken: `BUSY <- true` (R27). A transaction given by its command byte writes no `OP`. What `OP`
held before is kept for `State.opAsBefore`. -/
def State.begin (code : Option Byte) (s : State) : State :=
  { s with
    busy := true, regs := { s.regs with op := code.getD s.regs.op }, work := { s.work with opBefore := s.regs.op },
    answer := .accepted }

/-- What a status raised before the first line event leaves in `OP`: "every host register except `STATUS`" is "exactly as
before the operation" (R222, log entry 14). -/
def State.opAsBefore (s : State) : State := { s with regs := { s.regs with op := s.work.opBefore } }

/-- A write while `BUSY = true` (R219): dropped, the port answers with a refusal, `STATUS` is not written. -/
def State.refuseBusy (s : State) : State := { s with answer := .busy }

/-- `raise E` (R211), the one way an operation ends early: no later step runs, no result register is written,
`STATUS <- code(E)`, `BUSY <- false`; the lines stay as the last event left them. -/
def State.raise (e : Status) (s : State) : State := (s.setStatus e).release

/-- `return` (R8, R27): `STATUS <- Ok`, then `BUSY <- false`; the result registers were written before. -/
def State.finish (s : State) : State := (s.setStatus .ok).release

/-- A write of an unassigned code (R102): no line event, no state but `STATUS`, ends at once. -/
def State.illegalOp (s : State) : State :=
  if s.busy then s.refuseBusy else { s.setStatus .illegalOp with answer := .accepted }

/-! ### Hardware reset (R240, R32) -/

/-- What a host register holds after the hardware reset that is draw `n` (R32: "a model draws it"; log entry 7). -/
def HostRegs.drawn (n : Nat) : HostRegs :=
  let byte k := (Config.hostRegAfterReset n k).setWidth 8
  { op := byte 0, a := byte 1, v := byte 2, r := byte 3, status := Status.ok.code,
    time := { sec := byte 4, min := byte 5, hour := byte 6, wday := byte 7, mday := byte 8, mon := byte 9,
              year := Config.hostRegAfterReset n 10 },
    cCode := Config.hostRegAfterReset n 11, cArg := byte 12 }

/-- Hardware reset (R240): the state of R32, no line event, the line outputs left at their then values; the chip, the
host's plans and the model's records are not touched. -/
def State.hardReset (s : State) : State :=
  { s with
    lines := { s.lines with dirRst := .output, dirClk := .output, dirDat := .input },
    work := Work.idle, seq := [], busy := false, present := .unknown,
    regs := HostRegs.drawn s.draws, answer := .none, draws := s.draws + 1 }

end Sys2Proof.Machine
end

