-- ==== Sys2Proof/Machine/Sequencer.lean ====
section
/-! DEFINITION. The sequencer (10_state.md R24, 41_byteframer.md R141): what one step of an operation's rule does, a whole
list of steps run to its end (the operation as the source's synchronous call, R69), and the same list taken one step at
a time (the operation as the host port sees it, with `BUSY` up in between, R27). -/

namespace Sys2Proof.Machine

/-- A step either goes on or ends the operation with a status (R141). -/
inductive Progress where
  | goOn (s : State)
  | raised (e : Status) (s : State)
  deriving DecidableEq, Repr

def Progress.bind (p : Progress) (f : State → Progress) : Progress :=
  match p with
  | .goOn s => f s
  | .raised e s => .raised e s

def Local.put (l : Local) (b : Byte) (w : Work) : Work :=
  match l with
  | .got => { w with got := b }
  | .secBack => { w with secBack := b }
  | .sec => { w with raw := { w.raw with sec := b } }
  | .min => { w with raw := { w.raw with min := b } }
  | .hour => { w with raw := { w.raw with hour := b } }
  | .day => { w with raw := { w.raw with day := b } }
  | .date => { w with raw := { w.raw with date := b } }
  | .mon => { w with raw := { w.raw with mon := b } }
  | .year => { w with raw := { w.raw with year := b } }

/-- The byte a `sendbits` is called with (R146, R147, R170). -/
def ByteSrc.value (w : Work) : ByteSrc → Byte
  | .lit v => v
  | .cmd => w.cmd
  | .halt => w.secBack ||| 0x80#8
  | .resume => w.secBack &&& 0x7F#8

/-- `txbit(b)` (R125): the level is written when the data line is an output, else `ProtocolViolation`. -/
def txbitStep (b : Bool) (s : State) : Progress :=
  if s.lines.dirDat = .output then .goOn (s.lineWrite .dat b) else .raised .protocolViolation s.opAsBefore

/-- `rxbit()` (R126): the level is sampled when the data line is an input and given to `use`, else `ProtocolViolation`. -/
def rxbitStep (use : Bool → Work → Work) (s : State) : Progress :=
  if s.lines.dirDat = .input then .goOn { s.afterRead with work := use s.datLevel s.afterRead.work }
  else .raised .protocolViolation s.opAsBefore

/-- One step of a rule. The checks that come before the first line event put `OP` back when they raise (R222). -/
def doStep : SeqStep → State → Progress
  | .gate, s => if s.gateOpen then .goOn s else .raised .deviceNotPresent s.opAsBefore
  | .checkDomain vs, s =>
    if vs.all (fun v => decide (v ≤ 99)) then .goOn s else .raised .invalidArgument s.opAsBefore
  | .checkRequest code, s =>
    if code = Config.ctrlTcStrength then .goOn s else .raised .unsupportedControlRequest s.opAsBefore
  | .compareSentinel, s =>
    if s.work.got = 0x42#8 then .goOn (s.setPresent .ok) else .raised .deviceNotPresent (s.setPresent .absent)
  | .checkTime, s => if (decodeTime s.params s.work.raw).valid then .goOn s else .raised .invalidTime s
  | .lineDir l d, s => .goOn (s.lineDir l d)
  | .lineWrite l b, s => .goOn (s.lineWrite l b)
  | .delay w, s => .goOn (s.delay (w.units s.params))
  | .txbit b, s => txbitStep b s
  | .txShift, s => txbitStep (s.work.shift.getLsbD 0) s
  | .shiftRight, s => .goOn { s with work := { s.work with shift := s.work.shift >>> 1, bitIdx := s.work.bitIdx + 1 } }
  | .rxbit, s => rxbitStep (fun b w => { w with got := Byte.ofBit b }) s
  | .rxShift, s => rxbitStep (fun b w => { w with shift := w.shift ||| (Byte.ofBit b <<< w.bitIdx.toNat) }) s
  | .nextBit, s => .goOn { s with work := { s.work with bitIdx := s.work.bitIdx + 1 } }
  | .load src, s => .goOn { s with work := { s.work with shift := src.value s.work, bitIdx := 0 } }
  | .command a f, s => .goOn { s with work := { s.work with cmd := encodeCommand a f } }
  | .save l, s => .goOn { s with work := l.put s.work.shift s.work }
  | .storeR, s => .goOn { s with regs := { s.regs with r := s.work.got } }
  | .storeTime, s => .goOn { s with regs := { s.regs with time := (decodeTime s.params s.work.raw).toRegs } }
  | .setStatus e, s => .goOn (s.setStatus e)
  | .release, s => .goOn s.release

/-- The steps of a list in order, until one raises. -/
def runSteps : List SeqStep → State → Progress
  | [], s => .goOn s
  | st :: rest, s => (doStep st s).bind (runSteps rest)

/-- The end of every operation that does not raise (R27). -/
def returnSteps : List SeqStep := [.setStatus .ok, .release]

/-- A running operation taken to its end; a raise ends it by R211. -/
def runOperation (prog : List SeqStep) (s : State) : State :=
  match runSteps prog s with
  | .goOn t => t
  | .raised e t => t.raise e

/-- An operation as the source's call (R69, R104): refused while another runs, else begun and run to its end. -/
def operate (code : Option Byte) (prog : List SeqStep) (s : State) : State :=
  if s.busy then s.refuseBusy else runOperation (prog ++ returnSteps) (s.begin code)

/-- An operation started at the host port and not waited for (R27): refused while another runs, else `SEQ` is set. -/
def post (code : Option Byte) (prog : List SeqStep) (s : State) : State :=
  if s.busy then s.refuseBusy else { s.begin code with seq := prog ++ returnSteps }

/-- The block's own move: one step of the running operation (R24); an idle block does nothing. A raise leaves the two
steps of R211 to do. -/
def tick (s : State) : State :=
  match s.seq with
  | [] => s
  | st :: rest =>
    match doStep st { s with seq := rest } with
    | .goOn t => t
    | .raised e t => { t with seq := [.setStatus e, .release] }

/-- `n` moves of the block. -/
def ticks : Nat → State → State
  | 0, s => s
  | n + 1, s => ticks n (tick s)

end Sys2Proof.Machine
end

