-- ==== Sys2Proof/Machine/BitProtocol.lean ====
section
/-! DEFINITION. BitProtocol (40_bitprotocol.md): `reset`, `start`, `stop`, `clock`, `txbit`, `rxbit`. For each operation
the steps of its rule, and its meaning. -/

namespace Sys2Proof.Machine

/-- R121: deassert chip-select, clock low, data line to input, in that order (D8). -/
def busResetSteps : List SeqStep := [.lineWrite .rst false, .lineWrite .clk false, .lineDir .dat .input]

/-- R122. The settle delay is not part of `start`. -/
def startSteps : List SeqStep := [.lineWrite .rst true]

/-- R123. -/
def stopSteps : List SeqStep := [.lineWrite .rst false]

/-- R124: one clock pulse, high then low. -/
def clockSteps : List SeqStep := [.lineWrite .clk true, .delay .pulse, .lineWrite .clk false, .delay .pulse]

/-- R125, with the operand latched from `V[0]`. -/
def txbitSteps (b : Bool) : List SeqStep := [.txbit b]

/-- R126, with the bit in `R`. -/
def rxbitSteps : List SeqStep := [.rxbit, .storeR]

def execReset (s : State) : Host.Outcome State Fault Refusal := .next (operate (some 0x00#8) busResetSteps s)

def execStart (s : State) : Host.Outcome State Fault Refusal := .next (operate (some 0x01#8) startSteps s)

def execStop (s : State) : Host.Outcome State Fault Refusal := .next (operate (some 0x02#8) stopSteps s)

def execClock (s : State) : Host.Outcome State Fault Refusal := .next (operate (some 0x03#8) clockSteps s)

def execTxbit (s : State) : Host.Outcome State Fault Refusal :=
  .next (operate (some 0x04#8) (txbitSteps (bitOperand s.regs.v)) s)

def execRxbit (s : State) : Host.Outcome State Fault Refusal := .next (operate (some 0x05#8) rxbitSteps s)

end Sys2Proof.Machine
end

