-- ==== Sys2Proof/Machine/ByteFramer.lean ====
section
/-! DEFINITION. ByteFramer (41_byteframer.md): `sendbits`, `recvbits` and the two transactions. -/

namespace Sys2Proof.Machine

/-- `n` copies of a list of steps one after the other: a loop of R141. -/
def loopSteps (n : Nat) (body : List SeqStep) : List SeqStep := (List.replicate n body).flatten

/-- One iteration of `sendbits` (R142). -/
def sendBitSteps : List SeqStep := .txShift :: clockSteps ++ [.shiftRight]

/-- `sendbits(value)` (R142). -/
def sendSteps (src : ByteSrc) : List SeqStep := [.lineDir .dat .output, .load src] ++ loopSteps 8 sendBitSteps

/-- One iteration of `recvbits` (R143): the sample comes before the pulse. -/
def recvBitSteps : List SeqStep := .rxShift :: clockSteps ++ [.nextBit]

/-- `recvbits()` (R143); the byte is left in `SHIFT`. -/
def recvSteps : List SeqStep := [.lineDir .dat .input, .load (.lit 0)] ++ loopSteps 8 recvBitSteps

/-- The opening of every transaction (R144). -/
def openingSteps : List SeqStep := busResetSteps ++ startSteps ++ [.delay .settle]

/-- `readbyte(address)` (R146), its result kept in a local. -/
def readbyteSteps (address : Byte) (dst : Local) : List SeqStep :=
  openingSteps ++ [.command address .read] ++ sendSteps .cmd ++ recvSteps ++ stopSteps ++ [.save dst]

/-- `writebyte(address, value)` (R147). -/
def writebyteSteps (address : Byte) (value : ByteSrc) : List SeqStep :=
  openingSteps ++ [.command address .write] ++ sendSteps .cmd ++ sendSteps value ++ stopSteps

/-- `recvbits` at the host port: the byte goes to `R`. -/
def recvbitsProgram : List SeqStep := recvSteps ++ [.save .got, .storeR]

/-- `readbyte` at the host port: the byte goes to `R`. -/
def readbyteProgram (address : Byte) : List SeqStep := readbyteSteps address .got ++ [.storeR]

def execSendbits (s : State) : Host.Outcome State Fault Refusal :=
  .next (operate (some 0x08#8) (sendSteps (.lit s.regs.v)) s)

def execRecvbits (s : State) : Host.Outcome State Fault Refusal := .next (operate (some 0x09#8) recvbitsProgram s)

def execReadbyte (s : State) : Host.Outcome State Fault Refusal :=
  .next (operate (some 0x0A#8) (readbyteProgram s.regs.a) s)

def execWritebyte (s : State) : Host.Outcome State Fault Refusal :=
  .next (operate (some 0x0B#8) (writebyteSteps s.regs.a (.lit s.regs.v)) s)

end Sys2Proof.Machine
end

