-- ==== Sys2Proof/Machine/TimeCodec.lean ====
section
/-! DEFINITION. TimeCodec (42_timecodec.md): `read_time` and `set_time`. The pure functions of the codec are in
Operands.lean. -/

namespace Sys2Proof.Machine

/-- `MemRead(r, 1)` of a register into a local (R8). -/
def readRegSteps (r : ChipReg) (dst : Local) : List SeqStep := readbyteSteps (addressOperand r.address) dst

/-- `MemWrite(r, 1, v)` of a register (R8). -/
def writeRegSteps (r : ChipReg) (v : ByteSrc) : List SeqStep := writebyteSteps (addressOperand r.address) v

/-- `read_time()` (R169): seven reads in the source's order, all before the check. -/
def readTimeProgram : List SeqStep :=
  [.gate] ++ readRegSteps .seconds .sec ++ readRegSteps .minutes .min ++ readRegSteps .hours .hour ++
    readRegSteps .day .day ++ readRegSteps .date .date ++ readRegSteps .month .mon ++ readRegSteps .year .year ++
    [.checkTime, .storeTime]

/-- `set_time(t)` (R170): halt, seven field writes, resume. -/
def setTimeProgram (t : CalendarTime) : List SeqStep :=
  [.gate, .checkDomain (bcdOperands t)] ++
    readRegSteps .seconds .secBack ++ writeRegSteps .seconds .halt ++
    writeRegSteps .seconds (.lit (encodeBcd t.sec.toNat)) ++ writeRegSteps .minutes (.lit (encodeBcd t.min.toNat)) ++
    writeRegSteps .hours (.lit (encodeBcd t.hour.toNat)) ++ writeRegSteps .day (.lit (encodeBcd t.wday.toNat)) ++
    writeRegSteps .date (.lit (encodeBcd t.mday.toNat)) ++ writeRegSteps .month (.lit (encodeBcd (t.mon.toNat + 1))) ++
    writeRegSteps .year (.lit (encodeBcd (t.year.toNat % 100))) ++
    readRegSteps .seconds .secBack ++ writeRegSteps .seconds .resume

def execReadTime (s : State) : Host.Outcome State Fault Refusal := .next (operate (some 0x10#8) readTimeProgram s)

def execSetTime (s : State) : Host.Outcome State Fault Refusal :=
  .next (operate (some 0x11#8) (setTimeProgram s.regs.time) s)

end Sys2Proof.Machine
end

