-- ==== Sys2Proof/Machine/TrickleCharge.lean ====
section
/-! DEFINITION. TrickleChargeControl and the scratch self-test (43_tricklecharge_selftest.md). -/

namespace Sys2Proof.Machine

/-- `tc_get()` (R191). -/
def tcGetProgram : List SeqStep := [.gate] ++ readRegSteps .trickle .got ++ [.storeR]

/-- `tc_set(value)` (R192). -/
def tcSetProgram (value : Byte) : List SeqStep := [.gate] ++ writeRegSteps .trickle (.lit value)

/-- `tc_strength(selector)` (R194). -/
def tcStrengthProgram (selector : Byte) : List SeqStep :=
  [.gate] ++ writeRegSteps .trickle (.lit (encodeStrength selector))

/-- `ctrl(code, arg)` (R195): the gate, then the request code, then `tc_strength(arg)`, which passes the gate again. -/
def ctrlProgram (code : Half) (arg : Byte) : List SeqStep := [.gate, .checkRequest code] ++ tcStrengthProgram arg

/-- `selftest()` (R199), not gated (R201). -/
def selftestProgram : List SeqStep :=
  busResetSteps ++ writeRegSteps .ram0 (.lit 0x42#8) ++ readRegSteps .ram0 .got ++ [.compareSentinel]

def execTcGet (s : State) : Host.Outcome State Fault Refusal := .next (operate (some 0x18#8) tcGetProgram s)

def execTcSet (s : State) : Host.Outcome State Fault Refusal :=
  .next (operate (some 0x19#8) (tcSetProgram s.regs.v) s)

def execTcStrength (s : State) : Host.Outcome State Fault Refusal :=
  .next (operate (some 0x1A#8) (tcStrengthProgram s.regs.cArg) s)

def execCtrl (s : State) : Host.Outcome State Fault Refusal :=
  .next (operate (some 0x1B#8) (ctrlProgram s.regs.cCode s.regs.cArg) s)

def execSelftest (s : State) : Host.Outcome State Fault Refusal := .next (operate (some 0x1F#8) selftestProgram s)

end Sys2Proof.Machine
end

