-- ==== Sys2Proof/Machine/WireFrame.lean ====
section
/-! DEFINITION. The wire level (30_encoding.md R90 to R93, R101): the meaning of a command byte is the transaction it
opens, `MemRead(a, 1)` or `MemWrite(a, 1, v)` of 00_scope.md R8, that is R146 or R147 with the address in the byte
instead of in `A`. The data byte of a write is `V` and the byte of a read goes to `R`, as in R146 and R147; no `OP` code
starts it, so `OP` keeps its value (log entry 3). -/

namespace Sys2Proof.Machine

/-- The read transaction of an address (R146). -/
def readFrame (a : Address) (s : State) : State := operate none (readbyteProgram (addressOperand a)) s

/-- The write transaction of an address (R147). -/
def writeFrame (a : Address) (s : State) : State :=
  operate none (writebyteSteps (addressOperand a) (.lit s.regs.v)) s

def execCmdRead (a : Address) (s : State) : Host.Outcome State Fault Refusal := .next (readFrame a s)

def execCmdWrite (a : Address) (s : State) : Host.Outcome State Fault Refusal := .next (writeFrame a s)

def execWrSeconds (s : State) : Host.Outcome State Fault Refusal := .next (writeFrame ChipReg.seconds.address s)

def execRdSeconds (s : State) : Host.Outcome State Fault Refusal := .next (readFrame ChipReg.seconds.address s)

def execWrMinutes (s : State) : Host.Outcome State Fault Refusal := .next (writeFrame ChipReg.minutes.address s)

def execRdMinutes (s : State) : Host.Outcome State Fault Refusal := .next (readFrame ChipReg.minutes.address s)

def execWrHours (s : State) : Host.Outcome State Fault Refusal := .next (writeFrame ChipReg.hours.address s)

def execRdHours (s : State) : Host.Outcome State Fault Refusal := .next (readFrame ChipReg.hours.address s)

def execWrDate (s : State) : Host.Outcome State Fault Refusal := .next (writeFrame ChipReg.date.address s)

def execRdDate (s : State) : Host.Outcome State Fault Refusal := .next (readFrame ChipReg.date.address s)

def execWrMonth (s : State) : Host.Outcome State Fault Refusal := .next (writeFrame ChipReg.month.address s)

def execRdMonth (s : State) : Host.Outcome State Fault Refusal := .next (readFrame ChipReg.month.address s)

def execWrDay (s : State) : Host.Outcome State Fault Refusal := .next (writeFrame ChipReg.day.address s)

def execRdDay (s : State) : Host.Outcome State Fault Refusal := .next (readFrame ChipReg.day.address s)

def execWrYear (s : State) : Host.Outcome State Fault Refusal := .next (writeFrame ChipReg.year.address s)

def execRdYear (s : State) : Host.Outcome State Fault Refusal := .next (readFrame ChipReg.year.address s)

def execWrTrickle (s : State) : Host.Outcome State Fault Refusal := .next (writeFrame ChipReg.trickle.address s)

def execRdTrickle (s : State) : Host.Outcome State Fault Refusal := .next (readFrame ChipReg.trickle.address s)

def execWrRam0 (s : State) : Host.Outcome State Fault Refusal := .next (writeFrame ChipReg.ram0.address s)

def execRdRam0 (s : State) : Host.Outcome State Fault Refusal := .next (readFrame ChipReg.ram0.address s)

end Sys2Proof.Machine
end

