-- ==== Sys2Proof/Machine/Dispatch.lean ====
section
/-! DEFINITION. Every instruction's meaning, one arm per constructor. -/

namespace Sys2Proof.Machine

def exec (i : Instr) (s : State) : Host.Outcome State Fault Refusal :=
  match i with
  -- host operations (R99)
  | .reset => Sys2Proof.Machine.execReset s
  | .start => Sys2Proof.Machine.execStart s
  | .stop => Sys2Proof.Machine.execStop s
  | .clock => Sys2Proof.Machine.execClock s
  | .txbit => Sys2Proof.Machine.execTxbit s
  | .rxbit => Sys2Proof.Machine.execRxbit s
  | .sendbits => Sys2Proof.Machine.execSendbits s
  | .recvbits => Sys2Proof.Machine.execRecvbits s
  | .readbyte => Sys2Proof.Machine.execReadbyte s
  | .writebyte => Sys2Proof.Machine.execWritebyte s
  | .readTime => Sys2Proof.Machine.execReadTime s
  | .setTime => Sys2Proof.Machine.execSetTime s
  | .tcGet => Sys2Proof.Machine.execTcGet s
  | .tcSet => Sys2Proof.Machine.execTcSet s
  | .tcStrength => Sys2Proof.Machine.execTcStrength s
  | .ctrl => Sys2Proof.Machine.execCtrl s
  | .selftest => Sys2Proof.Machine.execSelftest s
  -- wire commands (R92, R93)
  | .cmdRead a => Sys2Proof.Machine.execCmdRead a s
  | .cmdWrite a => Sys2Proof.Machine.execCmdWrite a s
  | .wrSeconds => Sys2Proof.Machine.execWrSeconds s
  | .rdSeconds => Sys2Proof.Machine.execRdSeconds s
  | .wrMinutes => Sys2Proof.Machine.execWrMinutes s
  | .rdMinutes => Sys2Proof.Machine.execRdMinutes s
  | .wrHours => Sys2Proof.Machine.execWrHours s
  | .rdHours => Sys2Proof.Machine.execRdHours s
  | .wrDate => Sys2Proof.Machine.execWrDate s
  | .rdDate => Sys2Proof.Machine.execRdDate s
  | .wrMonth => Sys2Proof.Machine.execWrMonth s
  | .rdMonth => Sys2Proof.Machine.execRdMonth s
  | .wrDay => Sys2Proof.Machine.execWrDay s
  | .rdDay => Sys2Proof.Machine.execRdDay s
  | .wrYear => Sys2Proof.Machine.execWrYear s
  | .rdYear => Sys2Proof.Machine.execRdYear s
  | .wrTrickle => Sys2Proof.Machine.execWrTrickle s
  | .rdTrickle => Sys2Proof.Machine.execRdTrickle s
  | .wrRam0 => Sys2Proof.Machine.execWrRam0 s
  | .rdRam0 => Sys2Proof.Machine.execRdRam0 s

end Sys2Proof.Machine
end

