-- ==== Sys2Proof/Machine/HostPort.lean ====
section
/-! DEFINITION. The host port (10_state.md R26, R27; 60_exceptions.md R219): what each action of the host does. -/

namespace Sys2Proof.Machine

/-- The steps of each operation with the operands latched from the host registers (R27), for an operation that is
started and not waited for. `exec` runs the same lists to their end. -/
def program : Instr → State → List SeqStep
  | .reset, _ => busResetSteps
  | .start, _ => startSteps
  | .stop, _ => stopSteps
  | .clock, _ => clockSteps
  | .txbit, s => txbitSteps (bitOperand s.regs.v)
  | .rxbit, _ => rxbitSteps
  | .sendbits, s => sendSteps (.lit s.regs.v)
  | .recvbits, _ => recvbitsProgram
  | .readbyte, s => readbyteProgram s.regs.a
  | .writebyte, s => writebyteSteps s.regs.a (.lit s.regs.v)
  | .readTime, _ => readTimeProgram
  | .setTime, s => setTimeProgram s.regs.time
  | .tcGet, _ => tcGetProgram
  | .tcSet, s => tcSetProgram s.regs.v
  | .tcStrength, s => tcStrengthProgram s.regs.cArg
  | .ctrl, s => ctrlProgram s.regs.cCode s.regs.cArg
  | .selftest, _ => selftestProgram
  | .cmdRead a, _ => readbyteProgram (addressOperand a)
  | .cmdWrite a, s => writebyteSteps (addressOperand a) (.lit s.regs.v)
  | .wrSeconds, s => writeRegSteps .seconds (.lit s.regs.v)
  | .rdSeconds, _ => readbyteProgram (addressOperand ChipReg.seconds.address)
  | .wrMinutes, s => writeRegSteps .minutes (.lit s.regs.v)
  | .rdMinutes, _ => readbyteProgram (addressOperand ChipReg.minutes.address)
  | .wrHours, s => writeRegSteps .hours (.lit s.regs.v)
  | .rdHours, _ => readbyteProgram (addressOperand ChipReg.hours.address)
  | .wrDate, s => writeRegSteps .date (.lit s.regs.v)
  | .rdDate, _ => readbyteProgram (addressOperand ChipReg.date.address)
  | .wrMonth, s => writeRegSteps .month (.lit s.regs.v)
  | .rdMonth, _ => readbyteProgram (addressOperand ChipReg.month.address)
  | .wrDay, s => writeRegSteps .day (.lit s.regs.v)
  | .rdDay, _ => readbyteProgram (addressOperand ChipReg.day.address)
  | .wrYear, s => writeRegSteps .year (.lit s.regs.v)
  | .rdYear, _ => readbyteProgram (addressOperand ChipReg.year.address)
  | .wrTrickle, s => writeRegSteps .trickle (.lit s.regs.v)
  | .rdTrickle, _ => readbyteProgram (addressOperand ChipReg.trickle.address)
  | .wrRam0, s => writeRegSteps .ram0 (.lit s.regs.v)
  | .rdRam0, _ => readbyteProgram (addressOperand ChipReg.ram0.address)

/-- The `OP` code an instruction writes; a transaction given by its command byte writes none (log entry 3). -/
def startCode (i : Instr) : Option Byte :=
  match encode i with
  | (.host, code) => some code
  | (.wire, _) => none

/-- A line of a program: `OP` is written and waited for. An unassigned code is R102's `IllegalOp`. -/
def callOp (code : Byte) (s : State) : Host.Outcome State Fault Refusal :=
  match decodeOp code with
  | .ok i => exec i s
  | .error _ => .next s.illegalOp

/-- `OP` is written and not waited for (R27). -/
def postOp (code : Byte) (s : State) : State :=
  match decodeOp code with
  | .ok i => post (startCode i) (program i s) s
  | .error _ => s.illegalOp

/-- One transaction given by its command byte. -/
def callFrame (cmd : Byte) (s : State) : Host.Outcome State Fault Refusal :=
  match decodeCommand cmd with
  | .ok i => exec i s
  | .error _ => .refused (.notACommandByte cmd)

def OperandWrite.store (w : OperandWrite) (r : HostRegs) : HostRegs :=
  match w with
  | .a x => { r with a := x }
  | .v x => { r with v := x }
  | .tSec x => { r with time := { r.time with sec := x } }
  | .tMin x => { r with time := { r.time with min := x } }
  | .tHour x => { r with time := { r.time with hour := x } }
  | .tWday x => { r with time := { r.time with wday := x } }
  | .tMday x => { r with time := { r.time with mday := x } }
  | .tMon x => { r with time := { r.time with mon := x } }
  | .tYear x => { r with time := { r.time with year := x } }
  | .cCode x => { r with cCode := x }
  | .cArg x => { r with cArg := x }

/-- A host write of an operand register: taken only while `BUSY = false` (R27, R219). -/
def hostWrite (w : OperandWrite) (s : State) : State :=
  if s.busy then s.refuseBusy else { s with regs := w.store s.regs, answer := .accepted }

/-- What a read of the port shows, zero-extended. -/
def PortReg.value (p : PortReg) (s : State) : Half :=
  match p with
  | .a => s.regs.a.setWidth 16
  | .v => s.regs.v.setWidth 16
  | .r => s.regs.r.setWidth 16
  | .status => s.regs.status.setWidth 16
  | .tSec => s.regs.time.sec.setWidth 16
  | .tMin => s.regs.time.min.setWidth 16
  | .tHour => s.regs.time.hour.setWidth 16
  | .tWday => s.regs.time.wday.setWidth 16
  | .tMday => s.regs.time.mday.setWidth 16
  | .tMon => s.regs.time.mon.setWidth 16
  | .tYear => s.regs.time.year
  | .cCode => s.regs.cCode
  | .cArg => s.regs.cArg.setWidth 16
  | .busy => if s.busy then 1 else 0

/-- A host read: at any time (R27), and it changes nothing but the port's answer. -/
def hostRead (p : PortReg) (s : State) : State := { s with answer := .data (p.value s) }

/-- `tc_show()` (R196): `tc_get`, then the text of the byte read, or no text when it did not end `Ok`. -/
def tcShow (s : State) : Host.Outcome State Fault Refusal :=
  if s.busy then .next { s.refuseBusy with text := none }
  else
    match exec .tcGet s with
    | .next t => .next { t with text := if t.regs.status = Status.ok.code then some (formatTc t.regs.r) else none }
    | .fault e => .fault e
    | .refused e => .refused e

/-- `tc_store(text)` (R197): `V` takes the parsed value, then `tc_set`. -/
def tcStore (text : List Byte) (s : State) : Host.Outcome State Fault Refusal :=
  exec .tcSet (hostWrite (.v (parseHexOrZero text)) s)

/-- One action of the host, already taken off the queue. -/
def perform (act : HostAction) (s : State) : Host.Outcome State Fault Refusal :=
  match act with
  | .call code => callOp code s
  | .post code => .next (postOp code s)
  | .frame cmd => callFrame cmd s
  | .write w => .next (hostWrite w s)
  | .read p => .next (hostRead p s)
  | .tcShow => tcShow s
  | .tcStore text => tcStore text s
  | .hardReset => .next s.hardReset
  | .wait => .next (tick s)

/-- The action that runs a byte of the opcode table: a program line for a host code, a transaction for a command byte. -/
def tableAction (b : Byte) : HostAction :=
  match tableLevel b with
  | .host => .call b
  | .wire => .frame b

end Sys2Proof.Machine
end

