-- ==== Sys2Proof/Machine/Step.lean ====
section
/-! DEFINITION. One step of the machine. The block fetches no instructions (R24): what it does next is what the host does
at its port, or, when the host does nothing, the next step of the running operation. -/

namespace Sys2Proof.Machine

/-- The host's next action is performed; with none queued, the block advances one step, or waits when idle. -/
def step (s : State) : Host.Outcome State Fault Refusal :=
  match s.inputs with
  | [] => .next (tick s)
  | act :: rest => perform act { s with inputs := rest }

/-- The state in which the next step runs the table word `w`: the host's next action is the one that starts it. -/
def State.withFetchWord (s : State) (nbits w : Nat) : State :=
  { s with inputs := tableAction (tableByte nbits w) :: s.inputs }

end Sys2Proof.Machine
end

