-- ==== Sys2Proof/Safety.lean ====
section
/-! DEFINITION. The terms the claims are stated in: the traces the rules write out (R9), the state an operation leaves
behind (R27, R211), the chip's cells as the test device holds them (R75), and the invariant of a run. None of these is
read by the machine. -/

namespace Sys2Proof.Machine

/-! ### Traces, as the rules write them -/

/-- One clock pulse (R124). -/
def pulseTrace (p : Params) : List TraceEntry :=
  [.write .clk true, .delay p.tPulse, .write .clk false, .delay p.tPulse]

/-- The bits of a byte in the order of the wire (R91): `b[0]` first. -/
def bitsOf (b : Byte) : List Bool := (List.range 8).map b.getLsbD

/-- `sendbits(v)` (R142): 41 entries. -/
def sendTrace (p : Params) (v : Byte) : List TraceEntry :=
  .dir .dat .output :: (bitsOf v).flatMap (fun b => .write .dat b :: pulseTrace p)

/-- `recvbits()` answered with the bits of `b` (R143): 41 entries. -/
def recvTrace (p : Params) (b : Byte) : List TraceEntry :=
  .dir .dat .input :: (bitsOf b).flatMap (fun x => .read .dat x :: pulseTrace p)

/-- `reset()` (R121). -/
def busResetTrace : List TraceEntry := [.write .rst false, .write .clk false, .dir .dat .input]

/-- The opening of a transaction (R144). -/
def openingTrace (p : Params) : List TraceEntry := busResetTrace ++ [.write .rst true, .delay p.tSettle]

/-- A read transaction with command byte `c` that receives `b` (R146): 88 entries. -/
def readTrace (p : Params) (c b : Byte) : List TraceEntry :=
  openingTrace p ++ sendTrace p c ++ recvTrace p b ++ [.write .rst false]

/-- A write transaction with command byte `c` and data byte `v` (R147): 88 entries. -/
def writeTrace (p : Params) (c v : Byte) : List TraceEntry :=
  openingTrace p ++ sendTrace p c ++ sendTrace p v ++ [.write .rst false]

/-- What two environments may differ in (R72): the values of the reads are erased. -/
def TraceEntry.shape : TraceEntry → TraceEntry
  | .read l _ => .read l false
  | e => e

/-- A direction event. -/
def TraceEntry.isDir : TraceEntry → Bool
  | .dir _ _ => true
  | _ => false

/-- A write of the chip-select line. -/
def TraceEntry.isChipSelect : TraceEntry → Bool
  | .write .rst _ => true
  | _ => false

/-- The sum of the delays of a trace, in time-units (R260). -/
def leastDuration : List TraceEntry → Nat
  | [] => 0
  | .delay n :: rest => n + leastDuration rest
  | _ :: rest => leastDuration rest

/-! ### What an operation leaves behind -/

/-- `t` is the block after an operation that began in `s` and ended with status `e`: idle again (R24, R25), `STATUS` and
its record written (R28), the port's answer `accepted`, and nothing of the host's own, of the parameters (R30) or
of the fixed directions of `RST` and `CLK` (R21) changed. -/
structure Ended (e : Status) (s t : State) : Prop where
  busy : t.busy = false
  seq : t.seq = []
  work : t.work = Work.idle
  status : t.regs.status = e.code
  raised : t.raised = if e = .ok then s.raised else e :: s.raised
  answer : t.answer = .accepted
  text : t.text = s.text
  inputs : t.inputs = s.inputs
  dirRst : t.lines.dirRst = s.lines.dirRst
  dirClk : t.lines.dirClk = s.lines.dirClk
  params : t.params = s.params

/-- No answer of the unconstrained environment was used: its list and the free values are where they were. -/
def NoAnswerUsed (s t : State) : Prop := t.draws = s.draws ∧ ∀ given, s.env = .free given → t.env = .free given

/-- Nothing outside the host registers and the flags has changed (R222). -/
structure Untouched (s t : State) : Prop where
  lines : t.lines = s.lines
  trace : t.trace = s.trace
  env : t.env = s.env
  draws : t.draws = s.draws

/-! ### The chip's cells, where the environment is the register-echo device -/

/-- The device, if that is the environment. -/
def State.device? (s : State) : Option EchoDevice :=
  match s.env with
  | .echo dev => some dev
  | _ => none

/-- The byte of one cell of the device: the model's read of one byte of memory. -/
def State.cell (s : State) (a : Nat) : Byte :=
  match s.env with
  | .echo dev => dev.mem.read a
  | _ => 0

/-- The address the next clock pulse stores to, if it stores (R75): the sixteenth rising edge of a write inside a
transaction, with the data line an output. -/
def State.pulseStores (s : State) : Option Nat :=
  match s.env with
  | .echo dev =>
    if s.lines.outClk = false ∧ s.lines.outRst = true ∧ dev.n = 15 ∧ dev.c.getLsbD 0 = false ∧
        s.lines.dirDat = .output then some dev.address
    else none
  | _ => none

/-- How many rising edges the eight pulses of a `sendbits` or `recvbits` have: one less when the host left the clock high
(R124). -/
def State.risingEdges (s : State) : Nat := if s.lines.outClk then 7 else 8

/-- The address a `sendbits` started from the host port stores to, if it stores (R75): its pulses reach the sixteenth of
a write transaction the host has opened. -/
def State.sendStores (s : State) : Option Nat :=
  match s.env with
  | .echo dev =>
    if s.lines.outRst = true ∧ dev.c.getLsbD 0 = false ∧ 8 ≤ dev.n ∧ dev.n < 16 ∧ 16 ≤ dev.n + s.risingEdges then
      some dev.address
    else none
  | _ => none

/-! ### The time operations (R167 to R170) -/

/-- What R167 and R168 ask of the seven bytes (the predicate is D14, the lengths of the months G2). -/
def BytesAreATime (p : Params) (b : RawTime) : Prop :=
  decodeBcd p b.sec ≤ 59 ∧ decodeBcd p b.min ≤ 59 ∧ decodeBcd p b.hour ≤ 23 ∧
    1 ≤ decodeBcd p b.mon ∧ decodeBcd p b.mon ≤ 12 ∧
    1 ≤ decodeBcd p b.date ∧ decodeBcd p b.date ≤ daysInMonth (decodeBcd p b.mon - 1) (centuryYear (decodeBcd p b.year))

/-- The seven reads of R169, in its order. -/
def readTimeTrace (p : Params) (b : RawTime) : List TraceEntry :=
  readTrace p 0x81 b.sec ++ readTrace p 0x83 b.min ++ readTrace p 0x85 b.hour ++ readTrace p 0x8B b.day ++
    readTrace p 0x87 b.date ++ readTrace p 0x89 b.mon ++ readTrace p 0x8D b.year

/-- The answers that make the seven reads give these bytes. -/
def rawBits (b : RawTime) : List Bool :=
  bitsOf b.sec ++ bitsOf b.min ++ bitsOf b.hour ++ bitsOf b.day ++ bitsOf b.date ++ bitsOf b.mon ++ bitsOf b.year

/-- The record R169 writes. -/
def recordOf (p : Params) (b : RawTime) : CalendarTime :=
  { sec := BitVec.ofNat 8 (decodeBcd p b.sec), min := BitVec.ofNat 8 (decodeBcd p b.min),
    hour := BitVec.ofNat 8 (decodeBcd p b.hour), wday := BitVec.ofNat 8 (decodeBcd p b.day),
    mday := BitVec.ofNat 8 (decodeBcd p b.date), mon := BitVec.ofNat 8 (decodeBcd p b.mon - 1),
    year := BitVec.ofNat 16 (centuryYear (decodeBcd p b.year)) }

/-- The values `set_time` would encode, all in the codec's domain (R170, D13). -/
def FieldsAreEncodable (t : CalendarTime) : Prop :=
  t.sec.toNat ≤ 99 ∧ t.min.toNat ≤ 99 ∧ t.hour.toNat ≤ 99 ∧ t.wday.toNat ≤ 99 ∧ t.mday.toNat ≤ 99 ∧
    t.mon.toNat + 1 ≤ 99

/-- The eleven transactions of R170, in its order (D9, D10), with `s0` and `s1` read back. -/
def setTimeTrace (p : Params) (t : CalendarTime) (s0 s1 : Byte) : List TraceEntry :=
  readTrace p 0x81 s0 ++ writeTrace p 0x80 (s0 ||| 0x80#8) ++ writeTrace p 0x80 (encodeBcd t.sec.toNat) ++
    writeTrace p 0x82 (encodeBcd t.min.toNat) ++ writeTrace p 0x84 (encodeBcd t.hour.toNat) ++
    writeTrace p 0x8A (encodeBcd t.wday.toNat) ++ writeTrace p 0x86 (encodeBcd t.mday.toNat) ++
    writeTrace p 0x88 (encodeBcd (t.mon.toNat + 1)) ++ writeTrace p 0x8C (encodeBcd (t.year.toNat % 100)) ++
    readTrace p 0x81 s1 ++ writeTrace p 0x80 (s1 &&& 0x7F#8)

/-! ### Tables of the spec -/

/-- The 239 codes R102 lists. -/
def UnassignedCode (code : Byte) : Prop :=
  code.toNat = 0x06 ∨ code.toNat = 0x07 ∨ (0x0C ≤ code.toNat ∧ code.toNat ≤ 0x0F) ∨
    (0x12 ≤ code.toNat ∧ code.toNat ≤ 0x17) ∨ (0x1C ≤ code.toNat ∧ code.toNat ≤ 0x1E) ∨ 0x20 ≤ code.toNat

/-- The least duration of a transaction (R260): `T_SETTLE` and 16 pulses. -/
def transactionUnits (p : Params) : Nat := p.tSettle + 16 * (2 * p.tPulse)

/-- The table of R260, its second column. -/
def leastDurationOf (p : Params) : Instr → Nat
  | .reset | .start | .stop | .txbit | .rxbit => 0
  | .clock => 2 * p.tPulse
  | .sendbits | .recvbits => 8 * (2 * p.tPulse)
  | .selftest => 2 * transactionUnits p
  | .readTime => 7 * transactionUnits p
  | .setTime => 11 * transactionUnits p
  | _ => transactionUnits p

/-- The figures of R260, its third column. -/
def leastDurationFigure : Instr → Nat
  | .reset | .start | .stop | .txbit | .rxbit => 0
  | .clock => 2
  | .sendbits | .recvbits => 16
  | .selftest => 72
  | .readTime => 252
  | .setTime => 396
  | _ => 36

/-! ### The invariant of a run -/

/-- A step that may stand in a running sequence: the block never sets the direction of `RST` or `CLK` (R21). -/
def SeqStep.legal : SeqStep → Bool
  | .lineDir l _ => l == .dat
  | _ => true

/-- A running sequence ends with `BUSY <- false` and has it nowhere else (R24, R27). -/
def seqClosed : List SeqStep → Bool
  | [] => false
  | [st] => st == .release
  | st :: rest => st != .release && seqClosed rest

/-- What holds in every state a run reaches. -/
structure Inv (s : State) : Prop where
  /-- "`dir[RST]` and `dir[CLK]` are `Output` at all times" (R21). -/
  dirRst : s.lines.dirRst = .output
  dirClk : s.lines.dirClk = .output
  /-- "`SEQ` is `Idle` when `BUSY = false`" (R24), and the working state is dead (R23). -/
  idle : s.busy = false → s.seq = [] ∧ s.work = Work.idle
  /-- While `BUSY = true` there is a sequence, and its last step, and no other, ends the operation (R24, R27). -/
  running : s.busy = true → seqClosed s.seq = true
  legal : ∀ st ∈ s.seq, st.legal = true
  /-- `STATUS` is one of the codes of R212. -/
  status : ∃ e : Status, s.regs.status = e.code
  /-- The record of R28 holds no `Ok`. -/
  raised : Status.ok ∉ s.raised
  /-- The device's cells keep their canonical form. -/
  chip : ∀ dev, s.env = .echo dev → dev.mem.wf

end Sys2Proof.Machine
end

