-- ==== Sys2Proof/Certificates/Slice0/Obligations.lean ====
section
/-! DEFINITION. The statements for the provers. Where a statement rests on a decision of the spec or on a choice of the
model, its docstring says so. The numbers of operation and status codes are the spec's own (D3, D4). -/

open Sys2Proof
open Sys2Proof.Machine

/-! ## Encoding -/

/-- Every well-formed instruction's word decodes, at its level, to that instruction (R92, R93, R99). The codes are D3's;
that a defined register's command byte is its named row is log entry 4. -/
def Obligations.DecodeOfEncodeIsTheInstruction : Prop :=
  ∀ i : Instr, i.wellFormed = true → decode (encode i).1 (encode i).2 = .ok i

/-- Every byte that decodes is the encoding of the well-formed instruction it decodes to, at both levels. -/
def Obligations.EncodeOfDecodeIsTheByte : Prop :=
  ∀ (l : Level) (b : Byte) (i : Instr), decode l b = .ok i → i.wellFormed = true ∧ encode i = (l, b)

/-- A few words written out from R92, R93 and R99. -/
def Obligations.WrittenOutWordsDecode : Prop :=
  decodeTableWord 8 0b00000000 = some .reset ∧ decodeTableWord 8 0b00001010 = some .readbyte ∧
  decodeTableWord 8 0b00010001 = some .setTime ∧ decodeTableWord 8 0b00011111 = some .selftest ∧
  decodeTableWord 8 0b10000001 = some .rdSeconds ∧ decodeTableWord 8 0b10001010 = some .wrDay ∧
  decodeTableWord 8 0b11000000 = some .wrRam0 ∧ decodeTableWord 8 0b10001111 = some (.cmdRead 0b000111#6) ∧
  decodeTableWord 8 0b11111110 = some (.cmdWrite 0b111111#6) ∧ decodeTableWord 8 0b00100000 = none

/-- R102, R219 (the spec's D29): a write of an unassigned code to an idle block writes `STATUS` and nothing else,
whether the host waits or not; every other code selects an operation. The port's answer and the record of R28 are the
model's (log entries 13, 14, 16). -/
def Obligations.UnassignedCodeEndsAtOnceWithIllegalOp : Prop :=
  (∀ (s : State) (code : Byte) (rest : List HostAction), s.busy = false → UnassignedCode code →
    (s.inputs = .call code :: rest ∨ s.inputs = .post code :: rest) →
    step s = .next { s with
      inputs := rest, regs := { s.regs with status := 6 }, raised := .illegalOp :: s.raised, answer := .accepted }) ∧
  (∀ code : Byte, ¬ UnassignedCode code → ∃ i, decode .host code = .ok i)

/-- R140: the command byte, for any unsigned address. -/
def Obligations.CommandByteIsPatternWithMaskedAddress : Prop :=
  ∀ (n : Nat) (f : RW),
    let c := encodeCommand (BitVec.ofNat 8 n) f
    c = (match f with
      | .read => ((BitVec.ofNat 8 n &&& 0x3F#8) <<< 1) ||| 0x81#8
      | .write => ((BitVec.ofNat 8 n &&& 0x3F#8) <<< 1) ||| 0x80#8) ∧
    c.toNat = 0x80 + 2 * (n % 64) + (if f = .read then 1 else 0) ∧ 0x80 ≤ c.toNat ∧
    c.getLsbD 7 = true ∧ c.getLsbD 0 = decide (f = .read) ∧ commandAddress c = BitVec.ofNat 6 n ∧
    encodeCommand 0x40 .read = 0x81 ∧ encodeCommand 0xFF .write = 0xFE ∧ encodeCommand 0x3F .read = 0xFF ∧
    encodeCommand 0x20 .read = 0xC1

/-- The eighteen command bytes of R93. -/
def Obligations.CommandBytesOfTheRegisterMap : Prop :=
  (ChipReg.all.map fun r => commandByte r.address .write) =
    [0x80, 0x82, 0x84, 0x86, 0x88, 0x8A, 0x8C, 0x90, 0xC0] ∧
  (ChipReg.all.map fun r => commandByte r.address .read) =
    [0x81, 0x83, 0x85, 0x87, 0x89, 0x8B, 0x8D, 0x91, 0xC1]

/-! ## BitProtocol -/

/-- R121 (the order of the three events is D8): `reset` from every idle state. Beside the rule, that the port answers
`accepted`, that `OP` keeps the code and that the working state is dead at the end are the model's log entries 13, 14
and 15. The cells are those of the register-echo device of R75 (D25, log entry 25). -/
def Obligations.BusResetMakesTheBusIdle : Prop :=
  ∀ s : State, s.busy = false → ∃ t, exec .reset s = .next t ∧ Ended .ok s t ∧
    t.events = s.events ++ [.write .rst false, .write .clk false, .dir .dat .input] ∧
    t.lines = { s.lines with outRst := false, outClk := false, dirDat := .input } ∧
    t.regs = { s.regs with op := 0x00, status := 0 } ∧ t.present = s.present ∧
    NoAnswerUsed s t ∧ ∀ a, t.cell a = s.cell a

/-- R122, R123: `start` and `stop` issue their one event and touch nothing else of the lines or the chip, whatever the
state was. Beside the rules, that the port answers `accepted`, that `OP` keeps the code and that the working state is
dead at the end are the model's log entries 13, 14 and 15. The cells are those of the register-echo device of R75 (D25,
log entry 25). -/
def Obligations.StartAndStopWriteChipSelectOnly : Prop :=
  ∀ s : State, s.busy = false →
    (∃ t, exec .start s = .next t ∧ Ended .ok s t ∧ t.events = s.events ++ [.write .rst true] ∧
      t.lines = { s.lines with outRst := true } ∧ t.regs = { s.regs with op := 0x01, status := 0 } ∧
      t.present = s.present ∧ NoAnswerUsed s t ∧ ∀ a, t.cell a = s.cell a) ∧
    (∃ t, exec .stop s = .next t ∧ Ended .ok s t ∧ t.events = s.events ++ [.write .rst false] ∧
      t.lines = { s.lines with outRst := false } ∧ t.regs = { s.regs with op := 0x02, status := 0 } ∧
      t.present = s.present ∧ NoAnswerUsed s t ∧ ∀ a, t.cell a = s.cell a)

/-- R124: `clock` issues its four entries in every state, an open transaction or not, the clock high or low. The last
two clauses are what the test device of R75 (D25, log entry 25) does: only the sixteenth pulse of a write stores, and to
one cell. Beside the rule, that the port answers `accepted`, that `OP` keeps the code and that the working state is dead
at the end are the model's log entries 13, 14 and 15. -/
def Obligations.ClockGivesOnePulse : Prop :=
  ∀ s : State, s.busy = false → ∃ t, exec .clock s = .next t ∧ Ended .ok s t ∧
    t.events = s.events ++ [.write .clk true, .delay s.params.tPulse, .write .clk false, .delay s.params.tPulse] ∧
    t.lines = { s.lines with outClk := false } ∧ t.regs = { s.regs with op := 0x03, status := 0 } ∧
    t.present = s.present ∧ NoAnswerUsed s t ∧
    (∀ a, s.pulseStores ≠ some a → t.cell a = s.cell a) ∧
    (∀ dev a, s.env = .echo dev → dev.mem.wf → s.pulseStores = some a → t.cell a = dev.d.setBit 7 s.lines.outDat)

/-- R125 with the data line an output; with it an input, the spec's `ProtocolViolation` (D23), which leaves every host
register but `STATUS` as before (R222). That `OP` keeps the accepted code `0x04` is the model's log entry 14. That the
port answers `accepted` and that the working state is dead at the end are the model's log entries 13 and 15. The record
of R28 is log entry 16. The cells are those of the register-echo device of R75 (D25, log entry 25). -/
def Obligations.TxbitWritesTheDataLineOrIsRefused : Prop :=
  ∀ s : State, s.busy = false →
    (s.lines.dirDat = .output → ∃ t, exec .txbit s = .next t ∧ Ended .ok s t ∧
      t.events = s.events ++ [.write .dat (s.regs.v.getLsbD 0)] ∧
      t.lines = { s.lines with outDat := s.regs.v.getLsbD 0 } ∧ t.regs = { s.regs with op := 0x04, status := 0 } ∧
      t.present = s.present ∧ NoAnswerUsed s t ∧ ∀ a, t.cell a = s.cell a) ∧
    (s.lines.dirDat = .input → ∃ t, exec .txbit s = .next t ∧ Ended .protocolViolation s t ∧ Untouched s t ∧
      t.regs = { s.regs with status := 5 } ∧ t.present = s.present)

/-- R126 with the data line an input; with it an output, the spec's `ProtocolViolation` (D23), which leaves every host
register but `STATUS` as before (R222). That `OP` keeps the accepted code `0x05` is the model's log entry 14. That the
port answers `accepted` and that the working state is dead at the end are the model's log entries 13 and 15. The record
of R28 is log entry 16. That the environment gives the listed answers first is log entry 8. The cells are those of the
register-echo device of R75 (D25, log entry 25). -/
def Obligations.RxbitSamplesTheDataLineOrIsRefused : Prop :=
  ∀ s : State, s.busy = false →
    (s.lines.dirDat = .input → ∃ t b, exec .rxbit s = .next t ∧ Ended .ok s t ∧
      t.events = s.events ++ [.read .dat b] ∧ t.lines = s.lines ∧
      t.regs = { s.regs with op := 0x05, status := 0, r := if b then 1 else 0 } ∧ t.present = s.present ∧
      (∀ x rest, s.env = .free (x :: rest) → b = x ∧ t.env = .free rest ∧ t.draws = s.draws) ∧
      ∀ a, t.cell a = s.cell a) ∧
    (s.lines.dirDat = .output → ∃ t, exec .rxbit s = .next t ∧ Ended .protocolViolation s t ∧ Untouched s t ∧
      t.regs = { s.regs with status := 5 } ∧ t.present = s.present)

/-! ## ByteFramer -/

/-- R142: `sendbits` from every idle state, in any environment; the last clause is the working register of the rule.
The rest of what the operation
leaves is R27's and R24's (`BUSY`, `SEQ`) and the model's: the port's answer (log entry 13), `OP` (14), the dead working
state (15). -/
def Obligations.SendbitsSendsEightBitsLowFirst : Prop :=
  (∀ s : State, s.busy = false → ∃ t, exec .sendbits s = .next t ∧ Ended .ok s t ∧
    t.events = s.events ++ sendTrace s.params s.regs.v ∧
    t.lines = { s.lines with dirDat := .output, outClk := false, outDat := s.regs.v.getLsbD 7 } ∧
    t.regs = { s.regs with op := 0x08, status := 0 } ∧ t.present = s.present ∧ NoAnswerUsed s t) ∧
  (∀ (p : Params) (v : Byte), (sendTrace p v).length = 41 ∧ (sendTrace p v).head? = some (.dir .dat .output) ∧
    ∀ i, i < 8 → (sendTrace p v)[1 + 5 * i]? = some (.write .dat (v.getLsbD i)) ∧
      ((sendTrace p v).drop (2 + 5 * i)).take 4 =
        [.write .clk true, .delay p.tPulse, .write .clk false, .delay p.tPulse]) ∧
  (∀ (v : Byte) (s : State), ∃ u, runSteps (sendSteps (.lit v)) s = .goOn u ∧ u.work.shift = 0)

/-- What a `sendbits` started from the host port does at the test device (R75, D25, log entry 25): it stores to at most
the one cell whose write transaction its pulses complete, and a whole data byte of an open write is that cell's new
value. -/
def Obligations.SendbitsStoresOnlyTheAddressedCell : Prop :=
  ∀ s t : State, s.busy = false → exec .sendbits s = .next t →
    (∀ a, s.sendStores ≠ some a → t.cell a = s.cell a) ∧
    (∀ dev a, s.env = .echo dev → dev.mem.wf → dev.n = 8 → s.lines.outClk = false → s.sendStores = some a →
      t.cell a = s.regs.v)

/-- R143: `recvbits` from every idle state; `R` is the eight answers, the first in bit 0. That the environment gives the
listed answers first is the model's log entry 8. The rest of what the operation leaves is R27's and R24's (`BUSY`,
`SEQ`) and the model's: the port's answer (log entry 13), `OP` (14), the dead working state (15). The cells are those of
the register-echo device of R75 (D25, log entry 25). -/
def Obligations.RecvbitsAssemblesEightAnswersLowFirst : Prop :=
  (∀ s : State, s.busy = false → ∃ t, exec .recvbits s = .next t ∧ Ended .ok s t ∧
    t.events = s.events ++ recvTrace s.params t.regs.r ∧
    t.lines = { s.lines with dirDat := .input, outClk := false } ∧
    t.regs = { s.regs with op := 0x09, status := 0, r := t.regs.r } ∧ t.present = s.present ∧
    (∀ b rest, s.env = .free (bitsOf b ++ rest) → t.regs.r = b ∧ t.env = .free rest ∧ t.draws = s.draws) ∧
    ∀ a, t.cell a = s.cell a) ∧
  (∀ (p : Params) (b : Byte), (recvTrace p b).length = 41 ∧ (recvTrace p b).head? = some (.dir .dat .input) ∧
    ∀ i, i < 8 → (recvTrace p b)[1 + 5 * i]? = some (.read .dat (b.getLsbD i)) ∧
      ((recvTrace p b).drop (2 + 5 * i)).take 4 =
        [.write .clk true, .delay p.tPulse, .write .clk false, .delay p.tPulse]) ∧
  bitsOf 0xFF = List.replicate 8 true ∧ bitsOf 0x00 = List.replicate 8 false ∧
  bitsOf 0x42 = [false, true, false, false, false, false, true, false]

/-- R146: `readbyte` from every idle state, whatever `PRESENT` is and whatever the address is; on the device of the
rule's example it returns the addressed cell (R75, the spec's D25, log entry 25). The listed answers are log entry 8.
The rest of what the operation leaves is R27's and R24's (`BUSY`, `SEQ`) and the model's: the port's answer (log entry
13), `OP` (14), the dead working state (15). -/
def Obligations.ReadbyteIsOneReadTransaction : Prop :=
  (∀ s : State, s.busy = false → ∃ t, exec .readbyte s = .next t ∧ Ended .ok s t ∧
    t.events = s.events ++ readTrace s.params (encodeCommand s.regs.a .read) t.regs.r ∧
    t.lines = { s.lines with outRst := false, outClk := false, dirDat := .input, outDat := true } ∧
    t.regs = { s.regs with op := 0x0A, status := 0, r := t.regs.r } ∧ t.present = s.present ∧
    (∀ b rest, s.env = .free (bitsOf b ++ rest) → t.regs.r = b ∧ t.env = .free rest ∧ t.draws = s.draws) ∧
    (∀ dev, s.env = .echo dev → t.regs.r = s.cell (s.regs.a.toNat % 64)) ∧
    ∀ a, t.cell a = s.cell a) ∧
  (∀ (p : Params) (c b : Byte), (readTrace p c b).length = 88 ∧
    (readTrace p c b).take 5 =
      [.write .rst false, .write .clk false, .dir .dat .input, .write .rst true, .delay p.tSettle] ∧
    (readTrace p c b).getLast? = some (.write .rst false) ∧
    (readTrace p c b).countP (· == .write .clk true) = 16 ∧
    (readTrace p c b).countP (fun e => e == .write .dat true || e == .write .dat false) = 8 ∧
    (readTrace p c b).countP (fun e => e == .read .dat true || e == .read .dat false) = 8 ∧
    (readTrace p c b).filter TraceEntry.isDir = [.dir .dat .input, .dir .dat .output, .dir .dat .input] ∧
    (readTrace p c b).filter TraceEntry.isChipSelect = [.write .rst false, .write .rst true, .write .rst false]) ∧
  encodeCommand 0x20 .read = 0xC1 ∧ bitsOf 0xC1 = [true, false, false, false, false, false, true, true]

/-- R147: `writebyte` from every idle state; the data line is left driven at bit 7 of the value; on the device of the
rule's example the addressed cell becomes the value, and no other changes (R75, the spec's D25, log entry 25). The rest
of what the operation leaves is R27's and R24's (`BUSY`, `SEQ`) and the model's: the port's answer (log entry 13), `OP`
(14), the dead working state (15). -/
def Obligations.WritebyteIsOneWriteTransaction : Prop :=
  (∀ s : State, s.busy = false → ∃ t, exec .writebyte s = .next t ∧ Ended .ok s t ∧
    t.events = s.events ++ writeTrace s.params (encodeCommand s.regs.a .write) s.regs.v ∧
    t.lines = { s.lines with outRst := false, outClk := false, dirDat := .output, outDat := s.regs.v.getLsbD 7 } ∧
    t.drives .dat = some (s.regs.v.getLsbD 7) ∧
    t.regs = { s.regs with op := 0x0B, status := 0 } ∧ t.present = s.present ∧ NoAnswerUsed s t ∧
    (∀ dev, s.env = .echo dev → dev.mem.wf → t.cell (s.regs.a.toNat % 64) = s.regs.v) ∧
    ∀ a, a ≠ s.regs.a.toNat % 64 → t.cell a = s.cell a) ∧
  (∀ (p : Params) (c v : Byte), (writeTrace p c v).length = 88 ∧
    (writeTrace p c v).take 5 =
      [.write .rst false, .write .clk false, .dir .dat .input, .write .rst true, .delay p.tSettle] ∧
    (writeTrace p c v).getLast? = some (.write .rst false) ∧
    (writeTrace p c v).countP (· == .write .clk true) = 16 ∧
    (writeTrace p c v).countP (fun e => e == .write .dat true || e == .write .dat false) = 16 ∧
    (writeTrace p c v).countP (fun e => e == .read .dat true || e == .read .dat false) = 0 ∧
    (writeTrace p c v).filter TraceEntry.isDir = [.dir .dat .input, .dir .dat .output, .dir .dat .output] ∧
    (writeTrace p c v).filter TraceEntry.isChipSelect = [.write .rst false, .write .rst true, .write .rst false]) ∧
  encodeCommand 0x20 .write = 0xC0 ∧ bitsOf 0xC0 = [false, false, false, false, false, false, true, true] ∧
  bitsOf 0x42 = [false, true, false, false, false, false, true, false]

/-- What the two transactions do at the test device (R75, D25, log entry 25): a read gives the addressed cell and
changes none; a write sets the addressed cell and changes no other. -/
def Obligations.TransactionsReachExactlyTheAddressedCell : Prop :=
  ∀ (s : State) (dev : EchoDevice), s.busy = false → s.env = .echo dev →
    (∃ t, exec .readbyte s = .next t ∧ t.regs.r = s.cell (s.regs.a.toNat % 64) ∧ ∀ a, t.cell a = s.cell a) ∧
    (∃ t, exec .writebyte s = .next t ∧ (∀ a, a ≠ s.regs.a.toNat % 64 → t.cell a = s.cell a) ∧
      (dev.mem.wf → t.cell (s.regs.a.toNat % 64) = s.regs.v))

/-- R58: an address operand reaches what its low six bits reach, with the same events and results, and no address is out
of range: the status is `Ok` for every operand. -/
def Obligations.AddressOperandIsMaskedToSixBits : Prop :=
  ∀ (s : State) (i : Instr), s.busy = false → i = .readbyte ∨ i = .writebyte →
    ∃ t u, exec i s = .next t ∧
      exec i { s with regs := { s.regs with a := s.regs.a &&& 0x3F#8 } } = .next u ∧
      t.regs.status = 0 ∧ u.regs.status = 0 ∧ u = { t with regs := { t.regs with a := s.regs.a &&& 0x3F#8 } } ∧
      (0x40#8 : Byte) &&& 0x3F#8 = 0x00#8 ∧ (0xFF#8 : Byte) &&& 0x3F#8 = 0x3F#8

/-- R148 on the test device of R75 (D25, log entry 25): a `readbyte` after a `writebyte` to the same operand returns the
value, for every address and value, and both end `Ok`. -/
def Obligations.ReadbyteAfterWritebyteReturnsTheValue : Prop :=
  ∀ (s : State) (dev : EchoDevice), s.busy = false → s.env = .echo dev → dev.mem.wf →
    ∃ t u, exec .writebyte s = .next t ∧ t.regs.status = 0 ∧ exec .readbyte t = .next u ∧ u.regs.status = 0 ∧
      u.regs.r = s.regs.v ∧ ∀ a, a ≠ s.regs.a.toNat % 64 → u.cell a = s.cell a

/-- R62, R148 on the loopback backend of R74 (D25, log entry 25): `recvbits` directly after `sendbits(x)` returns
exactly `x`, for every `x`, and the queue is empty again. -/
def Obligations.RecvbitsAfterSendbitsReturnsTheByteOnLoopback : Prop :=
  ∀ s : State, s.busy = false → s.env = .loopback [] →
    ∃ t u, exec .sendbits s = .next t ∧ t.env = .loopback (bitsOf s.regs.v) ∧ exec .recvbits t = .next u ∧
      u.regs.r = s.regs.v ∧ u.env = .loopback [] ∧
      u.events = s.events ++ sendTrace s.params s.regs.v ++ recvTrace s.params s.regs.v

/-- R146 against the primitives (95_test_vectors.md P5): `reset`, `start`, `sendbits` of the read command, `recvbits`,
`stop`, called one after the other, leave the lines, the environment and the result of `readbyte`; the trace lacks only
the settle delay. -/
def Obligations.ReadbyteIsItsPrimitivesPlusTheSettleDelay : Prop :=
  ∀ s : State, s.busy = false → s.regs.v = encodeCommand s.regs.a .read →
    ∃ t1 t2 t3 t4 t u, exec .reset s = .next t1 ∧ exec .start t1 = .next t2 ∧ exec .sendbits t2 = .next t3 ∧
      exec .recvbits t3 = .next t4 ∧ exec .stop t4 = .next t ∧ exec .readbyte s = .next u ∧
      t.lines = u.lines ∧ t.env = u.env ∧ t.draws = u.draws ∧ t.regs.r = u.regs.r ∧ t.regs.status = u.regs.status ∧
      ∃ c b, u.events = s.events ++ readTrace s.params c b ∧ t.events = s.events ++ (readTrace s.params c b).eraseIdx 4

/-! ## The wire level -/

/-- The read transactions of the nine registers and of any address, given by their command bytes (R92, R93, R146). That
such a transaction puts its byte in `R` and writes no `OP` is log entry 3. Constructors: `rdSeconds`, `rdMinutes`,
`rdHours`, `rdDate`, `rdMonth`, `rdDay`, `rdYear`, `rdTrickle`, `rdRam0`, `cmdRead`. That the port answers `accepted`
and that the working state is dead at the end are the model's log entries 13 and 15. That the environment gives the
listed answers first is log entry 8. The cells are those of the register-echo device of R75 (D25, log entry 25). -/
def Obligations.ReadCommandsAreReadTransactions : Prop :=
  ∀ (s : State) (i : Instr) (x : Address), s.busy = false →
    (i = .cmdRead x ∨ ∃ r : ChipReg, i = readRow r ∧ x = r.address) →
    ∃ t, exec i s = .next t ∧ Ended .ok s t ∧
      t.events = s.events ++ readTrace s.params (commandByte x .read) t.regs.r ∧
      t.lines = { s.lines with outRst := false, outClk := false, dirDat := .input, outDat := true } ∧
      t.regs = { s.regs with status := 0, r := t.regs.r } ∧ t.present = s.present ∧
      (∀ b rest, s.env = .free (bitsOf b ++ rest) → t.regs.r = b ∧ t.env = .free rest ∧ t.draws = s.draws) ∧
      (∀ dev, s.env = .echo dev → t.regs.r = s.cell x.toNat) ∧ ∀ a, t.cell a = s.cell a

/-- The write transactions of the nine registers and of any address, given by their command bytes (R92, R93, R147). That
the data byte is `V` and that no `OP` is written is log entry 3; the cells are those of the test device (R75, D25, log
entry 25). Constructors: `wrSeconds`, `wrMinutes`, `wrHours`, `wrDate`, `wrMonth`, `wrDay`, `wrYear`, `wrTrickle`,
`wrRam0`, `cmdWrite`. That the port answers `accepted` and that the working state is dead at the end are the model's log
entries 13 and 15. -/
def Obligations.WriteCommandsAreWriteTransactions : Prop :=
  ∀ (s : State) (i : Instr) (x : Address), s.busy = false →
    (i = .cmdWrite x ∨ ∃ r : ChipReg, i = writeRow r ∧ x = r.address) →
    ∃ t, exec i s = .next t ∧ Ended .ok s t ∧
      t.events = s.events ++ writeTrace s.params (commandByte x .write) s.regs.v ∧
      t.lines = { s.lines with outRst := false, outClk := false, dirDat := .output, outDat := s.regs.v.getLsbD 7 } ∧
      t.regs = { s.regs with status := 0 } ∧ t.present = s.present ∧ NoAnswerUsed s t ∧
      (∀ a, a ≠ x.toNat → t.cell a = s.cell a) ∧
      (∀ dev, s.env = .echo dev → dev.mem.wf → t.cell x.toNat = s.regs.v)

/-! ## TimeCodec -/

/-- R94: the BCD byte of every value in `0..99`, and that a byte with a nibble above 9 is no value's. -/
def Obligations.BcdByteHoldsTensAndOnes : Prop :=
  (∀ v, v ≤ 99 → encodeBcd v = BitVec.ofNat 8 (((v / 10) <<< 4) ||| (v % 10)) ∧
    (encodeBcd v).toNat / 16 = v / 10 ∧ (encodeBcd v).toNat % 16 = v % 10) ∧
  encodeBcd 23 = 0x23 ∧ (∀ p : Params, decodeBcd p 0x23 = 23) ∧
  ∀ b : Byte, (9 < b.toNat / 16 ∨ 9 < b.toNat % 16) → ∀ v, v ≤ 99 → encodeBcd v ≠ b

/-- R163: the round trip of the codec, and the bytes on which the other direction holds. -/
def Obligations.BcdRoundTrip : Prop :=
  (∀ (p : Params) (v : Nat), v ≤ 255 → decodeBcd p (encodeBcd (v % 100)) = v % 100) ∧
  ∀ (p : Params) (b : Byte),
    encodeBcd (decodeBcd p b) = b ∧ decodeBcd p b ≤ 99 ↔ b.toNat / 16 ≤ 9 ∧ b.toNat % 16 ≤ 9

/-- R165: the century rule, at both of its points. -/
def Obligations.CenturyPivotsAtSeventy : Prop :=
  (∀ y, y < 70 → centuryOffset y = y + 100 ∧ centuryYear y = 2000 + y) ∧
  (∀ y, 70 ≤ y → centuryOffset y = y ∧ centuryYear y = 1900 + y) ∧
  (∀ y, centuryYear y = 1900 + centuryOffset y) ∧
  centuryYear 23 = 2023 ∧ centuryYear 99 = 1999 ∧ centuryYear 69 = 2069 ∧ centuryYear 70 = 1970 ∧
  centuryYear 0 = 2000 ∧ centuryYear (decodeBcd Params.default 0xA5) = 2005

/-- R169 with the gate open: seven reads, then either the record with `Ok` or `InvalidTime` with `T_*` as they were;
with the predicate of R167 (D14) and the lengths of the months of R168 (G2, log entry 24) written out. For bytes with a
nibble above 9 it rests on the parameter `DECODE_NONDECIMAL` (log entries 11 and 30). Beside the rule, that the port
answers `accepted`, that `OP` keeps the code and that the working state is dead at the end are the model's log entries
13, 14 and 15. The record of R28 is log entry 16. That the environment gives the listed answers first is log entry 8.
The cells are those of the register-echo device of R75 (D25, log entry 25). -/
def Obligations.ReadTimeReadsSevenRegistersThenChecks : Prop :=
  (∀ s : State, s.busy = false → s.present = .ok → ∃ t b, exec .readTime s = .next t ∧
    t.events = s.events ++ readTimeTrace s.params b ∧
    t.lines = { s.lines with outRst := false, outClk := false, dirDat := .input, outDat := true } ∧
    t.present = .ok ∧
    (BytesAreATime s.params b → Ended .ok s t ∧
      t.regs = { s.regs with op := 0x10, status := 0, time := recordOf s.params b }) ∧
    (¬ BytesAreATime s.params b → Ended .invalidTime s t ∧ t.regs = { s.regs with op := 0x10, status := 1 }) ∧
    (∀ c rest, s.env = .free (rawBits c ++ rest) → b = c ∧ t.env = .free rest ∧ t.draws = s.draws) ∧
    (∀ dev, s.env = .echo dev →
      b = { sec := s.cell 0, min := s.cell 1, hour := s.cell 2, day := s.cell 5, date := s.cell 3, mon := s.cell 4,
            year := s.cell 6 }) ∧
    ∀ a, t.cell a = s.cell a) ∧
  (∀ (sec min hour mday : Nat) (mon : Int) (year : Nat), validTime sec min hour mday mon year = true ↔
    sec ≤ 59 ∧ min ≤ 59 ∧ hour ≤ 23 ∧ 0 ≤ mon ∧ mon ≤ 11 ∧ 1 ≤ mday ∧ mday ≤ daysInMonth mon.toNat year) ∧
  ∀ y : Nat, (List.range 12).map (daysInMonth · y) =
    [31, if y % 4 = 0 ∧ (y % 100 ≠ 0 ∨ y % 400 = 0) then 29 else 28, 31, 30, 31, 30, 31, 31, 30, 31, 30, 31]

/-- R170 with the gate open and the fields encodable: eleven transactions and `Ok` (D9, D10, D13); and what they leave
in the test device of R75 (D25, log entry 25). Beside the rule, that the port answers `accepted`, that `OP` keeps the
code and that the working state is dead at the end are the model's log entries 13, 14 and 15. That the environment gives
the listed answers first is log entry 8. -/
def Obligations.SetTimeHaltsWritesSevenFieldsAndResumes : Prop :=
  ∀ s : State, s.busy = false → s.present = .ok → FieldsAreEncodable s.regs.time →
    ∃ t s0 s1, exec .setTime s = .next t ∧ Ended .ok s t ∧
      t.events = s.events ++ setTimeTrace s.params s.regs.time s0 s1 ∧
      t.lines = { s.lines with
        outRst := false, outClk := false, dirDat := .output, outDat := (s1 &&& 0x7F#8).getLsbD 7 } ∧
      t.regs = { s.regs with op := 0x11, status := 0 } ∧ t.present = .ok ∧
      (∀ x y rest, s.env = .free (bitsOf x ++ bitsOf y ++ rest) →
        s0 = x ∧ s1 = y ∧ t.env = .free rest ∧ t.draws = s.draws) ∧
      (∀ dev, s.env = .echo dev → dev.mem.wf → s0 = s.cell 0 ∧ s1 = encodeBcd s.regs.time.sec.toNat ∧
        t.cell 0 = s1 &&& 0x7F#8 ∧ t.cell 1 = encodeBcd s.regs.time.min.toNat ∧
        t.cell 2 = encodeBcd s.regs.time.hour.toNat ∧ t.cell 3 = encodeBcd s.regs.time.mday.toNat ∧
        t.cell 4 = encodeBcd (s.regs.time.mon.toNat + 1) ∧ t.cell 5 = encodeBcd s.regs.time.wday.toNat ∧
        t.cell 6 = encodeBcd (s.regs.time.year.toNat % 100)) ∧
      ∀ a, 6 < a → t.cell a = s.cell a

/-- R170, R218 (D13): with the gate open, a value above 99 ends `set_time` before any line event, with every host
register but `STATUS` as before (R222). That the port answers `accepted` and that the working state is dead at the end
are the model's log entries 13 and 15. The record of R28 is log entry 16. -/
def Obligations.SetTimeRejectsWhatBcdCannotHold : Prop :=
  ∀ s : State, s.busy = false → s.present = .ok → ¬ FieldsAreEncodable s.regs.time →
    ∃ t, exec .setTime s = .next t ∧ Ended .invalidArgument s t ∧ Untouched s t ∧
      t.regs = { s.regs with status := 4 } ∧ t.present = .ok

/-- R172, R166: on the test device of R75 (D25, log entry 25), a valid record of the window that is set is read back
exactly. -/
def Obligations.ReadTimeAfterSetTimeReturnsTheRecord : Prop :=
  ∀ (s : State) (dev : EchoDevice), s.busy = false → s.present = .ok → s.env = .echo dev → dev.mem.wf →
    validTime s.regs.time.sec.toNat s.regs.time.min.toNat s.regs.time.hour.toNat s.regs.time.mday.toNat
      s.regs.time.mon.toNat s.regs.time.year.toNat = true →
    s.regs.time.wday.toNat ≤ 99 → 1970 ≤ s.regs.time.year.toNat → s.regs.time.year.toNat ≤ 2069 →
    ∃ t u, exec .setTime s = .next t ∧ t.regs.status = 0 ∧ exec .readTime t = .next u ∧ u.regs.status = 0 ∧
      u.regs.time = s.regs.time

/-- R171 on the test device of R75 (D25, log entry 25), for a `set_time` the host starts and does not wait for.
Transaction 2, the halt write, ends at `n1`; the sixteenth pulse of transaction 3, the seconds field write, comes at
`m`, and that transaction ends at `n2`; the operation ends at `n3`. The top bit of the seconds cell is set from `n1`
until `m`; from `m` on, and so from `n2` on, it is clear at every moment when `T_SEC <= 79`; and it is clear from `n3`
on in every case. `m` is the moment at which the first 84 entries of transaction 3 have been issued, the last of them
its sixteenth rising edge. That the block's steps can be watched one at a time is log entry 1. -/
def Obligations.HaltBitIsSetThenClearDuringSetTime : Prop :=
  ∀ (s : State) (dev : EchoDevice), s.busy = false → s.present = .ok → s.env = .echo dev → dev.mem.wf →
    FieldsAreEncodable s.regs.time →
    ∃ n1 m n2 n3, n1 < m ∧ m ≤ n2 ∧ n2 < n3 ∧
      (ticks n1 (postOp 0x11 s)).events = s.events ++ readTrace s.params 0x81 (s.cell 0) ++
        writeTrace s.params 0x80 (s.cell 0 ||| 0x80#8) ∧
      (ticks n2 (postOp 0x11 s)).events =
        (ticks n1 (postOp 0x11 s)).events ++ writeTrace s.params 0x80 (encodeBcd s.regs.time.sec.toNat) ∧
      (ticks m (postOp 0x11 s)).events = (ticks n1 (postOp 0x11 s)).events ++
        (writeTrace s.params 0x80 (encodeBcd s.regs.time.sec.toNat)).take 84 ∧
      (∀ k, k < n3 → (ticks k (postOp 0x11 s)).busy = true) ∧
      (∀ k, n3 ≤ k → (ticks k (postOp 0x11 s)).busy = false) ∧
      (∀ k, n1 ≤ k → k < m → ((ticks k (postOp 0x11 s)).cell 0).getLsbD 7 = true) ∧
      (s.regs.time.sec.toNat ≤ 79 → ∀ k, m ≤ k → ((ticks k (postOp 0x11 s)).cell 0).getLsbD 7 = false) ∧
      (∀ k, n3 ≤ k → ((ticks k (postOp 0x11 s)).cell 0).getLsbD 7 = false)

/-! ## Trickle charge, self-test, the gate -/

/-- R193 (D18): the strength encoding, and that its bits 7 and 5 are always set. -/
def Obligations.StrengthEncodingIsTheFormula : Prop :=
  (∀ s : Byte, (encodeStrength s).toNat = (0xA0 ||| (s.toNat * 0x0F)) % 256 ∧
    (encodeStrength s).getLsbD 7 = true ∧ (encodeStrength s).getLsbD 5 = true) ∧
  [0, 1, 2, 3, 4, 5, 6, 7, 8, 9, 10, 15, 16, 17, 18, 255].map encodeStrength =
    [0xA0, 0xAF, 0xBE, 0xAD, 0xBC, 0xEB, 0xFA, 0xE9, 0xF8, 0xA7, 0xB6, 0xE1, 0xF0, 0xFF, 0xAE, 0xF1]

/-- R191 with the gate open (the gate is D16): one read transaction of `0x08`, its byte in `R`. Beside the rule, that
the port answers `accepted`, that `OP` keeps the code and that the working state is dead at the end are the model's log
entries 13, 14 and 15. That the environment gives the listed answers first is log entry 8. The cells are those of the
register-echo device of R75 (D25, log entry 25). -/
def Obligations.TcGetReadsTheTrickleRegister : Prop :=
  ∀ s : State, s.busy = false → s.present = .ok → ∃ t, exec .tcGet s = .next t ∧ Ended .ok s t ∧
    t.events = s.events ++ readTrace s.params 0x91 t.regs.r ∧
    t.lines = { s.lines with outRst := false, outClk := false, dirDat := .input, outDat := true } ∧
    t.regs = { s.regs with op := 0x18, status := 0, r := t.regs.r } ∧ t.present = .ok ∧
    (∀ b rest, s.env = .free (bitsOf b ++ rest) → t.regs.r = b ∧ t.env = .free rest ∧ t.draws = s.draws) ∧
    (∀ dev, s.env = .echo dev → t.regs.r = s.cell 0x08) ∧ ∀ a, t.cell a = s.cell a

/-- R192, R194, R195 with the gate open (D16) and, for `ctrl`, the recognised code (D19): one write transaction of
`0x08`, with the byte verbatim or the encoded strength. Beside the rule, that the port answers `accepted`, that `OP`
keeps the code and that the working state is dead at the end are the model's log entries 13, 14 and 15. The cells are
those of the register-echo device of R75 (D25, log entry 25). -/
def Obligations.TrickleWritesAreOneWriteTransaction : Prop :=
  ∀ (s : State) (i : Instr) (code data : Byte), s.busy = false → s.present = .ok →
    (i = .tcSet ∧ code = 0x19 ∧ data = s.regs.v ∨
      i = .tcStrength ∧ code = 0x1A ∧ data = encodeStrength s.regs.cArg ∨
      i = .ctrl ∧ code = 0x1B ∧ data = encodeStrength s.regs.cArg ∧ s.regs.cCode = Config.ctrlTcStrength) →
    ∃ t, exec i s = .next t ∧ Ended .ok s t ∧ t.events = s.events ++ writeTrace s.params 0x90 data ∧
      t.lines = { s.lines with outRst := false, outClk := false, dirDat := .output, outDat := data.getLsbD 7 } ∧
      t.regs = { s.regs with op := code, status := 0 } ∧ t.present = .ok ∧ NoAnswerUsed s t ∧
      (∀ a, a ≠ 0x08 → t.cell a = s.cell a) ∧ (∀ dev, s.env = .echo dev → dev.mem.wf → t.cell 0x08 = data)

/-- R195, R216: with the gate open, a request code that is not recognised is reported, and the lines, the trace, the
environment and every host register but `STATUS` are as they were (R222). That the port answers `accepted` and that the
working state is dead at the end are the model's log entries 13 and 15. The record of R28 is log entry 16. -/
def Obligations.UnrecognisedRequestIsReportedAndHarmless : Prop :=
  ∀ s : State, s.busy = false → s.present = .ok → s.regs.cCode ≠ Config.ctrlTcStrength →
    ∃ t, exec .ctrl s = .next t ∧ Ended .unsupportedControlRequest s t ∧ Untouched s t ∧
      t.regs = { s.regs with status := 3 } ∧ t.present = .ok

/-- R201, R221, R222 (D16, D4): with the gate shut the six services end with `DeviceNotPresent` before any other check,
with the lines, the trace, the environment and every host register but `STATUS` as they were. That the port answers
`accepted` and that the working state is dead at the end are the model's log entries 13 and 15. The record of R28 is log
entry 16. -/
def Obligations.ShutGateRefusesTheSixServices : Prop :=
  ∀ (s : State) (i : Instr), s.busy = false → s.present ≠ .ok →
    i ∈ ([.readTime, .setTime, .tcGet, .tcSet, .tcStrength, .ctrl] : List Instr) →
    ∃ t, exec i s = .next t ∧ Ended .deviceNotPresent s t ∧ Untouched s t ∧
      t.regs = { s.regs with status := 2 } ∧ t.present = s.present

/-- R199 (the leading `reset` is D17): the self-test, whatever `PRESENT` was. The cells are those of the test device of
R75 (D25, log entry 25). Beside the rule, that the port answers `accepted`, that `OP` keeps the code and that the
working state is dead at the end are the model's log entries 13, 14 and 15. The record of R28 is log entry 16. That the
environment gives the listed answers first is log entry 8. -/
def Obligations.SelftestWritesTheSentinelAndCompares : Prop :=
  ∀ s : State, s.busy = false → ∃ t b, exec .selftest s = .next t ∧
    t.events = s.events ++ [.write .rst false, .write .clk false, .dir .dat .input] ++ writeTrace s.params 0xC0 0x42 ++
      readTrace s.params 0xC1 b ∧
    t.lines = { s.lines with outRst := false, outClk := false, dirDat := .input, outDat := true } ∧
    (b = 0x42 → Ended .ok s t ∧ t.present = .ok ∧ t.regs = { s.regs with op := 0x1F, status := 0 }) ∧
    (b ≠ 0x42 → Ended .deviceNotPresent s t ∧ t.present = .absent ∧ t.regs = { s.regs with op := 0x1F, status := 2 }) ∧
    (∀ x rest, s.env = .free (bitsOf x ++ rest) → b = x ∧ t.env = .free rest ∧ t.draws = s.draws) ∧
    (∀ dev, s.env = .echo dev → dev.mem.wf → b = 0x42 ∧ t.cell 0x20 = 0x42) ∧
    ∀ a, a ≠ 0x20 → t.cell a = s.cell a

/-- R198 (D20): every byte's hexadecimal text is read back, with or without the prefix and white space. -/
def Obligations.ParseReadsBackTheHexText : Prop :=
  ∀ b : Byte, parseHexOrZero (hexText b) = b ∧ parseHexOrZero ([0x30, 0x78] ++ hexText b) = b ∧
    parseHexOrZero ([0x20, 0x09, 0x30, 0x58] ++ hexText b ++ [0x0D, 0x0A]) = b

/-- R197, R198, R217: a text in which, stripped, some character is no hexadecimal digit, or in which nothing is left, is
taken as 0, and `tc_store` of it on an idle block with the gate open writes `0x00` and reports no error. With the gate
shut (R201, R222) `tc_store` of any text leaves `V` the parsed value, which it stored before its `tc_set` was refused.
Beside the rules, that the port answers `accepted`, that `OP` keeps the code where `tc_set` ran and that the working state
is dead at the end are the model's log entries 13, 14 and 15. The record of R28 is log entry 16. -/
def Obligations.MalformedTextWritesZero : Prop :=
  (∀ text : List Byte,
    (stripHexMark (stripBlanks text) = [] ∨ ∃ ch ∈ stripHexMark (stripBlanks text), hexValue? ch = none) →
    parseHexOrZero text = 0) ∧
  ∀ (s : State) (text : List Byte) (rest : List HostAction), s.busy = false → s.inputs = .tcStore text :: rest →
    ∃ t, step s = .next t ∧ t.inputs = rest ∧
      (s.present = .ok → t.events = s.events ++ writeTrace s.params 0x90 (parseHexOrZero text) ∧
        t.regs = { s.regs with op := 0x19, v := parseHexOrZero text, status := 0 }) ∧
      (s.present ≠ .ok → Ended .deviceNotPresent { s with inputs := rest } t ∧ Untouched s t ∧ t.present = s.present ∧
        t.regs = { s.regs with v := parseHexOrZero text, status := 2 })

/-- R196 (D20, G1): `tc_show` gives the fixed text and the byte read, or no text when it does not end `Ok`, and then
with every host register but `STATUS` as before (R201, R222). That no text is given then is log entry 26. -/
def Obligations.TcShowGivesTheTextOfTheByteRead : Prop :=
  ∀ (s : State) (rest : List HostAction), s.busy = false → s.inputs = .tcShow :: rest →
    ∃ t, step s = .next t ∧ t.inputs = rest ∧
      (s.present = .ok → t.text = some (tcShowHead ++ hexText t.regs.r) ∧ t.regs.status = 0 ∧
        t.events = s.events ++ readTrace s.params 0x91 t.regs.r) ∧
      (s.present ≠ .ok → t.text = none ∧ t.regs = { s.regs with status := 2 } ∧ t.events = s.events)

/-! ## The host port and the step -/

/-- A step runs the decoded instruction: a program line or a command byte that decodes to `i` makes the step `exec i` at
that state with the action taken off the queue; a write of `OP` the host does not wait for starts the steps of `i`; and
when the host does nothing, with an empty queue or by a `wait`, the block makes one move of its own (log entries 1
and 2). -/
def Obligations.StepRunsTheDecodedInstruction : Prop :=
  (∀ (s : State) (b : Byte) (i : Instr) (rest : List HostAction),
    (s.inputs = .call b :: rest → decode .host b = .ok i → step s = exec i { s with inputs := rest }) ∧
    (s.inputs = .frame b :: rest → decode .wire b = .ok i → step s = exec i { s with inputs := rest }) ∧
    (s.inputs = .post b :: rest → decode .host b = .ok i →
      step s = .next (post (startCode i) (program i s) { s with inputs := rest }))) ∧
  ∀ (s : State) (rest : List HostAction),
    (s.inputs = [] → step s = .next (tick s)) ∧
    (s.inputs = .wait :: rest → step s = .next (tick { s with inputs := rest }))

/-- A table word that decodes runs as the very next step, and leaves the host's queue as it was. -/
def Obligations.PlacedWordRunsAtTheNextStep : Prop :=
  ∀ (s : State) (w : Nat) (i : Instr), decodeTableWord 8 w = some i → step (s.withFetchWord 8 w) = exec i s

/-- A byte with bit 7 clear is no command byte (R93, R101): as a transaction it is refused by name, and only such. -/
def Obligations.OnlyACommandByteOpensATransaction : Prop :=
  ∀ (s : State) (b : Byte) (rest : List HostAction), s.inputs = .frame b :: rest →
    (b.getLsbD 7 = false → step s = .refused (.notACommandByte b)) ∧
    (b.getLsbD 7 = true → ∃ t, step s = .next t)

/-- R219 (D22): while an operation runs, a write of `OP` with any code or of any operand register is dropped, and so is
every instruction, every transaction and both wrapper functions; the port answers `busy` and nothing else changes, but
for a `tc_show`, which gives no text (log entry 26). -/
def Obligations.BusyDropsEveryWrite : Prop :=
  ∀ s : State, s.busy = true →
    (∀ i, exec i s = .next { s with answer := .busy }) ∧
    (∀ code rest, s.inputs = .call code :: rest ∨ s.inputs = .post code :: rest →
      step s = .next { s with inputs := rest, answer := .busy }) ∧
    (∀ w rest, s.inputs = .write w :: rest → step s = .next { s with inputs := rest, answer := .busy }) ∧
    (∀ b i rest, s.inputs = .frame b :: rest → decode .wire b = .ok i →
      step s = .next { s with inputs := rest, answer := .busy }) ∧
    (∀ rest, s.inputs = .tcShow :: rest → step s = .next { s with inputs := rest, answer := .busy, text := none }) ∧
    (∀ text rest, s.inputs = .tcStore text :: rest → step s = .next { s with inputs := rest, answer := .busy })

/-- R26, R27 (D2): an operand register written while the block is idle holds the value written, and the write changes
nothing but that register and the port's answer (log entry 13): `A`, `V`, the seven `T_*`, `C_CODE` and `C_ARG`. -/
def Obligations.IdleOperandWriteSetsThatRegisterOnly : Prop :=
  ∀ (s : State) (x : Byte) (y : Half) (rest : List HostAction), s.busy = false →
    (s.inputs = .write (.a x) :: rest → step s =
      .next { s with inputs := rest, answer := .accepted, regs := { s.regs with a := x } }) ∧
    (s.inputs = .write (.v x) :: rest → step s =
      .next { s with inputs := rest, answer := .accepted, regs := { s.regs with v := x } }) ∧
    (s.inputs = .write (.tSec x) :: rest → step s =
      .next { s with
        inputs := rest, answer := .accepted, regs := { s.regs with time := { s.regs.time with sec := x } } }) ∧
    (s.inputs = .write (.tMin x) :: rest → step s =
      .next { s with
        inputs := rest, answer := .accepted, regs := { s.regs with time := { s.regs.time with min := x } } }) ∧
    (s.inputs = .write (.tHour x) :: rest → step s =
      .next { s with
        inputs := rest, answer := .accepted, regs := { s.regs with time := { s.regs.time with hour := x } } }) ∧
    (s.inputs = .write (.tWday x) :: rest → step s =
      .next { s with
        inputs := rest, answer := .accepted, regs := { s.regs with time := { s.regs.time with wday := x } } }) ∧
    (s.inputs = .write (.tMday x) :: rest → step s =
      .next { s with
        inputs := rest, answer := .accepted, regs := { s.regs with time := { s.regs.time with mday := x } } }) ∧
    (s.inputs = .write (.tMon x) :: rest → step s =
      .next { s with
        inputs := rest, answer := .accepted, regs := { s.regs with time := { s.regs.time with mon := x } } }) ∧
    (s.inputs = .write (.tYear y) :: rest → step s =
      .next { s with
        inputs := rest, answer := .accepted, regs := { s.regs with time := { s.regs.time with year := y } } }) ∧
    (s.inputs = .write (.cCode y) :: rest → step s =
      .next { s with inputs := rest, answer := .accepted, regs := { s.regs with cCode := y } }) ∧
    (s.inputs = .write (.cArg x) :: rest → step s =
      .next { s with inputs := rest, answer := .accepted, regs := { s.regs with cArg := x } })

/-- R27, R220 (D2): a read of the port, at any time, changes nothing but the port's answer (log entry 13), which is the
register, zero-extended: each of the thirteen readable registers of R26, and `BUSY`. -/
def Obligations.PortReadShowsTheRegisterAndChangesNothing : Prop :=
  ∀ (s : State) (p : PortReg) (rest : List HostAction), s.inputs = .read p :: rest →
    step s = .next { s with inputs := rest, answer := .data (p.value s) } ∧
    p.value s = match p with
      | .a => s.regs.a.setWidth 16
      | .v => s.regs.v.setWidth 16
      | .r => s.regs.r.setWidth 16
      | .status => s.regs.status.setWidth 16
      | .tSec => s.regs.time.sec.setWidth 16
      | .tMin => s.regs.time.min.setWidth 16
      | .tHour => s.regs.time.hour.setWidth 16
      | .tWday => s.regs.time.wday.setWidth 16
      | .tMday => s.regs.time.mday.setWidth 16
      | .tMon => s.regs.time.mon.setWidth 16
      | .tYear => s.regs.time.year
      | .cCode => s.regs.cCode
      | .cArg => s.regs.cArg.setWidth 16
      | .busy => if s.busy then 1 else 0

/-- R240, R32 (D24): hardware reset at any moment, an operation running or not. What the host registers hold afterwards
is a free value (log entry 7). -/
def Obligations.HardwareResetIdlesTheBlockAndNotTheBus : Prop :=
  ∀ (s : State) (rest : List HostAction), s.inputs = .hardReset :: rest →
    ∃ t, step s = .next t ∧ t.busy = false ∧ t.seq = [] ∧ t.present = .unknown ∧ t.regs.status = 0 ∧
      t.lines = { s.lines with dirRst := .output, dirClk := .output, dirDat := .input } ∧
      t.events = s.events ∧ t.env = s.env ∧ t.inputs = rest ∧ t.params = s.params

/-- R32 (D24): the values after power-on that the spec gives. -/
def Obligations.PowerOnStateIsTheSpecs : Prop :=
  State.reset.lines.dirRst = .output ∧ State.reset.lines.dirClk = .output ∧ State.reset.lines.dirDat = .input ∧
    State.reset.busy = false ∧ State.reset.present = .unknown ∧ State.reset.seq = [] ∧
    State.reset.regs.status = Status.ok.code

/-! ## The whole machine -/

/-- The invariant holds at power-on. -/
def Obligations.InvariantHoldsAtReset : Prop := Inv State.reset

/-- Every step keeps the invariant: the directions of `RST` and `CLK`, `SEQ` idle exactly with `BUSY`, a status of R212,
the record of R28, the canonical cells. -/
def Obligations.EveryStepKeepsTheInvariant : Prop :=
  ∀ s t : State, Inv s → step s = .next t → Inv t

/-- R24, R27, R69: an operation the host starts and does not wait for reaches, after some number of the block's own
steps, exactly the state the call of that operation gives, and `BUSY` is up in every state before. For the rows of the
wire level, which the spec's port cannot start, this rests on the model's log entry 3. -/
def Obligations.StartedOperationEndsAsTheCallDoes : Prop :=
  ∀ (i : Instr) (s : State), s.busy = false →
    ∃ n, exec i s = .next (ticks n (post (startCode i) (program i s) s)) ∧
      ∀ k, k < n → (ticks k (post (startCode i) (program i s) s)).busy = true

/-- R249, R141: no operation hangs. From every state of a run, the block's own steps end the running operation within
two steps more than its sequence has left. -/
def Obligations.NoOperationHangs : Prop :=
  ∀ s : State, Inv s → ∃ n, n ≤ s.seq.length + 2 ∧ (ticks n s).busy = false

/-- R25: nothing but the self-test and hardware reset writes `PRESENT`. -/
def Obligations.OnlySelftestAndResetWritePresent : Prop :=
  (∀ (i : Instr) (s t : State), i ≠ .selftest → exec i s = .next t → t.present = s.present) ∧
  ∀ s t : State, step s = .next t → t.present ≠ s.present →
    (∃ rest, s.inputs = .call 0x1F :: rest) ∨ (∃ rest, s.inputs = .hardReset :: rest) ∨
      ∃ rest, s.seq = .compareSentinel :: rest

/-- R21, R52, R54: no operation issues a direction event for `RST` or `CLK`, reads either, or changes their direction,
and every trace only grows. -/
def Obligations.OnlyTheDataLineTurnsOrIsRead : Prop :=
  ∀ (i : Instr) (s t : State), exec i s = .next t →
    t.lines.dirRst = s.lines.dirRst ∧ t.lines.dirClk = s.lines.dirClk ∧
      ∃ tr, t.events = s.events ++ tr ∧ ∀ e ∈ tr, (∀ l d, e = .dir l d → l = .dat) ∧ ∀ l b, e = .read l b → l = .dat

/-- R26: only the operations that return a byte or a bit write `R`, only `read_time` writes `T_*`, and no operation
writes `A`, `V`, `C_CODE` or `C_ARG`. -/
def Obligations.OperationsWriteOnlyTheirResultRegisters : Prop :=
  ∀ (i : Instr) (s t : State), exec i s = .next t →
    t.regs.a = s.regs.a ∧ t.regs.v = s.regs.v ∧ t.regs.cCode = s.regs.cCode ∧ t.regs.cArg = s.regs.cArg ∧
    (i ≠ .readTime → t.regs.time = s.regs.time) ∧
    (i ∉ ([.rxbit, .recvbits, .readbyte, .tcGet] : List Instr) → (∀ a, i ≠ .cmdRead a) → (∀ r, i ≠ readRow r) →
      t.regs.r = s.regs.r)

/-- R211: an operation that opens transactions leaves none open: at its end chip-select is deasserted or was never
touched. All operations but the primitives `reset`, `start`, `stop`, `clock`, `txbit`, `rxbit`, `sendbits`, `recvbits`.
-/
def Obligations.NoTransactionIsLeftOpen : Prop :=
  ∀ (i : Instr) (s t : State),
    i ∉ ([.reset, .start, .stop, .clock, .txbit, .rxbit, .sendbits, .recvbits] : List Instr) → exec i s = .next t →
    t.lines.outRst = false ∨ (t.lines = s.lines ∧ t.events = s.events)

/-- R72: the environment decides the values of the reads and nothing else of a trace: two states that differ only in the
environment give traces of the same length, and, but for `set_time` (whose halt and resume writes carry what was read),
the same entries up to the values of the reads. -/
def Obligations.EnvironmentDecidesOnlyTheAnswers : Prop :=
  ∀ (i : Instr) (s t t' : State) (e : Env) (d : Nat), exec i s = .next t →
    exec i { s with env := e, draws := d } = .next t' →
    ∃ tr tr', t.events = s.events ++ tr ∧ t'.events = s.events ++ tr' ∧ tr.length = tr'.length ∧
      (i ≠ .setTime → tr.map TraceEntry.shape = tr'.map TraceEntry.shape)

/-- R260: the delays of every operation that runs its whole trace add up to the table's figure, in the parameters; and
with the values of R6 the figure is the number in the table's last column. That the two literals are parameters is
U12's, and that `State` carries them the model's log entry 30. -/
def Obligations.DelaysAddUpToTheLeastDuration : Prop :=
  (∀ (i : Instr) (s t : State), s.busy = false → s.present = .ok → FieldsAreEncodable s.regs.time →
    s.regs.cCode = Config.ctrlTcStrength → exec i s = .next t →
    ∃ tr, t.events = s.events ++ tr ∧ leastDuration tr = leastDurationOf s.params i) ∧
  ∀ i : Instr, leastDurationOf { tPulse := 1, tSettle := 4, nonDecimal := [] } i = leastDurationFigure i

/-! ## The parameters -/

/-- R6, R30: at power-on the two timing literals and `DECODE_NONDECIMAL` have the values R6 gives, and no step of any
machine writes a parameter, whatever its values. That `State` carries them is the model's log entry 30. -/
def Obligations.NoStepWritesTheParameters : Prop :=
  State.reset.params = { tPulse := 1, tSettle := 4, nonDecimal := [] } ∧
  ∀ s t : State, step s = .next t → t.params = s.params

/-- R162 (D12): with `DECODE_NONDECIMAL` at its default every byte decodes by the formula, to at most 165; and whatever
the parameter is, a byte whose two nibbles are at most 9 does (log entries 11 and 30). -/
def Obligations.DecodeBcdIsTheFormula : Prop :=
  (∀ (p : Params) (b : Byte), p.nonDecimal = [] →
    decodeBcd p b = b.toNat / 16 * 10 + b.toNat % 16 ∧ decodeBcd p b ≤ 165) ∧
  (∀ (p : Params) (b : Byte), b.toNat / 16 ≤ 9 → b.toNat % 16 ≤ 9 → decodeBcd p b = b.toNat / 16 * 10 + b.toNat % 16) ∧
  decodeBcd Params.default 0x1A = 20 ∧ decodeBcd Params.default 0xA0 = 100 ∧ decodeBcd Params.default 0xFF = 165
end

