-- ==== Sys2Proof/Laws/State.lean ====
section
/-! SUPPORT. One lemma per field per update of the state, so that no later proof unfolds an update. -/

namespace Sys2Proof.Machine

@[simp] theorem lineDir_params (l : Line) (d : Dir) (s : State) : (s.lineDir l d).params = s.params := rfl
@[simp] theorem lineDir_lines (l : Line) (d : Dir) (s : State) : (s.lineDir l d).lines = s.lines.setDir d l := rfl
@[simp] theorem lineDir_work (l : Line) (d : Dir) (s : State) : (s.lineDir l d).work = s.work := rfl
@[simp] theorem lineDir_seq (l : Line) (d : Dir) (s : State) : (s.lineDir l d).seq = s.seq := rfl
@[simp] theorem lineDir_busy (l : Line) (d : Dir) (s : State) : (s.lineDir l d).busy = s.busy := rfl
@[simp] theorem lineDir_present (l : Line) (d : Dir) (s : State) : (s.lineDir l d).present = s.present := rfl
@[simp] theorem lineDir_regs (l : Line) (d : Dir) (s : State) : (s.lineDir l d).regs = s.regs := rfl
@[simp] theorem lineDir_answer (l : Line) (d : Dir) (s : State) : (s.lineDir l d).answer = s.answer := rfl
@[simp] theorem lineDir_text (l : Line) (d : Dir) (s : State) : (s.lineDir l d).text = s.text := rfl
@[simp] theorem lineDir_inputs (l : Line) (d : Dir) (s : State) : (s.lineDir l d).inputs = s.inputs := rfl
@[simp] theorem lineDir_trace (l : Line) (d : Dir) (s : State) : (s.lineDir l d).trace = .dir l d :: s.trace := rfl
@[simp] theorem lineDir_raised (l : Line) (d : Dir) (s : State) : (s.lineDir l d).raised = s.raised := rfl
@[simp] theorem lineDir_env (l : Line) (d : Dir) (s : State) : (s.lineDir l d).env = s.env := rfl
@[simp] theorem lineDir_draws (l : Line) (d : Dir) (s : State) : (s.lineDir l d).draws = s.draws := rfl

@[simp] theorem lineWrite_params (l : Line) (b : Bool) (s : State) : (s.lineWrite l b).params = s.params := rfl
@[simp] theorem lineWrite_lines (l : Line) (b : Bool) (s : State) : (s.lineWrite l b).lines = s.lines.setOut b l := rfl
@[simp] theorem lineWrite_work (l : Line) (b : Bool) (s : State) : (s.lineWrite l b).work = s.work := rfl
@[simp] theorem lineWrite_seq (l : Line) (b : Bool) (s : State) : (s.lineWrite l b).seq = s.seq := rfl
@[simp] theorem lineWrite_busy (l : Line) (b : Bool) (s : State) : (s.lineWrite l b).busy = s.busy := rfl
@[simp] theorem lineWrite_present (l : Line) (b : Bool) (s : State) : (s.lineWrite l b).present = s.present := rfl
@[simp] theorem lineWrite_regs (l : Line) (b : Bool) (s : State) : (s.lineWrite l b).regs = s.regs := rfl
@[simp] theorem lineWrite_answer (l : Line) (b : Bool) (s : State) : (s.lineWrite l b).answer = s.answer := rfl
@[simp] theorem lineWrite_text (l : Line) (b : Bool) (s : State) : (s.lineWrite l b).text = s.text := rfl
@[simp] theorem lineWrite_inputs (l : Line) (b : Bool) (s : State) : (s.lineWrite l b).inputs = s.inputs := rfl
@[simp] theorem lineWrite_trace (l : Line) (b : Bool) (s : State) : (s.lineWrite l b).trace = .write l b :: s.trace := rfl
@[simp] theorem lineWrite_raised (l : Line) (b : Bool) (s : State) : (s.lineWrite l b).raised = s.raised := rfl
@[simp] theorem lineWrite_env (l : Line) (b : Bool) (s : State) : (s.lineWrite l b).env = s.env.onWrite s.lines l b := rfl
@[simp] theorem lineWrite_draws (l : Line) (b : Bool) (s : State) : (s.lineWrite l b).draws = s.draws := rfl

@[simp] theorem delay_params (n : Nat) (s : State) : (s.delay n).params = s.params := rfl
@[simp] theorem delay_lines (n : Nat) (s : State) : (s.delay n).lines = s.lines := rfl
@[simp] theorem delay_work (n : Nat) (s : State) : (s.delay n).work = s.work := rfl
@[simp] theorem delay_seq (n : Nat) (s : State) : (s.delay n).seq = s.seq := rfl
@[simp] theorem delay_busy (n : Nat) (s : State) : (s.delay n).busy = s.busy := rfl
@[simp] theorem delay_present (n : Nat) (s : State) : (s.delay n).present = s.present := rfl
@[simp] theorem delay_regs (n : Nat) (s : State) : (s.delay n).regs = s.regs := rfl
@[simp] theorem delay_answer (n : Nat) (s : State) : (s.delay n).answer = s.answer := rfl
@[simp] theorem delay_text (n : Nat) (s : State) : (s.delay n).text = s.text := rfl
@[simp] theorem delay_inputs (n : Nat) (s : State) : (s.delay n).inputs = s.inputs := rfl
@[simp] theorem delay_trace (n : Nat) (s : State) : (s.delay n).trace = .delay n :: s.trace := rfl
@[simp] theorem delay_raised (n : Nat) (s : State) : (s.delay n).raised = s.raised := rfl
@[simp] theorem delay_env (n : Nat) (s : State) : (s.delay n).env = s.env := rfl
@[simp] theorem delay_draws (n : Nat) (s : State) : (s.delay n).draws = s.draws := rfl

@[simp] theorem begin_params (c : Option Byte) (s : State) : (s.begin c).params = s.params := rfl
@[simp] theorem begin_lines (c : Option Byte) (s : State) : (s.begin c).lines = s.lines := rfl
@[simp] theorem begin_work (c : Option Byte) (s : State) : (s.begin c).work = { s.work with opBefore := s.regs.op } := rfl
@[simp] theorem begin_seq (c : Option Byte) (s : State) : (s.begin c).seq = s.seq := rfl
@[simp] theorem begin_busy (c : Option Byte) (s : State) : (s.begin c).busy = true := rfl
@[simp] theorem begin_present (c : Option Byte) (s : State) : (s.begin c).present = s.present := rfl
@[simp] theorem begin_regs (c : Option Byte) (s : State) : (s.begin c).regs = { s.regs with op := c.getD s.regs.op } := rfl
@[simp] theorem begin_answer (c : Option Byte) (s : State) : (s.begin c).answer = .accepted := rfl
@[simp] theorem begin_text (c : Option Byte) (s : State) : (s.begin c).text = s.text := rfl
@[simp] theorem begin_inputs (c : Option Byte) (s : State) : (s.begin c).inputs = s.inputs := rfl
@[simp] theorem begin_trace (c : Option Byte) (s : State) : (s.begin c).trace = s.trace := rfl
@[simp] theorem begin_raised (c : Option Byte) (s : State) : (s.begin c).raised = s.raised := rfl
@[simp] theorem begin_env (c : Option Byte) (s : State) : (s.begin c).env = s.env := rfl
@[simp] theorem begin_draws (c : Option Byte) (s : State) : (s.begin c).draws = s.draws := rfl

@[simp] theorem opAsBefore_params (s : State) : s.opAsBefore.params = s.params := rfl
@[simp] theorem opAsBefore_lines (s : State) : s.opAsBefore.lines = s.lines := rfl
@[simp] theorem opAsBefore_work (s : State) : s.opAsBefore.work = s.work := rfl
@[simp] theorem opAsBefore_seq (s : State) : s.opAsBefore.seq = s.seq := rfl
@[simp] theorem opAsBefore_busy (s : State) : s.opAsBefore.busy = s.busy := rfl
@[simp] theorem opAsBefore_present (s : State) : s.opAsBefore.present = s.present := rfl
@[simp] theorem opAsBefore_answer (s : State) : s.opAsBefore.answer = s.answer := rfl
@[simp] theorem opAsBefore_text (s : State) : s.opAsBefore.text = s.text := rfl
@[simp] theorem opAsBefore_inputs (s : State) : s.opAsBefore.inputs = s.inputs := rfl
@[simp] theorem opAsBefore_trace (s : State) : s.opAsBefore.trace = s.trace := rfl
@[simp] theorem opAsBefore_raised (s : State) : s.opAsBefore.raised = s.raised := rfl
@[simp] theorem opAsBefore_env (s : State) : s.opAsBefore.env = s.env := rfl
@[simp] theorem opAsBefore_draws (s : State) : s.opAsBefore.draws = s.draws := rfl
@[simp] theorem opAsBefore_regs (s : State) : s.opAsBefore.regs = { s.regs with op := s.work.opBefore } := rfl

@[simp] theorem refuseBusy_params (s : State) : (s.refuseBusy).params = s.params := rfl
@[simp] theorem refuseBusy_lines (s : State) : (s.refuseBusy).lines = s.lines := rfl
@[simp] theorem refuseBusy_work (s : State) : (s.refuseBusy).work = s.work := rfl
@[simp] theorem refuseBusy_seq (s : State) : (s.refuseBusy).seq = s.seq := rfl
@[simp] theorem refuseBusy_busy (s : State) : (s.refuseBusy).busy = s.busy := rfl
@[simp] theorem refuseBusy_present (s : State) : (s.refuseBusy).present = s.present := rfl
@[simp] theorem refuseBusy_regs (s : State) : (s.refuseBusy).regs = s.regs := rfl
@[simp] theorem refuseBusy_answer (s : State) : (s.refuseBusy).answer = .busy := rfl
@[simp] theorem refuseBusy_text (s : State) : (s.refuseBusy).text = s.text := rfl
@[simp] theorem refuseBusy_inputs (s : State) : (s.refuseBusy).inputs = s.inputs := rfl
@[simp] theorem refuseBusy_trace (s : State) : (s.refuseBusy).trace = s.trace := rfl
@[simp] theorem refuseBusy_raised (s : State) : (s.refuseBusy).raised = s.raised := rfl
@[simp] theorem refuseBusy_env (s : State) : (s.refuseBusy).env = s.env := rfl
@[simp] theorem refuseBusy_draws (s : State) : (s.refuseBusy).draws = s.draws := rfl

@[simp] theorem setPresent_params (p : Present) (s : State) : (s.setPresent p).params = s.params := rfl
@[simp] theorem setPresent_lines (p : Present) (s : State) : (s.setPresent p).lines = s.lines := rfl
@[simp] theorem setPresent_work (p : Present) (s : State) : (s.setPresent p).work = s.work := rfl
@[simp] theorem setPresent_seq (p : Present) (s : State) : (s.setPresent p).seq = s.seq := rfl
@[simp] theorem setPresent_busy (p : Present) (s : State) : (s.setPresent p).busy = s.busy := rfl
@[simp] theorem setPresent_present (p : Present) (s : State) : (s.setPresent p).present = p := rfl
@[simp] theorem setPresent_regs (p : Present) (s : State) : (s.setPresent p).regs = s.regs := rfl
@[simp] theorem setPresent_answer (p : Present) (s : State) : (s.setPresent p).answer = s.answer := rfl
@[simp] theorem setPresent_text (p : Present) (s : State) : (s.setPresent p).text = s.text := rfl
@[simp] theorem setPresent_inputs (p : Present) (s : State) : (s.setPresent p).inputs = s.inputs := rfl
@[simp] theorem setPresent_trace (p : Present) (s : State) : (s.setPresent p).trace = s.trace := rfl
@[simp] theorem setPresent_raised (p : Present) (s : State) : (s.setPresent p).raised = s.raised := rfl
@[simp] theorem setPresent_env (p : Present) (s : State) : (s.setPresent p).env = s.env := rfl
@[simp] theorem setPresent_draws (p : Present) (s : State) : (s.setPresent p).draws = s.draws := rfl

@[simp] theorem setStatus_params (e : Status) (s : State) : (s.setStatus e).params = s.params := rfl
@[simp] theorem setStatus_lines (e : Status) (s : State) : (s.setStatus e).lines = s.lines := rfl
@[simp] theorem setStatus_work (e : Status) (s : State) : (s.setStatus e).work = s.work := rfl
@[simp] theorem setStatus_seq (e : Status) (s : State) : (s.setStatus e).seq = s.seq := rfl
@[simp] theorem setStatus_busy (e : Status) (s : State) : (s.setStatus e).busy = s.busy := rfl
@[simp] theorem setStatus_present (e : Status) (s : State) : (s.setStatus e).present = s.present := rfl
@[simp] theorem setStatus_regs (e : Status) (s : State) : (s.setStatus e).regs = { s.regs with status := e.code } := rfl
@[simp] theorem setStatus_answer (e : Status) (s : State) : (s.setStatus e).answer = s.answer := rfl
@[simp] theorem setStatus_text (e : Status) (s : State) : (s.setStatus e).text = s.text := rfl
@[simp] theorem setStatus_inputs (e : Status) (s : State) : (s.setStatus e).inputs = s.inputs := rfl
@[simp] theorem setStatus_trace (e : Status) (s : State) : (s.setStatus e).trace = s.trace := rfl
@[simp] theorem setStatus_raised (e : Status) (s : State) : (s.setStatus e).raised = if e = .ok then s.raised else e :: s.raised := rfl
@[simp] theorem setStatus_env (e : Status) (s : State) : (s.setStatus e).env = s.env := rfl
@[simp] theorem setStatus_draws (e : Status) (s : State) : (s.setStatus e).draws = s.draws := rfl

@[simp] theorem release_params (s : State) : (s.release).params = s.params := rfl
@[simp] theorem release_lines (s : State) : (s.release).lines = s.lines := rfl
@[simp] theorem release_work (s : State) : (s.release).work = Work.idle := rfl
@[simp] theorem release_seq (s : State) : (s.release).seq = [] := rfl
@[simp] theorem release_busy (s : State) : (s.release).busy = false := rfl
@[simp] theorem release_present (s : State) : (s.release).present = s.present := rfl
@[simp] theorem release_regs (s : State) : (s.release).regs = s.regs := rfl
@[simp] theorem release_answer (s : State) : (s.release).answer = s.answer := rfl
@[simp] theorem release_text (s : State) : (s.release).text = s.text := rfl
@[simp] theorem release_inputs (s : State) : (s.release).inputs = s.inputs := rfl
@[simp] theorem release_trace (s : State) : (s.release).trace = s.trace := rfl
@[simp] theorem release_raised (s : State) : (s.release).raised = s.raised := rfl
@[simp] theorem release_env (s : State) : (s.release).env = s.env := rfl
@[simp] theorem release_draws (s : State) : (s.release).draws = s.draws := rfl

@[simp] theorem raise_params (e : Status) (s : State) : (s.raise e).params = s.params := rfl
@[simp] theorem raise_lines (e : Status) (s : State) : (s.raise e).lines = s.lines := rfl
@[simp] theorem raise_work (e : Status) (s : State) : (s.raise e).work = Work.idle := rfl
@[simp] theorem raise_seq (e : Status) (s : State) : (s.raise e).seq = [] := rfl
@[simp] theorem raise_busy (e : Status) (s : State) : (s.raise e).busy = false := rfl
@[simp] theorem raise_present (e : Status) (s : State) : (s.raise e).present = s.present := rfl
@[simp] theorem raise_regs (e : Status) (s : State) : (s.raise e).regs = { s.regs with status := e.code } := rfl
@[simp] theorem raise_answer (e : Status) (s : State) : (s.raise e).answer = s.answer := rfl
@[simp] theorem raise_text (e : Status) (s : State) : (s.raise e).text = s.text := rfl
@[simp] theorem raise_inputs (e : Status) (s : State) : (s.raise e).inputs = s.inputs := rfl
@[simp] theorem raise_trace (e : Status) (s : State) : (s.raise e).trace = s.trace := rfl
@[simp] theorem raise_raised (e : Status) (s : State) : (s.raise e).raised = if e = .ok then s.raised else e :: s.raised := rfl
@[simp] theorem raise_env (e : Status) (s : State) : (s.raise e).env = s.env := rfl
@[simp] theorem raise_draws (e : Status) (s : State) : (s.raise e).draws = s.draws := rfl

@[simp] theorem hardReset_params (s : State) : (s.hardReset).params = s.params := rfl
@[simp] theorem hardReset_lines (s : State) : (s.hardReset).lines = { s.lines with dirRst := .output, dirClk := .output, dirDat := .input } := rfl
@[simp] theorem hardReset_work (s : State) : (s.hardReset).work = Work.idle := rfl
@[simp] theorem hardReset_seq (s : State) : (s.hardReset).seq = [] := rfl
@[simp] theorem hardReset_busy (s : State) : (s.hardReset).busy = false := rfl
@[simp] theorem hardReset_present (s : State) : (s.hardReset).present = .unknown := rfl
@[simp] theorem hardReset_regs (s : State) : (s.hardReset).regs = HostRegs.drawn s.draws := rfl
@[simp] theorem hardReset_answer (s : State) : (s.hardReset).answer = .none := rfl
@[simp] theorem hardReset_text (s : State) : (s.hardReset).text = s.text := rfl
@[simp] theorem hardReset_inputs (s : State) : (s.hardReset).inputs = s.inputs := rfl
@[simp] theorem hardReset_trace (s : State) : (s.hardReset).trace = s.trace := rfl
@[simp] theorem hardReset_raised (s : State) : (s.hardReset).raised = s.raised := rfl
@[simp] theorem hardReset_env (s : State) : (s.hardReset).env = s.env := rfl
@[simp] theorem hardReset_draws (s : State) : (s.hardReset).draws = s.draws + 1 := rfl

/-! A read of the data line changes the environment's supply and the trace only. -/

@[simp] theorem afterRead_params (s : State) : s.afterRead.params = s.params := by
  unfold State.afterRead; split <;> rfl
@[simp] theorem afterRead_lines (s : State) : s.afterRead.lines = s.lines := by
  unfold State.afterRead; split <;> rfl
@[simp] theorem afterRead_work (s : State) : s.afterRead.work = s.work := by
  unfold State.afterRead; split <;> rfl
@[simp] theorem afterRead_seq (s : State) : s.afterRead.seq = s.seq := by
  unfold State.afterRead; split <;> rfl
@[simp] theorem afterRead_busy (s : State) : s.afterRead.busy = s.busy := by
  unfold State.afterRead; split <;> rfl
@[simp] theorem afterRead_present (s : State) : s.afterRead.present = s.present := by
  unfold State.afterRead; split <;> rfl
@[simp] theorem afterRead_regs (s : State) : s.afterRead.regs = s.regs := by
  unfold State.afterRead; split <;> rfl
@[simp] theorem afterRead_answer (s : State) : s.afterRead.answer = s.answer := by
  unfold State.afterRead; split <;> rfl
@[simp] theorem afterRead_text (s : State) : s.afterRead.text = s.text := by
  unfold State.afterRead; split <;> rfl
@[simp] theorem afterRead_inputs (s : State) : s.afterRead.inputs = s.inputs := by
  unfold State.afterRead; split <;> rfl
@[simp] theorem afterRead_trace (s : State) : s.afterRead.trace = .read .dat s.datLevel :: s.trace := by
  unfold State.afterRead; split <;> rfl
@[simp] theorem afterRead_raised (s : State) : s.afterRead.raised = s.raised := by
  unfold State.afterRead; split <;> rfl

/-! The line port. -/

@[simp] theorem setOut_rst_dirRst (p : LinePort) (b : Bool) : (p.setOut b .rst).dirRst = p.dirRst := rfl
@[simp] theorem setDir_rst_dirRst (p : LinePort) (d : Dir) : (p.setDir d .rst).dirRst = d := rfl
@[simp] theorem setOut_rst_dirClk (p : LinePort) (b : Bool) : (p.setOut b .rst).dirClk = p.dirClk := rfl
@[simp] theorem setDir_rst_dirClk (p : LinePort) (d : Dir) : (p.setDir d .rst).dirClk = p.dirClk := rfl
@[simp] theorem setOut_rst_dirDat (p : LinePort) (b : Bool) : (p.setOut b .rst).dirDat = p.dirDat := rfl
@[simp] theorem setDir_rst_dirDat (p : LinePort) (d : Dir) : (p.setDir d .rst).dirDat = p.dirDat := rfl
@[simp] theorem setOut_rst_outRst (p : LinePort) (b : Bool) : (p.setOut b .rst).outRst = b := rfl
@[simp] theorem setDir_rst_outRst (p : LinePort) (d : Dir) : (p.setDir d .rst).outRst = p.outRst := rfl
@[simp] theorem setOut_rst_outClk (p : LinePort) (b : Bool) : (p.setOut b .rst).outClk = p.outClk := rfl
@[simp] theorem setDir_rst_outClk (p : LinePort) (d : Dir) : (p.setDir d .rst).outClk = p.outClk := rfl
@[simp] theorem setOut_rst_outDat (p : LinePort) (b : Bool) : (p.setOut b .rst).outDat = p.outDat := rfl
@[simp] theorem setDir_rst_outDat (p : LinePort) (d : Dir) : (p.setDir d .rst).outDat = p.outDat := rfl
@[simp] theorem setOut_clk_dirRst (p : LinePort) (b : Bool) : (p.setOut b .clk).dirRst = p.dirRst := rfl
@[simp] theorem setDir_clk_dirRst (p : LinePort) (d : Dir) : (p.setDir d .clk).dirRst = p.dirRst := rfl
@[simp] theorem setOut_clk_dirClk (p : LinePort) (b : Bool) : (p.setOut b .clk).dirClk = p.dirClk := rfl
@[simp] theorem setDir_clk_dirClk (p : LinePort) (d : Dir) : (p.setDir d .clk).dirClk = d := rfl
@[simp] theorem setOut_clk_dirDat (p : LinePort) (b : Bool) : (p.setOut b .clk).dirDat = p.dirDat := rfl
@[simp] theorem setDir_clk_dirDat (p : LinePort) (d : Dir) : (p.setDir d .clk).dirDat = p.dirDat := rfl
@[simp] theorem setOut_clk_outRst (p : LinePort) (b : Bool) : (p.setOut b .clk).outRst = p.outRst := rfl
@[simp] theorem setDir_clk_outRst (p : LinePort) (d : Dir) : (p.setDir d .clk).outRst = p.outRst := rfl
@[simp] theorem setOut_clk_outClk (p : LinePort) (b : Bool) : (p.setOut b .clk).outClk = b := rfl
@[simp] theorem setDir_clk_outClk (p : LinePort) (d : Dir) : (p.setDir d .clk).outClk = p.outClk := rfl
@[simp] theorem setOut_clk_outDat (p : LinePort) (b : Bool) : (p.setOut b .clk).outDat = p.outDat := rfl
@[simp] theorem setDir_clk_outDat (p : LinePort) (d : Dir) : (p.setDir d .clk).outDat = p.outDat := rfl
@[simp] theorem setOut_dat_dirRst (p : LinePort) (b : Bool) : (p.setOut b .dat).dirRst = p.dirRst := rfl
@[simp] theorem setDir_dat_dirRst (p : LinePort) (d : Dir) : (p.setDir d .dat).dirRst = p.dirRst := rfl
@[simp] theorem setOut_dat_dirClk (p : LinePort) (b : Bool) : (p.setOut b .dat).dirClk = p.dirClk := rfl
@[simp] theorem setDir_dat_dirClk (p : LinePort) (d : Dir) : (p.setDir d .dat).dirClk = p.dirClk := rfl
@[simp] theorem setOut_dat_dirDat (p : LinePort) (b : Bool) : (p.setOut b .dat).dirDat = p.dirDat := rfl
@[simp] theorem setDir_dat_dirDat (p : LinePort) (d : Dir) : (p.setDir d .dat).dirDat = d := rfl
@[simp] theorem setOut_dat_outRst (p : LinePort) (b : Bool) : (p.setOut b .dat).outRst = p.outRst := rfl
@[simp] theorem setDir_dat_outRst (p : LinePort) (d : Dir) : (p.setDir d .dat).outRst = p.outRst := rfl
@[simp] theorem setOut_dat_outClk (p : LinePort) (b : Bool) : (p.setOut b .dat).outClk = p.outClk := rfl
@[simp] theorem setDir_dat_outClk (p : LinePort) (d : Dir) : (p.setDir d .dat).outClk = p.outClk := rfl
@[simp] theorem setOut_dat_outDat (p : LinePort) (b : Bool) : (p.setOut b .dat).outDat = b := rfl
@[simp] theorem setDir_dat_outDat (p : LinePort) (d : Dir) : (p.setDir d .dat).outDat = p.outDat := rfl

/-! Writes of an unconstrained environment do nothing to it. -/

@[simp] theorem onWrite_free (p : LinePort) (l : Line) (b : Bool) (given : List Bool) :
    (Env.free given).onWrite p l b = .free given := rfl

/-! The trace in the order things happened. -/

@[simp] theorem events_lineDir (l : Line) (d : Dir) (s : State) : (s.lineDir l d).events = s.events ++ [.dir l d] := by
  simp [State.events]

@[simp] theorem events_lineWrite (l : Line) (b : Bool) (s : State) :
    (s.lineWrite l b).events = s.events ++ [.write l b] := by
  simp [State.events]

@[simp] theorem events_delay (n : Nat) (s : State) : (s.delay n).events = s.events ++ [.delay n] := by
  simp [State.events]

@[simp] theorem events_afterRead (s : State) : s.afterRead.events = s.events ++ [.read .dat s.datLevel] := by
  simp [State.events]

theorem events_eq_of_trace {s t : State} (h : t.trace = s.trace) : t.events = s.events := by
  simp [State.events, h]

end Sys2Proof.Machine
end

