-- ==== Sys2Proof/Laws/Memory.lean ====
section
/-! SUPPORT. The laws of the device's cells: a write keeps the canonical form, is read back, and leaves every other cell. -/

namespace Sys2Proof.Machine

theorem Memory.read_of_lt_all (m : Memory) (a : Nat) (h : ∀ x ∈ m, a < x.1) : Memory.read m a = 0 := by
  induction m with
  | nil => rfl
  | cons x m ih =>
    have hx := h x (by simp)
    simp only [Memory.read]
    rw [if_neg (by omega)]
    exact ih (fun y hy => h y (by simp [hy]))

theorem Memory.wf_nil : Memory.wf [] := by simp [Memory.wf]

theorem Memory.wf_tail {x : Host.Cell} {m : Memory} (h : Memory.wf (x :: m)) : Memory.wf m :=
  ⟨(List.pairwise_cons.mp h.1).2, fun y hy => h.2 y (by simp [hy])⟩

/-- A cell of the written memory is the written one or was there before. -/
theorem Memory.mem_write {m : Memory} {a : Nat} {v : Byte} {x : Host.Cell} (hx : x ∈ Memory.write m a v) :
    (x = (a, v) ∧ v ≠ 0) ∨ x ∈ m := by
  induction m with
  | nil =>
    simp only [Memory.write] at hx
    split at hx
    · simp at hx
    · rename_i h; simp at hx; exact .inl ⟨hx, h⟩
  | cons y m ih =>
    simp only [Memory.write] at hx
    split at hx
    · split at hx
      · exact .inr hx
      · rename_i h
        rcases List.mem_cons.mp hx with rfl | hx
        · exact .inl ⟨rfl, h⟩
        · exact .inr hx
    · split at hx
      · split at hx
        · exact .inr (by simp [hx])
        · rename_i h
          rcases List.mem_cons.mp hx with rfl | hx
          · exact .inl ⟨rfl, h⟩
          · exact .inr (by simp [hx])
      · rcases List.mem_cons.mp hx with rfl | hx
        · exact .inr (by simp)
        · rcases ih hx with h | h
          · exact .inl h
          · exact .inr (by simp [h])

theorem Memory.write_wf {m : Memory} {a : Nat} (v : Byte) (h : Memory.wf m) (ha : a < 64) :
    Memory.wf (Memory.write m a v) := by
  refine ⟨?_, fun x hx => ?_⟩
  · induction m with
    | nil => simp only [Memory.write]; split <;> simp
    | cons y m ih =>
      obtain ⟨hy, hm⟩ := List.pairwise_cons.mp h.1
      simp only [Memory.write]
      split
      · rename_i hlt
        split
        · exact h.1
        · refine List.pairwise_cons.mpr ⟨fun z hz => ?_, h.1⟩
          rcases List.mem_cons.mp hz with rfl | hz
          · exact hlt
          · exact Nat.lt_trans hlt (hy z hz)
      · split
        · rename_i heq
          subst heq
          split
          · exact hm
          · exact List.pairwise_cons.mpr ⟨hy, hm⟩
        · refine List.pairwise_cons.mpr ⟨fun z hz => ?_, ih (Memory.wf_tail h)⟩
          rcases Memory.mem_write hz with ⟨rfl, _⟩ | hz
          · show y.1 < a; omega
          · exact hy z hz
  · rcases Memory.mem_write hx with ⟨rfl, hv⟩ | hx
    · exact ⟨ha, hv⟩
    · exact h.2 x hx

theorem Memory.read_write {m : Memory} (a b : Nat) (v : Byte) (h : Memory.wf m) :
    Memory.read (Memory.write m a v) b = if b = a then v else Memory.read m b := by
  induction m with
  | nil =>
    simp only [Memory.write]
    split
    · rename_i hv; simp [Memory.read, hv]
    · simp [Memory.read]
  | cons y m ih =>
    obtain ⟨hy, _⟩ := List.pairwise_cons.mp h.1
    have htail := ih (Memory.wf_tail h)
    simp only [Memory.write]
    split
    · rename_i hlt
      split
      · rename_i hv
        split
        · rename_i hb
          subst hb hv
          exact Memory.read_of_lt_all _ _ (fun z hz => by
            rcases List.mem_cons.mp hz with rfl | hz
            · exact hlt
            · exact Nat.lt_trans hlt (hy z hz))
        · rfl
      · rfl
    · split
      · rename_i heq
        split
        · rename_i hv
          split
          · rename_i hb
            subst hb hv
            exact Memory.read_of_lt_all _ _ (fun z hz => by have := hy z hz; omega)
          · rename_i hb
            have : ¬ b = y.1 := by omega
            obtain ⟨k, w⟩ := y
            simp only [Memory.read]
            rw [if_neg this]
        · obtain ⟨k, w⟩ := y
          simp only [Memory.read]
          split
          · rfl
          · rename_i hb
            rw [if_neg (by simp at heq; omega)]
      · rename_i hlt hne
        obtain ⟨k, w⟩ := y
        simp only [Memory.read]
        simp only at hlt hne
        split
        · rename_i hb
          rw [if_neg (by omega)]
        · exact htail

end Sys2Proof.Machine
end

