-- ==== Sys2Proof/Laws/Run.lean ====
section
/-! SUPPORT. What the step lists of the rules do when they run: one lemma per list (`run_…`), and what it leaves, field by
field. The proofs about operations cite these and unfold no step. -/

namespace Sys2Proof.Machine

/-! ### Running lists -/

@[simp] theorem bind_goOn (s : State) (f : State → Progress) : (Progress.goOn s).bind f = f s := rfl

@[simp] theorem bind_raised (e : Status) (s : State) (f : State → Progress) :
    (Progress.raised e s).bind f = .raised e s := rfl

@[simp] theorem runSteps_nil (s : State) : runSteps [] s = .goOn s := rfl

theorem runSteps_cons (st : SeqStep) (rest : List SeqStep) (s : State) :
    runSteps (st :: rest) s = (doStep st s).bind (runSteps rest) := rfl

theorem runSteps_append (xs ys : List SeqStep) (s : State) :
    runSteps (xs ++ ys) s = (runSteps xs s).bind (runSteps ys) := by
  induction xs generalizing s with
  | nil => rfl
  | cons st xs ih =>
    simp only [List.cons_append, runSteps_cons]
    cases doStep st s with
    | goOn t => simpa using ih t
    | raised e t => rfl

theorem loopSteps_succ (n : Nat) (body : List SeqStep) : loopSteps (n + 1) body = body ++ loopSteps n body := by
  simp [loopSteps, List.replicate_succ]

/-! ### What the blocks of steps do -/

/-- One clock pulse (R124). -/
def State.pulse (s : State) : State :=
  (((s.lineWrite .clk true).delay s.params.tPulse).lineWrite .clk false).delay s.params.tPulse

/-- One iteration of `sendbits` (R142). -/
def State.sendBit (s : State) : State :=
  { (s.lineWrite .dat (s.work.shift.getLsbD 0)).pulse with
    work := { s.work with shift := s.work.shift >>> 1, bitIdx := s.work.bitIdx + 1 } }

/-- One iteration of `recvbits` (R143). -/
def State.recvBit (s : State) : State :=
  { s.afterRead.pulse with
    work := { s.work with
      shift := s.work.shift ||| (Byte.ofBit s.datLevel <<< s.work.bitIdx.toNat), bitIdx := s.work.bitIdx + 1 } }

def State.sendBits : Nat → State → State
  | 0, s => s
  | n + 1, s => State.sendBits n s.sendBit

def State.recvBits : Nat → State → State
  | 0, s => s
  | n + 1, s => State.recvBits n s.recvBit

/-- `sendbits(v)` (R142). -/
def State.sent (v : Byte) (s : State) : State :=
  State.sendBits 8 { s.lineDir .dat .output with work := { s.work with shift := v, bitIdx := 0 } }

/-- `recvbits()` (R143), with the byte in `SHIFT`. -/
def State.received (s : State) : State :=
  State.recvBits 8 { s.lineDir .dat .input with work := { s.work with shift := 0, bitIdx := 0 } }

/-- `reset()` (R121). -/
def State.busReset (s : State) : State := ((s.lineWrite .rst false).lineWrite .clk false).lineDir .dat .input

/-- The opening of a transaction (R144). -/
def State.opening (s : State) : State := (s.busReset.lineWrite .rst true).delay s.params.tSettle

/-- The command byte built (R140). -/
def State.withCmd (c : Byte) (s : State) : State := { s with work := { s.work with cmd := c } }

/-- A read transaction (R146), with the byte in `SHIFT`. -/
def State.readTx (address : Byte) (s : State) : State :=
  ((((s.opening.withCmd (encodeCommand address .read))).sent (encodeCommand address .read)).received).lineWrite .rst false

/-- A write transaction (R147). -/
def State.writeTx (address v : Byte) (s : State) : State :=
  ((((s.opening.withCmd (encodeCommand address .write))).sent (encodeCommand address .write)).sent v).lineWrite .rst false

/-- A received byte kept in a local. -/
def State.keep (dst : Local) (s : State) : State := { s with work := dst.put s.work.shift s.work }

theorem run_clock (s : State) : runSteps clockSteps s = .goOn s.pulse := rfl

theorem run_busReset (s : State) : runSteps busResetSteps s = .goOn s.busReset := rfl

theorem run_opening (s : State) : runSteps openingSteps s = .goOn s.opening := rfl

theorem run_sendBit (s : State) (h : s.lines.dirDat = .output) : runSteps sendBitSteps s = .goOn s.sendBit := by
  unfold sendBitSteps
  rw [List.cons_append, runSteps_cons, doStep, txbitStep, if_pos h, bind_goOn, runSteps_append, run_clock]
  rfl

theorem run_recvBit (s : State) (h : s.lines.dirDat = .input) : runSteps recvBitSteps s = .goOn s.recvBit := by
  unfold recvBitSteps
  rw [List.cons_append, runSteps_cons, doStep, rxbitStep, if_pos h, bind_goOn, runSteps_append, run_clock]
  simp [runSteps_cons, doStep, State.recvBit, State.pulse, State.lineWrite, State.delay]

@[simp] theorem sendBit_dirDat (s : State) : s.sendBit.lines.dirDat = s.lines.dirDat := rfl

@[simp] theorem recvBit_lines (s : State) : s.recvBit.lines = { s.lines with outClk := false } := by
  simp [State.recvBit, State.pulse, LinePort.setOut]

theorem run_sendLoop (n : Nat) (s : State) (h : s.lines.dirDat = .output) :
    runSteps (loopSteps n sendBitSteps) s = .goOn (State.sendBits n s) := by
  induction n generalizing s with
  | zero => rfl
  | succ n ih =>
    rw [loopSteps_succ, runSteps_append, run_sendBit s h, bind_goOn]
    exact ih s.sendBit (by simpa using h)

theorem run_recvLoop (n : Nat) (s : State) (h : s.lines.dirDat = .input) :
    runSteps (loopSteps n recvBitSteps) s = .goOn (State.recvBits n s) := by
  induction n generalizing s with
  | zero => rfl
  | succ n ih =>
    rw [loopSteps_succ, runSteps_append, run_recvBit s h, bind_goOn]
    exact ih s.recvBit (by simpa using h)

theorem run_send (src : ByteSrc) (s : State) : runSteps (sendSteps src) s = .goOn (s.sent (src.value s.work)) := by
  rw [sendSteps, runSteps_append, runSteps_cons, doStep, bind_goOn, runSteps_cons, doStep, bind_goOn, runSteps_nil, bind_goOn,
    run_sendLoop 8 _ rfl, State.sent]
  rfl

theorem run_recv (s : State) : runSteps recvSteps s = .goOn s.received := by
  rw [recvSteps, runSteps_append, runSteps_cons, doStep, bind_goOn, runSteps_cons, doStep, bind_goOn, runSteps_nil, bind_goOn,
    run_recvLoop 8 _ rfl, State.received]
  rfl

/-! ### What one pulse and one bit leave -/

@[simp] theorem pulse_lines (s : State) : s.pulse.lines = { s.lines with outClk := false } := rfl
@[simp] theorem pulse_work (s : State) : s.pulse.work = s.work := rfl

@[simp] theorem pulse_events (s : State) : s.pulse.events = s.events ++ pulseTrace s.params := by
  simp [State.pulse, pulseTrace]

@[simp] theorem pulse_params (s : State) : s.pulse.params = s.params := rfl

/-! ### Everything but the lines, the working state, the trace and the environment's side -/

/-- `t` differs from `s` at most in the data line's direction, the output latches, the working state, the trace, the
environment and the count of free values: what line events may touch (R21, R54). -/
structure LinesOnly (s t : State) : Prop where
  dirRst : t.lines.dirRst = s.lines.dirRst
  dirClk : t.lines.dirClk = s.lines.dirClk
  seq : t.seq = s.seq
  busy : t.busy = s.busy
  present : t.present = s.present
  regs : t.regs = s.regs
  answer : t.answer = s.answer
  text : t.text = s.text
  inputs : t.inputs = s.inputs
  raised : t.raised = s.raised
  params : t.params = s.params

theorem LinesOnly.refl (s : State) : LinesOnly s s := ⟨rfl, rfl, rfl, rfl, rfl, rfl, rfl, rfl, rfl, rfl, rfl⟩

theorem LinesOnly.trans {s t u : State} (h : LinesOnly s t) (k : LinesOnly t u) : LinesOnly s u :=
  ⟨k.dirRst.trans h.dirRst, k.dirClk.trans h.dirClk, k.seq.trans h.seq, k.busy.trans h.busy,
    k.present.trans h.present, k.regs.trans h.regs, k.answer.trans h.answer, k.text.trans h.text,
    k.inputs.trans h.inputs, k.raised.trans h.raised,
    k.params.trans h.params⟩

theorem linesOnly_lineWrite (l : Line) (b : Bool) (s : State) : LinesOnly s (s.lineWrite l b) := by
  cases l <;> constructor <;> rfl

theorem linesOnly_dirDat (d : Dir) (s : State) : LinesOnly s (s.lineDir .dat d) := by constructor <;> rfl

theorem linesOnly_work (w : Work) (s : State) : LinesOnly s { s with work := w } := by constructor <;> rfl

theorem linesOnly_delay (n : Nat) (s : State) : LinesOnly s (s.delay n) := by constructor <;> rfl

theorem linesOnly_afterRead (s : State) : LinesOnly s s.afterRead := by constructor <;> simp

theorem linesOnly_pulse (s : State) : LinesOnly s s.pulse := by constructor <;> rfl

theorem linesOnly_sendBit (s : State) : LinesOnly s s.sendBit := by constructor <;> rfl

theorem linesOnly_recvBit (s : State) : LinesOnly s s.recvBit :=
  ((linesOnly_afterRead s).trans (linesOnly_pulse _)).trans (linesOnly_work _ _)

theorem linesOnly_sendBits (n : Nat) (s : State) : LinesOnly s (State.sendBits n s) := by
  induction n generalizing s with
  | zero => exact .refl s
  | succ n ih => exact (linesOnly_sendBit s).trans (ih _)

theorem linesOnly_recvBits (n : Nat) (s : State) : LinesOnly s (State.recvBits n s) := by
  induction n generalizing s with
  | zero => exact .refl s
  | succ n ih => exact (linesOnly_recvBit s).trans (ih _)

theorem linesOnly_sent (v : Byte) (s : State) : LinesOnly s (s.sent v) :=
  ((linesOnly_dirDat _ s).trans (linesOnly_work _ _)).trans (linesOnly_sendBits 8 _)

theorem linesOnly_received (s : State) : LinesOnly s s.received :=
  ((linesOnly_dirDat _ s).trans (linesOnly_work _ _)).trans (linesOnly_recvBits 8 _)

theorem linesOnly_opening (s : State) : LinesOnly s s.opening := by constructor <;> rfl

theorem linesOnly_readTx (a : Byte) (s : State) : LinesOnly s (s.readTx a) :=
  (((linesOnly_opening s).trans (linesOnly_work _ _)).trans (linesOnly_sent _ _)).trans
    ((linesOnly_received _).trans (linesOnly_lineWrite _ _ _))

theorem linesOnly_writeTx (a v : Byte) (s : State) : LinesOnly s (s.writeTx a v) :=
  (((linesOnly_opening s).trans (linesOnly_work _ _)).trans (linesOnly_sent _ _)).trans
    ((linesOnly_sent _ _).trans (linesOnly_lineWrite _ _ _))

@[simp] theorem sendBit_params (s : State) : s.sendBit.params = s.params := rfl
@[simp] theorem recvBit_params (s : State) : s.recvBit.params = s.params := (linesOnly_recvBit s).params
@[simp] theorem sent_params (v : Byte) (s : State) : (s.sent v).params = s.params := (linesOnly_sent v s).params
@[simp] theorem received_params (s : State) : s.received.params = s.params := (linesOnly_received s).params
@[simp] theorem opening_params (s : State) : s.opening.params = s.params := rfl
@[simp] theorem withCmd_params (c : Byte) (s : State) : (s.withCmd c).params = s.params := rfl
@[simp] theorem readTx_params (a : Byte) (s : State) : (s.readTx a).params = s.params := (linesOnly_readTx a s).params
@[simp] theorem writeTx_params (a v : Byte) (s : State) : (s.writeTx a v).params = s.params :=
  (linesOnly_writeTx a v s).params
@[simp] theorem keep_params (l : Local) (s : State) : (s.keep l).params = s.params := rfl

theorem linesOnly_keep (dst : Local) (s : State) : LinesOnly s (s.keep dst) := linesOnly_work _ s

/-! ### What `sendbits` leaves -/

theorem sendBit_lines (s : State) :
    s.sendBit.lines = { s.lines with outClk := false, outDat := s.work.shift.getLsbD 0 } := rfl

theorem sendBit_work (s : State) :
    s.sendBit.work = { s.work with shift := s.work.shift >>> 1, bitIdx := s.work.bitIdx + 1 } := rfl

theorem events_with_work (w : Work) (s : State) : State.events { s with work := w } = s.events := rfl

theorem sendBit_events (s : State) :
    s.sendBit.events = s.events ++ .write .dat (s.work.shift.getLsbD 0) :: pulseTrace s.params := by
  simp only [State.sendBit, events_with_work, pulse_events, events_lineWrite]
  simp

theorem sendBits_lines (n : Nat) (s : State) : (State.sendBits (n + 1) s).lines =
    { s.lines with outClk := false, outDat := s.work.shift.getLsbD n } := by
  induction n generalizing s with
  | zero => exact sendBit_lines s
  | succ n ih =>
    rw [State.sendBits, ih, sendBit_lines, sendBit_work]
    simp [Nat.add_comm]

theorem sendBits_work (n : Nat) (s : State) : (State.sendBits n s).work =
    { s.work with shift := s.work.shift >>> n, bitIdx := s.work.bitIdx + BitVec.ofNat 3 n } := by
  induction n generalizing s with
  | zero => simp [State.sendBits]
  | succ n ih =>
    rw [State.sendBits, ih, sendBit_work]
    simp [BitVec.shiftRight_add, Nat.add_comm n 1, BitVec.add_assoc, BitVec.ofNat_add]

theorem sendBits_events (n : Nat) (s : State) : (State.sendBits n s).events =
    s.events ++ ((List.range n).map s.work.shift.getLsbD).flatMap (fun b => .write .dat b :: pulseTrace s.params) := by
  induction n generalizing s with
  | zero => simp [State.sendBits]
  | succ n ih =>
    rw [State.sendBits, ih, sendBit_work, sendBit_events, List.range_succ_eq_map]
    simp [List.flatMap_map, Function.comp_def, Nat.add_comm]

@[simp] theorem sent_lines (v : Byte) (s : State) :
    (s.sent v).lines = { s.lines with dirDat := .output, outClk := false, outDat := v.getLsbD 7 } := by
  rw [State.sent, sendBits_lines]
  rfl

@[simp] theorem sent_work (v : Byte) (s : State) : (s.sent v).work = { s.work with shift := 0, bitIdx := 0 } := by
  rw [State.sent, sendBits_work]
  have h : v >>> 8 = 0#8 := BitVec.ushiftRight_eq_zero (by omega)
  simp [h]

@[simp] theorem sent_events (v : Byte) (s : State) : (s.sent v).events = s.events ++ sendTrace s.params v := by
  rw [State.sent, sendBits_events, events_with_work, events_lineDir]
  simp only [sendTrace, bitsOf, List.append_assoc, List.singleton_append, lineDir_params]

@[simp] theorem sendBits_draws (n : Nat) (s : State) : (State.sendBits n s).draws = s.draws := by
  induction n generalizing s with
  | zero => rfl
  | succ n ih => exact ih s.sendBit

@[simp] theorem sent_draws (v : Byte) (s : State) : (s.sent v).draws = s.draws := sendBits_draws 8 _

/-! ### What `recvbits` leaves -/

/-- The next `n` answers of the environment, when a clock pulse follows each. -/
def State.answers : Nat → State → List Bool
  | 0, _ => []
  | n + 1, s => s.datLevel :: State.answers n s.recvBit

theorem answers_length (n : Nat) (s : State) : (State.answers n s).length = n := by
  induction n generalizing s with
  | zero => rfl
  | succ n ih => simp [State.answers, ih]

theorem recvBit_work (s : State) : s.recvBit.work =
    { s.work with
      shift := s.work.shift ||| (Byte.ofBit s.datLevel <<< s.work.bitIdx.toNat), bitIdx := s.work.bitIdx + 1 } := rfl

theorem recvBit_events (s : State) :
    s.recvBit.events = s.events ++ .read .dat s.datLevel :: pulseTrace s.params := by
  simp only [State.recvBit, events_with_work, pulse_events, events_afterRead]
  simp

theorem recvBits_lines (n : Nat) (s : State) :
    (State.recvBits (n + 1) s).lines = { s.lines with outClk := false } := by
  induction n generalizing s with
  | zero => exact recvBit_lines s
  | succ n ih => rw [State.recvBits, ih, recvBit_lines]

theorem recvBits_events (n : Nat) (s : State) : (State.recvBits n s).events =
    s.events ++ (State.answers n s).flatMap (fun b => .read .dat b :: pulseTrace s.params) := by
  induction n generalizing s with
  | zero => simp [State.recvBits, State.answers]
  | succ n ih =>
    rw [State.recvBits, ih, recvBit_events, State.answers]
    simp

theorem getLsbD_ofBit_shiftLeft (b : Bool) (i j : Nat) (hj : j < 8) :
    (Byte.ofBit b <<< i).getLsbD j = (decide (j = i) && b) := by
  unfold Byte.ofBit
  rw [BitVec.getLsbD_shiftLeft]
  cases b
  · simp
  · simp only [hj, decide_true, Bool.true_and, if_true]
    rcases Nat.lt_trichotomy j i with h | h | h
    · simp [h, Nat.ne_of_lt h]
    · simp [h]
    · have h1 : ¬ j < i := by omega
      have h2 : j ≠ i := by omega
      have h3 : (1#8).getLsbD (j - i) = false := by
        rw [BitVec.getLsbD_one]; simp; omega
      simp [h1, h2, h3]

/-- The locals of the rule are not touched by a receive; the bits assembled are the answers, in order. -/
theorem recvBits_shift (n i : Nat) (s : State) (hn : i + n ≤ 8) (hi : s.work.bitIdx = BitVec.ofNat 3 i)
    (hz : ∀ j, i ≤ j → s.work.shift.getLsbD j = false) (j : Nat) (hj : j < 8) :
    (State.recvBits n s).work.shift.getLsbD j =
      if j < i then s.work.shift.getLsbD j else (State.answers n s).getD (j - i) false := by
  induction n generalizing s i with
  | zero =>
    simp only [State.recvBits, State.answers]
    split
    · rfl
    · rw [hz j (by omega)]; simp
  | succ n ih =>
    have hidx : s.work.bitIdx.toNat = i := by rw [hi]; simp; omega
    have hbit : ∀ k, k < 8 → s.recvBit.work.shift.getLsbD k =
        (s.work.shift.getLsbD k || (decide (k = i) && s.datLevel)) := fun k hk => by
      rw [recvBit_work]; simp only [BitVec.getLsbD_or, hidx, getLsbD_ofBit_shiftLeft _ _ _ hk]
    rw [State.recvBits, ih (i + 1) s.recvBit (by omega)]
    · rw [hbit j hj]
      rcases Nat.lt_trichotomy j i with h | h | h
      · have h1 : j < i + 1 := by omega
        have h2 : j ≠ i := by omega
        simp [h, h1, h2]
      · subst h
        simp [hz j (Nat.le_refl _), State.answers]
      · have h1 : ¬ j < i + 1 := by omega
        have h2 : ¬ j < i := by omega
        have h3 : j - i = (j - (i + 1)) + 1 := by omega
        rw [if_neg h1, if_neg h2, h3, State.answers, List.getD_cons_succ]
    · rw [recvBit_work]; simp only [hi, BitVec.ofNat_add]; rfl
    · intro k hk
      by_cases h8 : k < 8
      · rw [hbit k h8, hz k (by omega)]
        have : k ≠ i := by omega
        simp [this]
      · exact BitVec.getLsbD_of_ge _ _ (by omega)

theorem recvBits_locals (n : Nat) (s : State) :
    (State.recvBits n s).work.cmd = s.work.cmd ∧ (State.recvBits n s).work.got = s.work.got ∧
      (State.recvBits n s).work.secBack = s.work.secBack ∧ (State.recvBits n s).work.raw = s.work.raw := by
  induction n generalizing s with
  | zero => exact ⟨rfl, rfl, rfl, rfl⟩
  | succ n ih => exact ih s.recvBit

/-- The state in which the eight samples of `recvbits` begin. -/
def State.listening (s : State) : State :=
  { s.lineDir .dat .input with work := { s.work with shift := 0, bitIdx := 0 } }

theorem received_eq (s : State) : s.received = State.recvBits 8 s.listening := rfl

theorem bitsOf_length (b : Byte) : (bitsOf b).length = 8 := by simp [bitsOf]

theorem bitsOf_injective {a b : Byte} (h : bitsOf a = bitsOf b) : a = b := by
  refine BitVec.eq_of_getLsbD_eq (fun i hi => ?_)
  have := congrArg (fun l => l.getD i false) h
  simpa [bitsOf, List.getD, hi] using this

theorem eq_bitsOf {b : Byte} {l : List Bool} (hl : l.length = 8) (h : ∀ j, j < 8 → b.getLsbD j = l.getD j false) :
    l = bitsOf b := by
  refine List.ext_getElem (by rw [hl, bitsOf_length]) (fun i h1 h2 => ?_)
  have hi : i < 8 := by omega
  have := h i hi
  simp [List.getD, h1] at this
  simp [bitsOf, this]

/-- "`SHIFT[i]` = the `i`-th answer" (R143). -/
theorem received_answers (s : State) : State.answers 8 s.listening = bitsOf s.received.work.shift := by
  refine eq_bitsOf (answers_length 8 _) (fun j hj => ?_)
  rw [received_eq, recvBits_shift 8 0 s.listening (by omega) rfl (fun j _ => by simp [State.listening]) j hj]
  simp

@[simp] theorem received_lines (s : State) :
    s.received.lines = { s.lines with dirDat := .input, outClk := false } := by
  rw [received_eq, recvBits_lines]
  rfl

@[simp] theorem received_events (s : State) :
    s.received.events = s.events ++ recvTrace s.params s.received.work.shift := by
  rw [recvTrace, ← received_answers s, received_eq, recvBits_events]
  rw [State.listening, events_with_work, events_lineDir]
  simp only [List.append_assoc, List.singleton_append, lineDir_params]

@[simp] theorem received_cmd (s : State) : s.received.work.cmd = s.work.cmd := (recvBits_locals 8 _).1
@[simp] theorem received_got (s : State) : s.received.work.got = s.work.got := (recvBits_locals 8 _).2.1
@[simp] theorem received_secBack (s : State) : s.received.work.secBack = s.work.secBack := (recvBits_locals 8 _).2.2.1
@[simp] theorem received_raw (s : State) : s.received.work.raw = s.work.raw := (recvBits_locals 8 _).2.2.2

/-! ### Whole transactions -/

theorem run_readbyte (a : Byte) (dst : Local) (s : State) :
    runSteps (readbyteSteps a dst) s = .goOn ((s.readTx a).keep dst) := by
  rw [readbyteSteps]
  simp only [runSteps_append]
  rw [run_opening, bind_goOn, runSteps_cons, doStep, bind_goOn, runSteps_nil, bind_goOn, run_send, bind_goOn, run_recv,
    bind_goOn, stopSteps, runSteps_cons, doStep, bind_goOn, runSteps_nil, bind_goOn, runSteps_cons, doStep, bind_goOn,
    runSteps_nil]
  rfl

theorem run_writebyte (a : Byte) (src : ByteSrc) (s : State) (h : src ≠ .cmd) :
    runSteps (writebyteSteps a src) s = .goOn (s.writeTx a (src.value s.work)) := by
  rw [writebyteSteps]
  simp only [runSteps_append]
  rw [run_opening, bind_goOn, runSteps_cons, doStep, bind_goOn, runSteps_nil, bind_goOn, run_send, bind_goOn, run_send,
    bind_goOn, stopSteps, runSteps_cons, doStep, bind_goOn, runSteps_nil, sent_work]
  cases src with
  | cmd => exact absurd rfl h
  | lit v => rfl
  | halt => rfl
  | resume => rfl

theorem opening_lines (s : State) : s.opening.lines =
    { s.lines with outRst := true, outClk := false, dirDat := .input } := rfl

@[simp] theorem opening_work (s : State) : s.opening.work = s.work := rfl

@[simp] theorem opening_draws (s : State) : s.opening.draws = s.draws := rfl

@[simp] theorem busReset_events (s : State) : s.busReset.events = s.events ++ busResetTrace := by
  simp [State.busReset, busResetTrace]

@[simp] theorem opening_events (s : State) : s.opening.events = s.events ++ openingTrace s.params := by
  simp [State.opening, openingTrace]

@[simp] theorem withCmd_events (c : Byte) (s : State) : (s.withCmd c).events = s.events := rfl
@[simp] theorem withCmd_lines (c : Byte) (s : State) : (s.withCmd c).lines = s.lines := rfl
@[simp] theorem withCmd_draws (c : Byte) (s : State) : (s.withCmd c).draws = s.draws := rfl
@[simp] theorem withCmd_env (c : Byte) (s : State) : (s.withCmd c).env = s.env := rfl
@[simp] theorem withCmd_work (c : Byte) (s : State) : (s.withCmd c).work = { s.work with cmd := c } := rfl
@[simp] theorem keep_events (l : Local) (s : State) : (s.keep l).events = s.events := rfl
@[simp] theorem keep_lines (l : Local) (s : State) : (s.keep l).lines = s.lines := rfl
@[simp] theorem keep_draws (l : Local) (s : State) : (s.keep l).draws = s.draws := rfl
@[simp] theorem keep_env (l : Local) (s : State) : (s.keep l).env = s.env := rfl

/-- After `readbyte` the bus is idle, and the output latch holds bit 7 of the command byte (R146, R127). -/
@[simp] theorem readTx_lines (a : Byte) (s : State) : (s.readTx a).lines =
    { s.lines with outRst := false, outClk := false, dirDat := .input, outDat := (encodeCommand a .read).getLsbD 7 } := by
  simp only [State.readTx, lineWrite_lines, received_lines, sent_lines, withCmd_lines, opening_lines, LinePort.setOut]

@[simp] theorem readTx_events (a : Byte) (s : State) : (s.readTx a).events =
    s.events ++ readTrace s.params (encodeCommand a .read) (s.readTx a).work.shift := by
  simp only [State.readTx, events_lineWrite, received_events, sent_events, withCmd_events, opening_events,
    lineWrite_work, readTrace, withCmd_params, sent_params, opening_params, List.append_assoc]

@[simp] theorem readTx_got (a : Byte) (s : State) : (s.readTx a).work.got = s.work.got := by
  simp only [State.readTx, lineWrite_work, received_got, sent_work, withCmd_work, opening_work]
@[simp] theorem readTx_secBack (a : Byte) (s : State) : (s.readTx a).work.secBack = s.work.secBack := by
  simp only [State.readTx, lineWrite_work, received_secBack, sent_work, withCmd_work, opening_work]
@[simp] theorem readTx_raw (a : Byte) (s : State) : (s.readTx a).work.raw = s.work.raw := by
  simp only [State.readTx, lineWrite_work, received_raw, sent_work, withCmd_work, opening_work]

/-- After `writebyte` the data line is still an output, at bit 7 of the value (R147, R256). -/
@[simp] theorem writeTx_lines (a v : Byte) (s : State) : (s.writeTx a v).lines =
    { s.lines with outRst := false, outClk := false, dirDat := .output, outDat := v.getLsbD 7 } := by
  simp only [State.writeTx, lineWrite_lines, sent_lines, withCmd_lines, opening_lines, LinePort.setOut]

@[simp] theorem writeTx_events (a v : Byte) (s : State) : (s.writeTx a v).events =
    s.events ++ writeTrace s.params (encodeCommand a .write) v := by
  simp only [State.writeTx, events_lineWrite, sent_events, withCmd_events, opening_events, writeTrace,
    withCmd_params, sent_params, opening_params, List.append_assoc]

@[simp] theorem writeTx_draws (a v : Byte) (s : State) : (s.writeTx a v).draws = s.draws := by
  simp only [State.writeTx, lineWrite_draws, sent_draws, withCmd_draws, opening_draws]

@[simp] theorem writeTx_work (a v : Byte) (s : State) : (s.writeTx a v).work =
    { s.work with shift := 0, bitIdx := 0, cmd := encodeCommand a .write } := by
  simp only [State.writeTx, lineWrite_work, sent_work, withCmd_work, opening_work]

end Sys2Proof.Machine
end

