-- ==== Sys2Proof/Laws/Environment.lean ====
section
/-! SUPPORT. What the blocks of steps do to the three environments of R72: the unconstrained one, the loopback backend
(R74) and the register-echo device (R75). -/

namespace Sys2Proof.Machine

/-! ### The unconstrained environment -/

theorem pulse_env (s : State) : s.pulse.env =
    (s.env.onWrite s.lines .clk true).onWrite (s.lines.setOut true .clk) .clk false := rfl

theorem sendBit_env (s : State) : s.sendBit.env =
    ((s.env.onWrite s.lines .dat (s.work.shift.getLsbD 0)).onWrite
      (s.lines.setOut (s.work.shift.getLsbD 0) .dat) .clk true).onWrite
      ((s.lines.setOut (s.work.shift.getLsbD 0) .dat).setOut true .clk) .clk false := rfl

theorem recvBit_env (s : State) : s.recvBit.env =
    (s.afterRead.env.onWrite s.lines .clk true).onWrite (s.lines.setOut true .clk) .clk false := by
  rw [← afterRead_lines]; rfl

theorem sendBits_free (n : Nat) (s : State) {given : List Bool} (h : s.env = .free given) :
    (State.sendBits n s).env = .free given := by
  induction n generalizing s with
  | zero => exact h
  | succ n ih => exact ih s.sendBit (by simp [sendBit_env, h])

theorem sent_free (v : Byte) (s : State) {given : List Bool} (h : s.env = .free given) :
    (s.sent v).env = .free given := sendBits_free 8 _ h

theorem opening_free (s : State) {given : List Bool} (h : s.env = .free given) : s.opening.env = .free given := by
  simp [State.opening, State.busReset, h]

theorem writeTx_free (a v : Byte) (s : State) {given : List Bool} (h : s.env = .free given) :
    (s.writeTx a v).env = .free given := by
  have h1 := sent_free (encodeCommand a .write) (s.opening.withCmd (encodeCommand a .write))
    (by rw [withCmd_env]; exact opening_free s h)
  have h2 := sent_free v _ h1
  simp [State.writeTx, h2]

theorem recvBit_free (s : State) {b : Bool} {given : List Bool} (h : s.env = .free (b :: given)) :
    s.recvBit.env = .free given ∧ s.recvBit.draws = s.draws ∧ s.datLevel = b := by
  refine ⟨?_, ?_, ?_⟩
  · rw [recvBit_env]; simp [State.afterRead, h]
  · simp [State.recvBit, State.pulse, State.afterRead, h]
  · simp [State.datLevel, h]

theorem recvBits_free (bs rest : List Bool) (s : State) (h : s.env = .free (bs ++ rest)) :
    (State.recvBits bs.length s).env = .free rest ∧ (State.recvBits bs.length s).draws = s.draws ∧
      State.answers bs.length s = bs := by
  induction bs generalizing s with
  | nil => exact ⟨h, rfl, rfl⟩
  | cons b bs ih =>
    obtain ⟨h1, h2, h3⟩ := recvBit_free s h
    obtain ⟨k1, k2, k3⟩ := ih s.recvBit h1
    exact ⟨k1, k2.trans h2, by rw [List.length_cons, State.answers, k3, h3]⟩

theorem received_free (b : Byte) (rest : List Bool) (s : State) (h : s.env = .free (bitsOf b ++ rest)) :
    s.received.env = .free rest ∧ s.received.draws = s.draws ∧ s.received.work.shift = b := by
  have hl : s.listening.env = .free (bitsOf b ++ rest) := h
  obtain ⟨h1, h2, h3⟩ := recvBits_free (bitsOf b) rest s.listening hl
  rw [bitsOf_length] at h1 h2 h3
  refine ⟨h1, h2, bitsOf_injective ?_⟩
  rw [← received_answers, h3]

theorem readTx_free (a b : Byte) (rest : List Bool) (s : State) (h : s.env = .free (bitsOf b ++ rest)) :
    (s.readTx a).env = .free rest ∧ (s.readTx a).draws = s.draws ∧ (s.readTx a).work.shift = b := by
  have h1 := sent_free (encodeCommand a .read) (s.opening.withCmd (encodeCommand a .read))
    (by rw [withCmd_env]; exact opening_free s h)
  obtain ⟨k1, k2, k3⟩ := received_free b rest _ h1
  refine ⟨by simp [State.readTx, k1], ?_, by simp [State.readTx, k3]⟩
  simp [State.readTx, k2]

/-! ### The loopback backend (R74) -/

theorem sendBit_loopback (s : State) {q : List Bool} (h : s.env = .loopback q) (hd : s.lines.dirDat = .output) :
    s.sendBit.env = .loopback (q ++ [s.work.shift.getLsbD 0]) := by
  rw [sendBit_env, h]
  simp [Env.onWrite, hd]

theorem sendBits_loopback (n : Nat) (s : State) {q : List Bool} (h : s.env = .loopback q)
    (hd : s.lines.dirDat = .output) :
    (State.sendBits n s).env = .loopback (q ++ (List.range n).map s.work.shift.getLsbD) := by
  induction n generalizing s q with
  | zero => simpa [State.sendBits] using h
  | succ n ih =>
    rw [State.sendBits, ih s.sendBit (sendBit_loopback s h hd) hd, List.range_succ_eq_map, sendBit_work]
    simp [Function.comp_def, Nat.add_comm]

theorem sent_loopback (v : Byte) (s : State) {q : List Bool} (h : s.env = .loopback q) :
    (s.sent v).env = .loopback (q ++ bitsOf v) := sendBits_loopback 8 _ h rfl

theorem recvBit_loopback (s : State) {b : Bool} {q : List Bool} (h : s.env = .loopback (b :: q))
    (hd : s.lines.dirDat = .input) : s.recvBit.env = .loopback q ∧ s.datLevel = b := by
  constructor
  · rw [recvBit_env]; simp [State.afterRead, h, Env.onWrite, hd]
  · simp [State.datLevel, h]

theorem recvBits_loopback (bs q : List Bool) (s : State) (h : s.env = .loopback (bs ++ q))
    (hd : s.lines.dirDat = .input) :
    (State.recvBits bs.length s).env = .loopback q ∧ State.answers bs.length s = bs := by
  induction bs generalizing s with
  | nil => exact ⟨h, rfl⟩
  | cons b bs ih =>
    obtain ⟨h1, h2⟩ := recvBit_loopback s h hd
    obtain ⟨k1, k2⟩ := ih s.recvBit h1 (by simpa using hd)
    exact ⟨k1, by rw [List.length_cons, State.answers, k2, h2]⟩

theorem received_loopback (b : Byte) (q : List Bool) (s : State) (h : s.env = .loopback (bitsOf b ++ q)) :
    s.received.env = .loopback q ∧ s.received.work.shift = b := by
  obtain ⟨h1, h2⟩ := recvBits_loopback (bitsOf b) q s.listening h rfl
  rw [bitsOf_length] at h1 h2
  exact ⟨h1, bitsOf_injective (by rw [← received_answers, h2])⟩

/-! ### The register-echo device (R75) -/

theorem getLsbD_setBit (v : Byte) (i j : Nat) (b : Bool) (hj : j < 8) :
    (v.setBit i b).getLsbD j = if j = i then b else v.getLsbD j := by
  have hone : (1#8 <<< i).getLsbD j = decide (j = i) := by
    have := getLsbD_ofBit_shiftLeft true i j hj
    simpa [Byte.ofBit] using this
  unfold Byte.setBit
  cases b
  · simp only [Bool.false_eq_true, if_false, BitVec.getLsbD_and, BitVec.getLsbD_not, hone, hj, decide_true,
      Bool.true_and]
    by_cases h : j = i <;> simp [h]
  · simp only [if_true, BitVec.getLsbD_or, hone]
    by_cases h : j = i <;> simp [h]

theorem sendBit_echo (s : State) {dev : EchoDevice} (h : s.env = .echo dev) (hr : s.lines.outRst = true)
    (hc : s.lines.outClk = false) :
    s.sendBit.env = .echo (dev.onPulse { s.lines with outDat := s.work.shift.getLsbD 0 }) := by
  rw [sendBit_env, h]
  simp [Env.onWrite, hr, hc, LinePort.setOut]

theorem recvBit_echo (s : State) {dev : EchoDevice} (h : s.env = .echo dev) (hr : s.lines.outRst = true)
    (hc : s.lines.outClk = false) : s.recvBit.env = .echo (dev.onPulse s.lines) := by
  rw [recvBit_env]
  simp [State.afterRead, h, Env.onWrite, hr, hc]

/-- The command byte shifted in, bit after bit. -/
theorem sendBits_echo_command (k : Nat) (s : State) {dev : EchoDevice} (h : s.env = .echo dev)
    (hr : s.lines.outRst = true) (hc : s.lines.outClk = false) (hk : dev.n + k ≤ 8) :
    ∃ c, (State.sendBits k s).env = .echo { dev with c := c, n := dev.n + k } ∧
      ∀ j, j < 8 → c.getLsbD j =
        if dev.n ≤ j ∧ j < dev.n + k then s.work.shift.getLsbD (j - dev.n) else dev.c.getLsbD j := by
  induction k generalizing s dev with
  | zero => exact ⟨dev.c, by simpa [State.sendBits] using h, fun j _ => by rw [if_neg (by omega)]⟩
  | succ k ih =>
    have hlt : dev.n < 8 := by omega
    have h1 := sendBit_echo s h hr hc
    simp only [EchoDevice.onPulse, hlt, if_true] at h1
    obtain ⟨c, hc1, hc2⟩ := ih s.sendBit h1 hr rfl (by simp only; omega)
    refine ⟨c, ?_, fun j hj => ?_⟩
    · rw [State.sendBits, hc1]; simp only [Nat.add_assoc, Nat.add_comm 1 k]
    · rw [hc2 j hj, sendBit_work]
      simp only [BitVec.getLsbD_ushiftRight, getLsbD_setBit _ _ _ _ hj]
      rcases Nat.lt_trichotomy j dev.n with h | h | h
      · rw [if_neg (by omega), if_neg (by omega), if_neg (by omega)]
      · subst h
        rw [if_neg (by omega), if_pos rfl, if_pos (by omega), Nat.sub_self]
      · by_cases hj2 : j < dev.n + (k + 1)
        · rw [if_pos (by omega), if_pos (by omega)]
          congr 1; omega
        · rw [if_neg (by omega), if_neg (by omega), if_neg (by omega)]

/-- The data byte of a write shifted in; the cell is stored at the last pulse. -/
theorem sendBits_echo_data (k : Nat) (s : State) {dev : EchoDevice} (h : s.env = .echo dev)
    (hr : s.lines.outRst = true) (hc : s.lines.outClk = false) (hd : s.lines.dirDat = .output)
    (hw : dev.c.getLsbD 0 = false) (h8 : 8 ≤ dev.n) (hk : dev.n + k ≤ 16) :
    ∃ d, (State.sendBits k s).env =
        .echo { dev with
          d := d, n := dev.n + k,
          mem := if dev.n + k = 16 ∧ 0 < k then dev.mem.write dev.address d else dev.mem } ∧
      ∀ j, j < 8 → d.getLsbD j =
        if dev.n - 8 ≤ j ∧ j < dev.n - 8 + k then s.work.shift.getLsbD (j - (dev.n - 8)) else dev.d.getLsbD j := by
  induction k generalizing s dev with
  | zero => exact ⟨dev.d, by simpa [State.sendBits] using h, fun j _ => by rw [if_neg (by omega)]⟩
  | succ k ih =>
    have hlt : ¬ dev.n < 8 := by omega
    have hlt2 : dev.n < 16 := by omega
    have h1 := sendBit_echo s h hr hc
    simp only [EchoDevice.onPulse, hlt, if_false, hlt2, hw, hd, and_self, if_true] at h1
    obtain ⟨d, hd1, hd2⟩ := ih s.sendBit h1 hr rfl hd hw (by simp only; omega) (by simp only; omega)
    have hval : ∀ j, j < 8 → d.getLsbD j =
        if dev.n - 8 ≤ j ∧ j < dev.n - 8 + (k + 1) then s.work.shift.getLsbD (j - (dev.n - 8))
        else dev.d.getLsbD j := fun j hj => by
      rw [hd2 j hj, sendBit_work]
      simp only [BitVec.getLsbD_ushiftRight, getLsbD_setBit _ _ _ _ hj]
      rcases Nat.lt_trichotomy j (dev.n - 8) with h | h | h
      · rw [if_neg (by omega), if_neg (by omega), if_neg (by omega)]
      · subst h
        rw [if_neg (by omega), if_pos rfl, if_pos (by omega), Nat.sub_self]
      · by_cases hj2 : j < dev.n - 8 + (k + 1)
        · rw [if_pos (by omega), if_pos (by omega)]
          congr 1; omega
        · rw [if_neg (by omega), if_neg (by omega), if_neg (by omega)]
    refine ⟨d, ?_, hval⟩
    rw [State.sendBits, hd1]
    simp only [EchoDevice.address, Env.echo.injEq, EchoDevice.mk.injEq, and_true]
    refine ⟨?_, by omega⟩
    by_cases hk0 : k = 0
    · subst hk0
      by_cases hn : dev.n = 15
      · have hdv : d = dev.d.setBit 7 (s.work.shift.getLsbD 0) := by
          refine BitVec.eq_of_getLsbD_eq (fun j hj => ?_)
          rw [hd2 j hj, if_neg (by omega)]
          simp [hn]
        simp [hn, hdv]
      · have : ¬ dev.n + 1 = 16 := by omega
        simp [hn, this]
    · have hk1 : 0 < k := by omega
      have hn : ¬ dev.n = 15 := by omega
      simp only [hn, if_false, hk1, and_true]
      have : dev.n + 1 + k = dev.n + (k + 1) := by omega
      rw [this]
      simp

/-- What the device shows during the data phase of a read is the addressed cell, bit after bit; nothing is stored. -/
theorem recvBits_echo (k : Nat) (s : State) {dev : EchoDevice} (h : s.env = .echo dev)
    (hr : s.lines.outRst = true) (hc : s.lines.outClk = false)
    (hw : dev.c.getLsbD 0 = true) (h8 : 8 ≤ dev.n) (hk : dev.n + k ≤ 16) :
    (State.recvBits k s).env = .echo { dev with n := dev.n + k } ∧
      State.answers k s = (List.range k).map (fun i => (dev.mem.read dev.address).getLsbD (dev.n - 8 + i)) := by
  induction k generalizing s dev with
  | zero => exact ⟨by simpa [State.recvBits] using h, rfl⟩
  | succ k ih =>
    have hlt : ¬ dev.n < 8 := by omega
    have hlt2 : dev.n < 16 := by omega
    have h1 := recvBit_echo s h hr hc
    simp only [EchoDevice.onPulse, hlt, if_false, hw, Bool.true_eq_false, false_and, and_false] at h1
    have hl : s.datLevel = (dev.mem.read dev.address).getLsbD (dev.n - 8) := by
      simp [State.datLevel, h, EchoDevice.shows, hr, hw, h8, hlt2]
    obtain ⟨k1, k2⟩ := ih s.recvBit h1 (by simpa using hr) (by simp) hw (by simp only; omega) (by simp only; omega)
    refine ⟨?_, ?_⟩
    · rw [State.recvBits, k1]; simp only [Nat.add_assoc, Nat.add_comm 1 k]
    · rw [State.answers, k2, hl, List.range_succ_eq_map]
      simp only [List.map_cons, List.map_map, Nat.add_zero, List.cons.injEq, true_and, EchoDevice.address]
      refine List.map_congr_left (fun i _ => ?_)
      simp only [Function.comp_apply]
      congr 1; omega

theorem opening_echo (s : State) {dev : EchoDevice} (h : s.env = .echo dev) :
    s.opening.env = .echo { dev with n := 0, c := 0, d := 0 } := by
  simp [State.opening, State.busReset, h, Env.onWrite, LinePort.setOut, LinePort.setDir]

theorem sent_echo_command (v : Byte) (s : State) {dev : EchoDevice} (h : s.env = .echo dev)
    (hr : s.lines.outRst = true) (hc : s.lines.outClk = false) (hn : dev.n = 0) :
    (s.sent v).env = .echo { dev with c := v, n := 8 } := by
  obtain ⟨c, h1, h2⟩ := sendBits_echo_command 8
    { s.lineDir .dat .output with work := { s.work with shift := v, bitIdx := 0 } } (dev := dev) h hr hc (by omega)
  have hc : c = v := BitVec.eq_of_getLsbD_eq (fun j hj => by
    rw [h2 j hj, if_pos (by omega)]; simp [hn])
  rw [State.sent, h1, hc, hn]

theorem commandAddress_encodeCommand (a : Byte) (f : RW) : commandAddress (encodeCommand a f) = a.setWidth 6 := by
  revert a; cases f <;> decide

theorem encodeCommand_bit0 (a : Byte) (f : RW) : (encodeCommand a f).getLsbD 0 = (f == .read) := by
  revert a; cases f <;> decide

theorem encodeCommand_bit7 (a : Byte) (f : RW) : (encodeCommand a f).getLsbD 7 = true := by
  revert a; cases f <;> decide

/-- A read transaction at the device: the addressed cell is received and no cell changes (R75). -/
theorem readTx_echo (a : Byte) (s : State) {dev : EchoDevice} (h : s.env = .echo dev) :
    (s.readTx a).env = .echo { mem := dev.mem, n := 16, c := encodeCommand a .read, d := 0 } ∧
      (s.readTx a).work.shift = dev.mem.read (a.setWidth 6).toNat := by
  have h1 := sent_echo_command (encodeCommand a .read) (s.opening.withCmd (encodeCommand a .read))
    (dev := { dev with n := 0, c := 0, d := 0 }) (by rw [withCmd_env]; exact opening_echo s h) rfl rfl rfl
  obtain ⟨k1, k2⟩ := recvBits_echo 8
    ((s.opening.withCmd (encodeCommand a .read)).sent (encodeCommand a .read)).listening h1
    (by simp [State.listening, LinePort.setDir, opening_lines])
    (by simp [State.listening, LinePort.setDir])
    (by simp only [encodeCommand_bit0]; rfl) (by simp) (by simp)
  rw [received_answers] at k2
  have hv := bitsOf_injective (b := dev.mem.read (a.setWidth 6).toNat) (k2.trans (by
    simp [bitsOf, EchoDevice.address, commandAddress_encodeCommand]))
  refine ⟨?_, hv⟩
  rw [← received_eq] at k1
  simp [State.readTx, k1, Env.onWrite]

/-- A write transaction at the device: the addressed cell takes the value (R75). -/
theorem writeTx_echo (a v : Byte) (s : State) {dev : EchoDevice} (h : s.env = .echo dev) :
    (s.writeTx a v).env =
      .echo { mem := dev.mem.write (a.setWidth 6).toNat v, n := 16, c := encodeCommand a .write, d := v } := by
  have h1 := sent_echo_command (encodeCommand a .write) (s.opening.withCmd (encodeCommand a .write))
    (dev := { dev with n := 0, c := 0, d := 0 }) (by rw [withCmd_env]; exact opening_echo s h) rfl rfl rfl
  have hlines : ((s.opening.withCmd (encodeCommand a .write)).sent (encodeCommand a .write)).lines.outRst = true := by
    simp [opening_lines]
  obtain ⟨d, k1, k2⟩ := sendBits_echo_data 8
    { ((s.opening.withCmd (encodeCommand a .write)).sent (encodeCommand a .write)).lineDir .dat .output with
      work := { ((s.opening.withCmd (encodeCommand a .write)).sent (encodeCommand a .write)).work with
        shift := v, bitIdx := 0 } } h1
    hlines (by simp [LinePort.setDir]) rfl
    (by simp only [encodeCommand_bit0]; rfl) (by simp) (by simp)
  have hd : d = v := BitVec.eq_of_getLsbD_eq (fun j hj => by
    rw [k2 j hj, if_pos (by simp; omega)]; simp)
  have k3 : (((s.opening.withCmd (encodeCommand a .write)).sent (encodeCommand a .write)).sent v).env = _ := k1
  rw [hd] at k3
  simp [State.writeTx, k3, Env.onWrite, EchoDevice.address, commandAddress_encodeCommand]

end Sys2Proof.Machine
end

