-- ==== Sys2Proof/Laws/Operation.lean ====
section
/-! SUPPORT. Whole operations: how a step list becomes the meaning of an instruction, what every operation leaves alone,
and the block's own steps against the call (R24, R27, R69). -/

namespace Sys2Proof.Machine

/-! ### From a step list to the end of the operation -/

/-- Every instruction's meaning is `operate` on its program, with the code it is started by. -/
theorem exec_eq_operate (i : Instr) (s : State) :
    exec i s = .next (operate (startCode i) (program i s) s) := by
  cases i <;> rfl

theorem operate_busy {s : State} (h : s.busy = true) (c : Option Byte) (prog : List SeqStep) :
    operate c prog s = s.refuseBusy := by
  rw [operate, h, if_pos rfl]

theorem operate_idle {s : State} (h : s.busy = false) (c : Option Byte) (prog : List SeqStep) :
    operate c prog s = runOperation (prog ++ returnSteps) (s.begin c) := by
  rw [operate, h, if_neg Bool.false_ne_true]

theorem finish_eq_raise (s : State) : s.finish = s.raise .ok := rfl

/-- A program that does not raise ends with `Ok`. -/
theorem operate_goOn {s t : State} {c : Option Byte} {prog : List SeqStep} (h : s.busy = false)
    (hr : runSteps prog (s.begin c) = .goOn t) : operate c prog s = t.raise .ok := by
  rw [operate_idle h, runOperation, runSteps_append, hr]
  rfl

/-- A program that raises ends with that status. -/
theorem operate_raised {s t : State} {c : Option Byte} {prog : List SeqStep} {e : Status} (h : s.busy = false)
    (hr : runSteps prog (s.begin c) = .raised e t) : operate c prog s = t.raise e := by
  rw [operate_idle h, runOperation, runSteps_append, hr]
  rfl

/-- What the end of an operation leaves, when its steps changed nothing but the lines' side and the results. -/
theorem Ended.of {s t : State} {c : Option Byte} (e : Status) (hr : t.raised = s.raised) (ha : t.answer = (s.begin c).answer)
    (ht : t.text = s.text) (hi : t.inputs = s.inputs) (h1 : t.lines.dirRst = s.lines.dirRst)
    (h2 : t.lines.dirClk = s.lines.dirClk) (hp : t.params = s.params) : Ended e s (t.raise e) :=
  { busy := rfl, seq := rfl, work := rfl, status := rfl,
    raised := by rw [raise_raised, hr],
    answer := by rw [raise_answer, ha]; rfl,
    text := ht, inputs := hi, dirRst := h1, dirClk := h2, params := hp }

/-- An operation ended before its first line event (R222): idle again, and the line port, the environment and every host
register but `STATUS` as they were. -/
theorem refused_early (e : Status) (c : Option Byte) (s : State) :
    Ended e s ((s.begin c).opAsBefore.raise e) ∧ Untouched s ((s.begin c).opAsBefore.raise e) ∧
      ((s.begin c).opAsBefore.raise e).regs = { s.regs with status := e.code } ∧
      ((s.begin c).opAsBefore.raise e).present = s.present :=
  ⟨Ended.of (c := c) e rfl rfl rfl rfl rfl rfl rfl, ⟨rfl, rfl, rfl, rfl⟩, rfl, rfl⟩

theorem LinesOnly.ended {s t : State} {c : Option Byte} (h : LinesOnly (s.begin c) t) (e : Status) :
    Ended e s (t.raise e) :=
  Ended.of (c := c) e h.raised h.answer h.text h.inputs h.dirRst h.dirClk h.params

theorem LinesOnly.raise_regs_eq {s t : State} {c : Option Byte} (h : LinesOnly (s.begin c) t) (e : Status) :
    (t.raise e).regs = { s.regs with op := c.getD s.regs.op, status := e.code } := by
  rw [raise_regs, h.regs]
  rfl

@[simp] theorem raise_events (e : Status) (s : State) : (s.raise e).events = s.events := rfl
@[simp] theorem begin_events (c : Option Byte) (s : State) : (s.begin c).events = s.events := rfl

theorem cell_of_env {s t : State} (h : t.env = s.env) (a : Nat) : t.cell a = s.cell a := by
  simp only [State.cell, h]

@[simp] theorem raise_cell (e : Status) (s : State) (a : Nat) : (s.raise e).cell a = s.cell a := cell_of_env rfl a
@[simp] theorem begin_cell (c : Option Byte) (s : State) (a : Nat) : (s.begin c).cell a = s.cell a := cell_of_env rfl a
@[simp] theorem keep_cell (l : Local) (s : State) (a : Nat) : (s.keep l).cell a = s.cell a := cell_of_env rfl a

theorem cell_echo {s : State} {dev : EchoDevice} (h : s.env = .echo dev) (a : Nat) :
    s.cell a = dev.mem.read a := by
  simp only [State.cell, h]

/-- A line write other than a rising clock edge changes no cell. -/
theorem lineWrite_cell (l : Line) (b : Bool) (s : State) (h : ¬ (l = .clk ∧ b = true)) (a : Nat) :
    (s.lineWrite l b).cell a = s.cell a := by
  have key : ∀ dev : EchoDevice, ∃ n c d,
      (Env.echo dev).onWrite s.lines l b = .echo { mem := dev.mem, n := n, c := c, d := d } := fun dev => by
    simp only [Env.onWrite]
    split
    · exact ⟨_, _, _, rfl⟩
    · rw [if_neg (fun hh => h ⟨hh.1, hh.2.1⟩)]
      exact ⟨_, _, _, rfl⟩
  cases he : s.env with
  | free g => simp [State.cell, he]
  | loopback q => simp [State.cell, he, Env.onWrite, h]
  | echo dev =>
    obtain ⟨n, c, d, hk⟩ := key dev
    simp only [State.cell, lineWrite_env, he, hk]

/-! ### Transactions of the registers -/

theorem encodeCommand_address (a : Address) (f : RW) : encodeCommand (addressOperand a) f = commandByte a f := by
  revert a; cases f <;> decide

theorem addressOperand_toNat (a : Address) : ((addressOperand a).setWidth 6).toNat = a.toNat := by
  revert a; decide

/-- A register read into a local. -/
def State.readInto (r : ChipReg) (l : Local) (s : State) : State := (s.readTx (addressOperand r.address)).keep l

/-- A register written. -/
def State.writeReg (r : ChipReg) (v : Byte) (s : State) : State := s.writeTx (addressOperand r.address) v

theorem run_readReg (r : ChipReg) (l : Local) (s : State) : runSteps (readRegSteps r l) s = .goOn (s.readInto r l) :=
  run_readbyte _ l s

theorem run_writeReg (r : ChipReg) (src : ByteSrc) (s : State) (h : src ≠ .cmd) :
    runSteps (writeRegSteps r src) s = .goOn (s.writeReg r (src.value s.work)) :=
  run_writebyte _ src s h

theorem linesOnly_readInto (r : ChipReg) (l : Local) (s : State) : LinesOnly s (s.readInto r l) :=
  (linesOnly_readTx _ s).trans (linesOnly_keep l _)

theorem linesOnly_writeReg (r : ChipReg) (v : Byte) (s : State) : LinesOnly s (s.writeReg r v) := linesOnly_writeTx _ v s

/-- The byte a register read receives. -/
def State.byteRead (r : ChipReg) (s : State) : Byte := (s.readTx (addressOperand r.address)).work.shift

@[simp] theorem readInto_params (r : ChipReg) (l : Local) (s : State) : (s.readInto r l).params = s.params :=
  (linesOnly_readInto r l s).params

@[simp] theorem writeReg_params (r : ChipReg) (v : Byte) (s : State) : (s.writeReg r v).params = s.params :=
  (linesOnly_writeReg r v s).params

@[simp] theorem readInto_lines (r : ChipReg) (l : Local) (s : State) : (s.readInto r l).lines =
    { s.lines with outRst := false, outClk := false, dirDat := .input, outDat := true } := by
  rw [State.readInto, keep_lines, readTx_lines, encodeCommand_bit7]

@[simp] theorem readInto_events (r : ChipReg) (l : Local) (s : State) : (s.readInto r l).events =
    s.events ++ readTrace s.params (commandByte r.address .read) (s.byteRead r) := by
  rw [State.readInto, keep_events, readTx_events, encodeCommand_address]
  rfl

@[simp] theorem writeReg_lines (r : ChipReg) (v : Byte) (s : State) : (s.writeReg r v).lines =
    { s.lines with outRst := false, outClk := false, dirDat := .output, outDat := v.getLsbD 7 } := writeTx_lines _ v s

@[simp] theorem writeReg_events (r : ChipReg) (v : Byte) (s : State) : (s.writeReg r v).events =
    s.events ++ writeTrace s.params (commandByte r.address .write) v := by
  rw [State.writeReg, writeTx_events, encodeCommand_address]

@[simp] theorem writeReg_draws (r : ChipReg) (v : Byte) (s : State) : (s.writeReg r v).draws = s.draws :=
  writeTx_draws _ v s

@[simp] theorem writeReg_secBack (r : ChipReg) (v : Byte) (s : State) :
    (s.writeReg r v).work.secBack = s.work.secBack := by
  rw [State.writeReg, writeTx_work]

@[simp] theorem readInto_secBack (r : ChipReg) (s : State) :
    (s.readInto r .secBack).work.secBack = s.byteRead r := rfl

@[simp] theorem readInto_got (r : ChipReg) (s : State) : (s.readInto r .got).work.got = s.byteRead r := rfl

/-- A register read keeps its byte in its local and leaves the other raw bytes. -/
theorem readInto_raw (r : ChipReg) (l : Local) (s : State) :
    (s.readInto r l).work.raw = (l.put (s.byteRead r) s.work).raw := by
  have h := readTx_raw (addressOperand r.address) s
  cases l <;> simp only [State.readInto, State.keep, Local.put, State.byteRead, h]

theorem readInto_free (r : ChipReg) (l : Local) (b : Byte) (rest : List Bool) (s : State)
    (h : s.env = .free (bitsOf b ++ rest)) :
    (s.readInto r l).env = .free rest ∧ (s.readInto r l).draws = s.draws ∧ s.byteRead r = b :=
  readTx_free _ b rest s h

theorem readInto_echo (r : ChipReg) (l : Local) (s : State) {dev : EchoDevice} (h : s.env = .echo dev) :
    (s.readInto r l).env =
        .echo { mem := dev.mem, n := 16, c := commandByte r.address .read, d := 0 } ∧
      s.byteRead r = dev.mem.read r.address.toNat := by
  have := readTx_echo (addressOperand r.address) s h
  rw [encodeCommand_address, addressOperand_toNat] at this
  exact this

theorem writeReg_free (r : ChipReg) (v : Byte) (s : State) {given : List Bool} (h : s.env = .free given) :
    (s.writeReg r v).env = .free given := writeTx_free _ v s h

theorem writeReg_echo (r : ChipReg) (v : Byte) (s : State) {dev : EchoDevice} (h : s.env = .echo dev) :
    (s.writeReg r v).env =
      .echo { mem := dev.mem.write r.address.toNat v, n := 16, c := commandByte r.address .write, d := v } := by
  have := writeTx_echo (addressOperand r.address) v s h
  rw [encodeCommand_address, addressOperand_toNat] at this
  exact this

/-! ### The environment keeps its kind, and only the device has cells -/

/-- The environments of a kind: a line event never turns one kind into another. -/
def Env.kind : Env → Nat
  | .free _ => 0
  | .loopback _ => 1
  | .echo _ => 2

@[simp] theorem onWrite_kind (p : LinePort) (l : Line) (b : Bool) (e : Env) : (e.onWrite p l b).kind = e.kind := by
  cases e with
  | free g => rfl
  | loopback q => simp only [Env.onWrite]; split <;> (try cases p.dirDat) <;> rfl
  | echo d => simp only [Env.onWrite]; split <;> [rfl; split <;> rfl]

@[simp] theorem afterRead_kind (s : State) : s.afterRead.env.kind = s.env.kind := by
  unfold State.afterRead; split <;> simp_all [Env.kind]

theorem cell_of_kind {s : State} (h : s.env.kind ≠ 2) (a : Nat) : s.cell a = 0 := by
  unfold State.cell; split <;> simp_all [Env.kind]

theorem sendBits_kind (n : Nat) (s : State) : (State.sendBits n s).env.kind = s.env.kind := by
  induction n generalizing s with
  | zero => rfl
  | succ n ih => rw [State.sendBits, ih, sendBit_env]; simp

theorem recvBits_kind (n : Nat) (s : State) : (State.recvBits n s).env.kind = s.env.kind := by
  induction n generalizing s with
  | zero => rfl
  | succ n ih => rw [State.recvBits, ih, recvBit_env]; simp

theorem sent_kind (v : Byte) (s : State) : (s.sent v).env.kind = s.env.kind := by
  rw [State.sent, sendBits_kind]
  rfl

theorem received_kind (s : State) : s.received.env.kind = s.env.kind := by
  rw [received_eq, recvBits_kind]
  rfl

theorem opening_kind (s : State) : s.opening.env.kind = s.env.kind := by
  simp [State.opening, State.busReset]

theorem readTx_kind (a : Byte) (s : State) : (s.readTx a).env.kind = s.env.kind := by
  rw [State.readTx, lineWrite_env, onWrite_kind, received_kind, sent_kind, withCmd_env, opening_kind]

theorem writeTx_kind (a v : Byte) (s : State) : (s.writeTx a v).env.kind = s.env.kind := by
  rw [State.writeTx, lineWrite_env, onWrite_kind, sent_kind, sent_kind, withCmd_env, opening_kind]

theorem readTx_cell (a : Byte) (s : State) (x : Nat) : (s.readTx a).cell x = s.cell x := by
  cases he : s.env with
  | echo dev => rw [cell_echo he, cell_echo (readTx_echo a s he).1]
  | free g => rw [cell_of_kind (by rw [readTx_kind, he]; simp [Env.kind]), cell_of_kind (by rw [he]; simp [Env.kind])]
  | loopback q => rw [cell_of_kind (by rw [readTx_kind, he]; simp [Env.kind]), cell_of_kind (by rw [he]; simp [Env.kind])]

theorem Memory.read_write_ne (m : Memory) {a b : Nat} (v : Byte) (h : b ≠ a) :
    Memory.read (Memory.write m a v) b = Memory.read m b := by
  induction m with
  | nil => simp only [Memory.write]; split <;> simp only [Memory.read, if_neg h]
  | cons y m ih =>
    obtain ⟨k, w⟩ := y
    simp only [Memory.write]
    split
    · split <;> simp only [Memory.read, if_neg h]
    · split
      · rename_i hk; subst hk
        split <;> simp only [Memory.read, if_neg h]
      · simp only [Memory.read, ih]

theorem writeTx_cell (a v : Byte) (s : State) {x : Nat} (hx : x ≠ (a.setWidth 6).toNat) :
    (s.writeTx a v).cell x = s.cell x := by
  cases he : s.env with
  | echo dev => rw [cell_echo he, cell_echo (writeTx_echo a v s he), Memory.read_write_ne _ _ hx]
  | free g => rw [cell_of_kind (by rw [writeTx_kind, he]; simp [Env.kind]), cell_of_kind (by rw [he]; simp [Env.kind])]
  | loopback q => rw [cell_of_kind (by rw [writeTx_kind, he]; simp [Env.kind]), cell_of_kind (by rw [he]; simp [Env.kind])]

theorem readInto_cell (r : ChipReg) (l : Local) (s : State) (x : Nat) : (s.readInto r l).cell x = s.cell x := by
  rw [State.readInto, keep_cell, readTx_cell]

theorem writeReg_cell (r : ChipReg) (v : Byte) (s : State) {x : Nat} (hx : x ≠ r.address.toNat) :
    (s.writeReg r v).cell x = s.cell x :=
  writeTx_cell _ v s (by rwa [addressOperand_toNat])

end Sys2Proof.Machine
end

