-- ==== Sys2Proof/Laws/Cells.lean ====
section
/-! SUPPORT. The device's cells under clock pulses and whole bytes (R75, D25): which pulse stores, to which cell,
    and that
nothing else does. -/

namespace Sys2Proof.Machine

/-- A rising clock edge changes the cell `State.pulseStores` names, and no other (R75). -/
theorem risingEdge_cell (s : State) (a : Nat) :
    (s.pulseStores ≠ some a → (s.lineWrite .clk true).cell a = s.cell a) ∧
    (∀ dev, s.env = .echo dev → dev.mem.wf → s.pulseStores = some a →
      (s.lineWrite .clk true).cell a = dev.d.setBit 7 s.lines.outDat) := by
  cases he : s.env with
  | free g => exact ⟨fun _ => by simp [State.cell, he], fun dev h => by cases h⟩
  | loopback q =>
    refine ⟨fun _ => ?_, fun dev h => by cases h⟩
    rw [cell_of_kind (by rw [lineWrite_env, onWrite_kind, he]; simp [Env.kind]), cell_of_kind (by simp [he, Env.kind])]
  | echo dev =>
    by_cases hc : s.lines.outClk = false ∧ s.lines.outRst = true
    · have henv : (s.lineWrite .clk true).env = .echo (dev.onPulse s.lines) := by
        simp [he, Env.onWrite, hc.1, hc.2]
      rw [cell_echo henv, cell_echo he]
      constructor
      · intro hp
        simp only [State.pulseStores, he, hc.1, hc.2, true_and] at hp
        unfold EchoDevice.onPulse
        split
        · rfl
        · split
          · rename_i h1 h2
            simp only
            split
            · rename_i h15
              rw [if_pos ⟨h15, h2.2.1, h2.2.2⟩] at hp
              rw [Memory.read_write_ne _ _ (fun h => hp (by rw [h]))]
            · rfl
          · rfl
      · intro dev' hd hwf hp
        cases hd
        simp only [State.pulseStores, he, hc.1, hc.2, true_and] at hp
        split at hp
        · rename_i h
          cases hp
          have h8 : ¬ dev.n < 8 := by omega
          have h16 : dev.n < 16 := by omega
          rw [EchoDevice.onPulse, if_neg h8, if_pos ⟨h16, h.2⟩, if_pos h.1]
          simp only
          rw [Memory.read_write _ _ _ hwf, if_pos rfl]
        · cases hp
    · have henv : (s.lineWrite .clk true).env = .echo dev := by
        simp only [lineWrite_env, he, Env.onWrite]
        rw [if_neg (by simp), if_neg (fun h => hc ⟨h.2.2.1, h.2.2.2⟩)]
      rw [cell_echo henv, cell_echo he]
      refine ⟨fun _ => rfl, fun dev' hd hwf hp => ?_⟩
      simp only [State.pulseStores, he] at hp
      rw [if_neg (fun h => hc ⟨h.1, h.2.1⟩)] at hp
      cases hp

/-- Of a clock pulse only the rising edge reaches a cell. -/
theorem pulse_cell (s : State) (a : Nat) : s.pulse.cell a = (s.lineWrite .clk true).cell a := by
  have : s.pulse.cell a = (((s.lineWrite .clk true).delay s.params.tPulse).lineWrite .clk false).cell a := rfl
  rw [this, lineWrite_cell _ _ _ (by simp)]; rfl

/-- A sample changes no cell (R54). -/
theorem afterRead_cell (s : State) (a : Nat) : s.afterRead.cell a = s.cell a := by
  have h : ∀ (e : Env) (tr : List TraceEntry) (n : Nat), (∀ dev, s.env ≠ .echo dev) → (∀ dev, e ≠ .echo dev) →
      State.cell { s with env := e, trace := tr, draws := n } a = s.cell a := fun e tr n h1 h2 => by
    cases e <;> cases he : s.env <;> simp_all [State.cell]
  unfold State.afterRead
  split <;> rename_i he
  · exact h _ _ s.draws (by simp [he]) (by simp)
  · rfl
  · rfl
  · rfl

/-- After the command byte the device keeps it (R75). -/
theorem onPulse_late (p : LinePort) (dev : EchoDevice) (h : 8 ≤ dev.n) :
    (dev.onPulse p).c = dev.c ∧ (dev.onPulse p).n = dev.n + 1 := by
  unfold EchoDevice.onPulse
  rw [if_neg (by omega)]
  split <;> exact ⟨rfl, rfl⟩

/-- Every pulse counts (R75). -/
theorem onPulse_n (p : LinePort) (dev : EchoDevice) : (dev.onPulse p).n = dev.n + 1 := by
  unfold EchoDevice.onPulse
  split
  · rfl
  · split <;> rfl

/-- One bit sent, with the clock and the chip-select as they may be. -/
theorem sendBit_echo_any (s : State) {dev : EchoDevice} (h : s.env = .echo dev) :
    s.sendBit.env = .echo (if s.lines.outClk = false ∧ s.lines.outRst = true then
      dev.onPulse { s.lines with outDat := s.work.shift.getLsbD 0 } else dev) := by
  rw [sendBit_env, h]
  by_cases hc : s.lines.outClk = false ∧ s.lines.outRst = true
  · simp [Env.onWrite, hc.1, hc.2, LinePort.setOut]
  · rw [if_neg hc]
    simp only [Env.onWrite, LinePort.setOut]
    simp [hc]

theorem sendBit_cell (s : State) (a : Nat) :
    s.sendBit.cell a = ((s.lineWrite .dat (s.work.shift.getLsbD 0)).lineWrite .clk true).cell a :=
  (cell_of_env rfl a : s.sendBit.cell a = (s.lineWrite .dat (s.work.shift.getLsbD 0)).pulse.cell a).trans (pulse_cell
      _ a)

/-- Bits sent change no cell but the one whose sixteenth pulse they reach (R75). -/
theorem sendBits_cell (k : Nat) (s : State) (dev : EchoDevice) (a : Nat) (h : s.env = .echo dev)
    (hc : s.lines.outClk = false) (hn : 8 ≤ dev.n ∨ dev.n + k ≤ 15)
    (hs : ¬ (s.lines.outRst = true ∧ dev.c.getLsbD 0 = false ∧ 8 ≤ dev.n ∧ dev.n < 16 ∧ 16 ≤ dev.n + k ∧
        dev.address = a)) :
    (State.sendBits k s).cell a = s.cell a := by
  induction k generalizing s dev with
  | zero => rfl
  | succ k ih =>
    have hstep : s.sendBit.cell a = s.cell a := by
      rw [sendBit_cell, (risingEdge_cell _ a).1, lineWrite_cell _ _ _ (by simp)]
      intro hp
      have hE : (s.lineWrite .dat (s.work.shift.getLsbD 0)).env = .echo dev := by simp [h, Env.onWrite]
      simp only [State.pulseStores, hE] at hp
      split at hp
      · rename_i hh
        have e1 : s.lines.outRst = true := hh.2.1
        have e2 := hh.2.2.1
        exact hs ⟨e1, hh.2.2.2.1, by omega, by omega, by omega, Option.some.inj hp⟩
      · cases hp
    have henv := sendBit_echo_any s h
    rw [State.sendBits]
    by_cases hr : s.lines.outRst = true
    · rw [if_pos ⟨hc, hr⟩] at henv
      rw [ih s.sendBit _ henv rfl, hstep]
      · rw [onPulse_n]; omega
      · rintro ⟨h1, h2, h3, h4, h5, h6⟩
        rw [onPulse_n] at h3 h4 h5
        have h8 : 8 ≤ dev.n := by omega
        rw [(onPulse_late _ _ h8).1] at h2
        unfold EchoDevice.address at h6
        rw [(onPulse_late _ _ h8).1] at h6
        exact hs ⟨h1, h2, h8, by omega, by omega, h6⟩
    · rw [if_neg (fun h => hr h.2)] at henv
      rw [ih s.sendBit _ henv rfl, hstep]
      · omega
      · rintro ⟨h1, _⟩
        exact hr h1

/-- The state in which the eight bits of `sendbits` begin. -/
def State.sending (v : Byte) (s : State) : State :=
  { s.lineDir .dat .output with work := { s.work with shift := v, bitIdx := 0 } }

theorem sent_eq (v : Byte) (s : State) : s.sent v = State.sendBits 8 (State.sending v s) := rfl

/-- `sendbits` changes no cell but the one `State.sendStores` names. -/
theorem sent_cell (v : Byte) (s : State) (a : Nat) (hs : s.sendStores ≠ some a) : (s.sent v).cell a = s.cell a := by
  cases he : s.env with
  | free g => rw [cell_of_kind (by rw [sent_kind, he]; simp [Env.kind]), cell_of_kind (by rw [he]; simp [Env.kind])]
  | loopback q => rw [cell_of_kind (by rw [sent_kind, he]; simp [Env.kind]), cell_of_kind (by rw [he]; simp [Env.kind])]
  | echo dev =>
    simp only [State.sendStores, he] at hs
    rw [sent_eq]
    have h0 : (State.sending v s).cell a = s.cell a := cell_of_env rfl a
    cases hc : s.lines.outClk with
    | false =>
      have hre : s.risingEdges = 8 := by simp [State.risingEdges, hc]
      rw [sendBits_cell 8 (State.sending v s) dev a he hc (by omega), h0]
      · rintro ⟨h1, h2, h3, h4, h5, h6⟩
        exact hs (by rw [if_pos ⟨h1, h2, h3, h4, by rw [hre]; exact h5⟩, ← h6])
    | true =>
      have hre : s.risingEdges = 7 := by simp [State.risingEdges, hc]
      rw [State.sendBits]
      have henv := sendBit_echo_any (State.sending v s) (dev := dev) he
      rw [if_neg (by rintro ⟨h, _⟩; have : s.lines.outClk = false := h; rw [hc] at this; cases this)] at henv
      rw [sendBits_cell 7 _ dev a henv rfl (by omega)]
      · exact (cell_echo henv a).trans (cell_echo he a).symm
      · rintro ⟨h1, h2, h3, h4, h5, h6⟩
        exact hs (by rw [if_pos ⟨h1, h2, h3, h4, by rw [hre]; exact h5⟩, ← h6])

/-- A whole data byte sent in an open write is the cell's new value (R75). -/
theorem sent_stores (v : Byte) (s : State) {dev : EchoDevice} {a : Nat} (he : s.env = .echo dev) (hwf :
    dev.mem.wf) (hn : dev.n = 8)
    (hc : s.lines.outClk = false) (hs : s.sendStores = some a) : (s.sent v).cell a = v := by
  simp only [State.sendStores, he] at hs
  split at hs
  · rename_i h
    cases hs
    obtain ⟨d, k1, k2⟩ := sendBits_echo_data 8
      { s.lineDir .dat .output with work := { s.work with shift := v, bitIdx := 0 } } (dev :=
          dev) he h.1 hc rfl h.2.1 (by omega) (by omega)
    have hd : d = v := BitVec.eq_of_getLsbD_eq (fun j hj => by rw [k2 j hj, if_pos (by omega)]; simp [hn])
    have k3 : (s.sent v).env = _ := k1
    rw [cell_echo k3, hd, if_pos (by omega), Memory.read_write _ _ _ hwf, if_pos rfl]
  · cases hs

theorem recvBit_cell (s : State) (hd : s.lines.dirDat = .input) (a : Nat) : s.recvBit.cell a = s.cell a := by
  have h1 : s.recvBit.cell a = s.afterRead.pulse.cell a := cell_of_env rfl a
  rw [h1, pulse_cell, (risingEdge_cell _ a).1, afterRead_cell]
  unfold State.pulseStores
  split
  · rw [if_neg (by simp [hd])]; simp
  · simp

/-- Receiving changes no cell: the data line is an input (R75). -/
theorem recvBits_cell (n : Nat) (s : State) (hd : s.lines.dirDat = .input) (a : Nat) :
    (State.recvBits n s).cell a = s.cell a := by
  induction n generalizing s with
  | zero => rfl
  | succ n ih => rw [State.recvBits, ih _ (by simpa using hd), recvBit_cell s hd]

theorem received_cell (s : State) (a : Nat) : s.received.cell a = s.cell a := by
  rw [received_eq, recvBits_cell 8 _ rfl]; exact cell_of_env rfl a

theorem sent_noAnswer (v : Byte) (s : State) : NoAnswerUsed s (s.sent v) :=
  ⟨sent_draws v s, fun _ h => sent_free v s h⟩

theorem writeTx_noAnswer (a v : Byte) (s : State) : NoAnswerUsed s (s.writeTx a v) :=
  ⟨writeTx_draws a v s, fun _ h => writeTx_free a v s h⟩

theorem raise_noAnswer {s t : State} (e : Status) (c : Option Byte) (h : NoAnswerUsed (s.begin c) t) :
    NoAnswerUsed s (t.raise e) := h

end Sys2Proof.Machine
end

