-- ==== Sys2Proof/Laws/Step.lean ====
section
/-! SUPPORT. What one step of any rule can do, what any list of steps can do, which steps the programs are made of, and
the block's own steps (`tick`) against a list run to its end. Claims about every instruction and every step rest on
    these. -/

namespace Sys2Proof.Machine

def Progress.state : Progress → State
  | .goOn s => s
  | .raised _ s => s

/-! ### One step -/

/-- Everything one step may change, said as what it may not (R30, R21, R24, R25, R26, R28, R52, R54). -/
structure StepFrame (st : SeqStep) (s u : State) : Prop where
  params : u.params = s.params
  answer : u.answer = s.answer
  text : u.text = s.text
  inputs : u.inputs = s.inputs
  op : u.regs.op = s.regs.op ∨ u.regs.op = s.work.opBefore
  opBefore : st ≠ .release → u.work.opBefore = s.work.opBefore
  a : u.regs.a = s.regs.a
  v : u.regs.v = s.regs.v
  cCode : u.regs.cCode = s.regs.cCode
  cArg : u.regs.cArg = s.regs.cArg
  present : st ≠ .compareSentinel → u.present = s.present
  r : st ≠ .storeR → u.regs.r = s.regs.r
  time : st ≠ .storeTime → u.regs.time = s.regs.time
  status : (∀ e, st ≠ .setStatus e) → u.regs.status = s.regs.status ∧ u.raised = s.raised
  busy : st ≠ .release → u.busy = s.busy ∧ u.seq = s.seq
  dirs : st.legal = true → u.lines.dirRst = s.lines.dirRst ∧ u.lines.dirClk = s.lines.dirClk
  chip : (∀ dev, s.env = .echo dev → dev.mem.wf) → ∀ dev, u.env = .echo dev → dev.mem.wf
  events : ∃ tr, u.events = s.events ++ tr ∧ (st.legal = true →
    ∀ e ∈ tr, (∀ l d, e = .dir l d → l = .dat) ∧ ∀ l b, e = .read l b → l = .dat)

theorem onPulse_wf (p : LinePort) {dev : EchoDevice} (h : dev.mem.wf) : (dev.onPulse p).mem.wf := by
  unfold EchoDevice.onPulse
  split
  · exact h
  · split
    · simp only
      split
      · exact Memory.write_wf _ h (commandAddress dev.c).isLt
      · exact h
    · exact h

theorem onWrite_wf (p : LinePort) (l : Line) (b : Bool) {e : Env} (h : ∀ dev, e = .echo dev → dev.mem.wf) :
    ∀ dev, e.onWrite p l b = .echo dev → dev.mem.wf := by
  intro dev hd
  cases e with
  | free g => simp [Env.onWrite] at hd
  | loopback q =>
    have := congrArg Env.kind hd
    rw [onWrite_kind] at this
    simp [Env.kind] at this
  | echo d0 =>
    have h0 := h d0 rfl
    simp only [Env.onWrite] at hd
    split at hd
    · cases hd; exact h0
    · split at hd
      · cases hd; exact onPulse_wf p h0
      · cases hd; exact h0

theorem afterRead_wf {s : State} (h : ∀ dev, s.env = .echo dev → dev.mem.wf) :
    ∀ dev, s.afterRead.env = .echo dev → dev.mem.wf := by
  intro dev hd
  unfold State.afterRead at hd
  split at hd <;> rename_i he
  · simp at hd
  · simp [he] at hd
  · simp [he] at hd
  · exact h dev hd

theorem StepFrame.refl (st : SeqStep) (s : State) : StepFrame st s s :=
  { params := rfl, answer := rfl, text := rfl, inputs := rfl, op := .inl rfl, a := rfl, v := rfl, cCode := rfl, cArg := rfl,
    opBefore := fun _ => rfl, present := fun _ => rfl, r := fun _ => rfl, time := fun _ => rfl, status := fun _ => ⟨rfl, rfl⟩,
    busy := fun _ => ⟨rfl, rfl⟩, dirs := fun _ => ⟨rfl, rfl⟩, chip := fun h => h,
    events := ⟨[], by simp, fun _ e he => by simp at he⟩ }

/-- A step that touches the working state only, and not what it keeps of `OP`. -/
theorem StepFrame.work (st : SeqStep) (s : State) (w : Work) (h : w.opBefore = s.work.opBefore) :
    StepFrame st s { s with work := w } :=
  { StepFrame.refl st s with opBefore := fun _ => h }

/-- What a check that raises before the first line event leaves (R222). -/
theorem StepFrame.opAsBefore (st : SeqStep) (s : State) : StepFrame st s s.opAsBefore :=
  { StepFrame.refl st s with op := .inr rfl }

@[simp] theorem put_opBefore (l : Local) (b : Byte) (w : Work) : (l.put b w).opBefore = w.opBefore := by
  cases l <;> rfl

theorem stepFrame_lineWrite (st : SeqStep) (l : Line) (b : Bool) (s : State) : StepFrame st s (s.lineWrite l b) :=
  { params := rfl, answer := rfl, text := rfl, inputs := rfl, op := .inl rfl, a := rfl, v := rfl, cCode := rfl, cArg := rfl,
    opBefore := fun _ => rfl, present := fun _ => rfl, r := fun _ => rfl, time := fun _ => rfl, status := fun _ => ⟨rfl, rfl⟩,
    busy := fun _ => ⟨rfl, rfl⟩, dirs := fun _ => by cases l <;> exact ⟨rfl, rfl⟩,
    chip := fun h => onWrite_wf _ _ _ h,
    events := ⟨[.write l b], by simp, fun _ e he => by simp at he; subst he; simp⟩ }

theorem stepFrame_read (st : SeqStep) (w : Work) (s : State) (h : w.opBefore = s.work.opBefore) :
    StepFrame st s { s.afterRead with work := w } :=
  { params := by simp, answer := by simp, text := by simp, inputs := by simp, op := .inl (by simp), a := by simp, v := by simp, cCode := by simp,
    cArg := by simp, opBefore := fun _ => h, present := fun _ => by simp, r := fun _ => by simp, time := fun _ => by simp,
    status := fun _ => by simp, busy := fun _ => by simp, dirs := fun _ => by simp,
    chip := fun h => afterRead_wf h,
    events := ⟨[.read .dat s.datLevel], by rw [events_with_work, events_afterRead], fun _ e he => by
      simp at he; subst he; simp⟩ }

/-- What one step can do. -/
theorem doStep_frame (st : SeqStep) (s : State) : StepFrame st s (doStep st s).state := by
  cases st with
  | gate => simp only [doStep]; split <;> [exact .refl _ s; exact .opAsBefore _ s]
  | checkDomain vs => simp only [doStep]; split <;> [exact .refl _ s; exact .opAsBefore _ s]
  | checkRequest c => simp only [doStep]; split <;> [exact .refl _ s; exact .opAsBefore _ s]
  | checkTime => simp only [doStep]; split <;> exact .refl _ s
  | compareSentinel =>
    simp only [doStep]
    split <;> exact { StepFrame.refl _ s with present := fun h => absurd rfl h }
  | lineDir l d =>
    exact { StepFrame.refl _ s with
      dirs := fun h => by cases l <;> first | exact ⟨rfl, rfl⟩ | simp [SeqStep.legal] at h
      events := ⟨[.dir l d], by simp [doStep, Progress.state], fun h e he => by
        simp at he; subst he; simpa [SeqStep.legal] using h⟩ }
  | lineWrite l b => exact stepFrame_lineWrite _ l b s
  | delay w =>
    exact { StepFrame.refl _ s with
      events := ⟨[.delay (w.units s.params)], by simp [doStep, Progress.state], fun _ e he => by simp at he; subst he; simp⟩ }
  | txbit b => simp only [doStep, txbitStep]; split <;> [exact stepFrame_lineWrite _ _ _ s; exact .opAsBefore _ s]
  | txShift => simp only [doStep, txbitStep]; split <;> [exact stepFrame_lineWrite _ _ _ s; exact .opAsBefore _ s]
  | rxbit => simp only [doStep, rxbitStep]; split <;> [exact stepFrame_read _ _ s (by simp); exact .opAsBefore _ s]
  | rxShift => simp only [doStep, rxbitStep]; split <;> [exact stepFrame_read _ _ s (by simp); exact .opAsBefore _ s]
  | shiftRight => exact .work _ s _ rfl
  | nextBit => exact .work _ s _ rfl
  | load src => exact .work _ s _ rfl
  | command a f => exact .work _ s _ rfl
  | save l => exact .work _ s _ (put_opBefore l _ _)
  | storeR => exact { StepFrame.refl _ s with r := fun h => absurd rfl h }
  | storeTime => exact { StepFrame.refl _ s with time := fun h => absurd rfl h }
  | setStatus e => exact { StepFrame.refl _ s with status := fun h => absurd rfl (h e) }
  | release => exact { StepFrame.refl _ s with opBefore := fun h => absurd rfl h, busy := fun h => absurd rfl h }

/-! ### Lists of steps -/

/-- A step that may stand inside a program: not one of the two of `returnSteps` (R27), and legal (R21). -/
def SeqStep.inner : SeqStep → Bool
  | .release => false
  | .setStatus _ => false
  | st => st.legal

theorem SeqStep.inner_spec {st : SeqStep} (h : st.inner = true) :
    st ≠ .release ∧ (∀ e, st ≠ .setStatus e) ∧ st.legal = true := by
  cases st <;> simp_all [SeqStep.inner, SeqStep.legal]

/-- What running a list of inner steps leaves, whether it raises or not. -/
structure RunFrame (prog : List SeqStep) (s u : State) : Prop where
  params : u.params = s.params
  answer : u.answer = s.answer
  text : u.text = s.text
  inputs : u.inputs = s.inputs
  op : u.regs.op = s.regs.op ∨ u.regs.op = s.work.opBefore
  opBefore : u.work.opBefore = s.work.opBefore
  a : u.regs.a = s.regs.a
  v : u.regs.v = s.regs.v
  cCode : u.regs.cCode = s.regs.cCode
  cArg : u.regs.cArg = s.regs.cArg
  status : u.regs.status = s.regs.status
  raised : u.raised = s.raised
  busy : u.busy = s.busy
  seq : u.seq = s.seq
  dirRst : u.lines.dirRst = s.lines.dirRst
  dirClk : u.lines.dirClk = s.lines.dirClk
  present : .compareSentinel ∉ prog → u.present = s.present
  r : .storeR ∉ prog → u.regs.r = s.regs.r
  time : .storeTime ∉ prog → u.regs.time = s.regs.time
  chip : (∀ dev, s.env = .echo dev → dev.mem.wf) → ∀ dev, u.env = .echo dev → dev.mem.wf
  events : ∃ tr, u.events = s.events ++ tr ∧
    ∀ e ∈ tr, (∀ l d, e = .dir l d → l = .dat) ∧ ∀ l b, e = .read l b → l = .dat

theorem RunFrame.refl (prog : List SeqStep) (s : State) : RunFrame prog s s :=
  { params := rfl, answer := rfl, text := rfl, inputs := rfl, op := .inl rfl, a := rfl, v := rfl, cCode := rfl, cArg := rfl, status := rfl,
    opBefore := rfl, raised := rfl, busy := rfl, seq := rfl, dirRst := rfl, dirClk := rfl, present := fun _ => rfl, r := fun _ => rfl,
    time := fun _ => rfl, chip := fun h => h, events := ⟨[], by simp, fun e he => by simp at he⟩ }

theorem RunFrame.cons {st : SeqStep} {prog : List SeqStep} {s t u : State} (hst : st.inner = true)
    (h1 : StepFrame st s t) (h2 : RunFrame prog t u) : RunFrame (st :: prog) s u := by
  obtain ⟨hrel, hset, hleg⟩ := SeqStep.inner_spec hst
  obtain ⟨tr1, he1, hl1⟩ := h1.events
  obtain ⟨tr2, he2, hl2⟩ := h2.events
  exact
    { params := h2.params.trans h1.params, answer := h2.answer.trans h1.answer, text := h2.text.trans h1.text, inputs := h2.inputs.trans h1.inputs,
      op := h2.op.elim (fun h => h1.op.imp h.trans h.trans) (fun h => .inr (h.trans (h1.opBefore hrel))),
      opBefore := h2.opBefore.trans (h1.opBefore hrel), a := h2.a.trans h1.a, v := h2.v.trans h1.v, cCode := h2.cCode.trans h1.cCode,
      cArg := h2.cArg.trans h1.cArg, status := h2.status.trans (h1.status hset).1,
      raised := h2.raised.trans (h1.status hset).2, busy := h2.busy.trans (h1.busy hrel).1,
      seq := h2.seq.trans (h1.busy hrel).2, dirRst := h2.dirRst.trans (h1.dirs hleg).1,
      dirClk := h2.dirClk.trans (h1.dirs hleg).2,
      present := fun h => (h2.present (fun hm => h (by simp [hm]))).trans (h1.present (fun hm => h (by simp [hm]))),
      r := fun h => (h2.r (fun hm => h (by simp [hm]))).trans (h1.r (fun hm => h (by simp [hm]))),
      time := fun h => (h2.time (fun hm => h (by simp [hm]))).trans (h1.time (fun hm => h (by simp [hm]))),
      chip := fun h => h2.chip (h1.chip h),
      events := ⟨tr1 ++ tr2, by rw [he2, he1, List.append_assoc], fun e he => by
        rcases List.mem_append.mp he with he | he
        · exact hl1 hleg e he
        · exact hl2 e he⟩ }

/-- What a list of inner steps can do. -/
theorem runSteps_frame (prog : List SeqStep) (s : State) (h : ∀ st ∈ prog, st.inner = true) :
    RunFrame prog s (runSteps prog s).state := by
  induction prog generalizing s with
  | nil => exact .refl [] s
  | cons st prog ih =>
    have h1 := doStep_frame st s
    rw [runSteps_cons]
    cases hd : doStep st s with
    | goOn t =>
      rw [hd] at h1
      exact .cons (h st (by simp)) h1 (ih t (fun x hx => h x (by simp [hx])))
    | raised e t =>
      rw [hd] at h1
      exact .cons (h st (by simp)) h1 (.refl prog t)

/-! ### What the programs are made of -/

/-- The steps of a transaction: none stores a result, compares or writes a flag. -/
def SeqStep.plain : SeqStep → Bool
  | .storeR | .storeTime | .compareSentinel | .gate | .checkDomain _ | .checkRequest _ | .checkTime => false
  | st => st.inner

theorem plain_inner {st : SeqStep} (h : st.plain = true) : st.inner = true := by
  cases st <;> first | exact h | cases h

theorem plain_append {xs ys : List SeqStep} (hx : ∀ st ∈ xs, st.plain = true) (hy : ∀ st ∈ ys, st.plain = true) :
    ∀ st ∈ xs ++ ys, st.plain = true := fun st h => (List.mem_append.mp h).elim (hx st) (hy st)

theorem plain_one {st : SeqStep} (h : st.plain = true) : ∀ x ∈ [st], x.plain = true := fun x hx => by
  rw [List.mem_singleton.mp hx]; exact h

theorem plain_loop {body : List SeqStep} (h : ∀ st ∈ body, st.plain = true) (n : Nat) :
    ∀ st ∈ loopSteps n body, st.plain = true := by
  induction n with
  | zero => intro st hm; simp [loopSteps] at hm
  | succ n ih => rw [loopSteps_succ]; exact plain_append h ih

theorem plain_busReset : ∀ st ∈ busResetSteps, st.plain = true := by decide
theorem plain_start : ∀ st ∈ startSteps, st.plain = true := by decide
theorem plain_stop : ∀ st ∈ stopSteps, st.plain = true := by decide
theorem plain_clock : ∀ st ∈ clockSteps, st.plain = true := by decide
theorem plain_opening : ∀ st ∈ openingSteps, st.plain = true := by decide
theorem plain_sendBit : ∀ st ∈ sendBitSteps, st.plain = true := by decide
theorem plain_recvBit : ∀ st ∈ recvBitSteps, st.plain = true := by decide

theorem plain_send (src : ByteSrc) : ∀ st ∈ sendSteps src, st.plain = true := by
  rw [sendSteps]
  refine plain_append ?_ (plain_loop plain_sendBit 8)
  exact plain_append (xs := [_]) (plain_one rfl) (plain_one rfl)

theorem plain_recv : ∀ st ∈ recvSteps, st.plain = true := by
  rw [recvSteps]
  refine plain_append ?_ (plain_loop plain_recvBit 8)
  exact plain_append (xs := [_]) (plain_one rfl) (plain_one rfl)

theorem plain_readbyte (a : Byte) (l : Local) : ∀ st ∈ readbyteSteps a l, st.plain = true := by
  rw [readbyteSteps]
  exact plain_append (plain_append (plain_append (plain_append (plain_append plain_opening (plain_one rfl))
    (plain_send _)) plain_recv) plain_stop) (plain_one rfl)

theorem plain_writebyte (a : Byte) (src : ByteSrc) : ∀ st ∈ writebyteSteps a src, st.plain = true := by
  rw [writebyteSteps]
  exact plain_append (plain_append (plain_append (plain_append plain_opening (plain_one rfl)) (plain_send _))
    (plain_send _)) plain_stop

/-- A list of plain steps, but for those named. -/
def PlainBut (but : List SeqStep) (prog : List SeqStep) : Prop := ∀ st ∈ prog, st.plain = true ∨ st ∈ but

theorem PlainBut.of_plain {but prog : List SeqStep} (h : ∀ st ∈ prog, st.plain = true) : PlainBut but prog :=
  fun st hm => .inl (h st hm)

theorem PlainBut.of_sub {but prog : List SeqStep} (h : ∀ st ∈ prog, st ∈ but) : PlainBut but prog :=
  fun st hm => .inr (h st hm)

theorem PlainBut.append {but xs ys : List SeqStep} (hx : PlainBut but xs) (hy : PlainBut but ys) :
    PlainBut but (xs ++ ys) := fun st h => (List.mem_append.mp h).elim (hx st) (hy st)

theorem PlainBut.readReg {but : List SeqStep} (r : ChipReg) (l : Local) : PlainBut but (readRegSteps r l) :=
  .of_plain (plain_readbyte _ l)

theorem PlainBut.writeReg {but : List SeqStep} (r : ChipReg) (v : ByteSrc) : PlainBut but (writeRegSteps r v) :=
  .of_plain (plain_writebyte _ v)

/-- The steps of each program that are not plain. -/
def specialSteps : Instr → State → List SeqStep
  | .rxbit, _ | .recvbits, _ | .readbyte, _ | .cmdRead _, _ => [.storeR]
  | .rdSeconds, _ | .rdMinutes, _ | .rdHours, _ | .rdDate, _ | .rdMonth, _ | .rdDay, _ | .rdYear, _ | .rdTrickle, _
  | .rdRam0, _ => [.storeR]
  | .readTime, _ => [.gate, .checkTime, .storeTime]
  | .setTime, s => [.gate, .checkDomain (bcdOperands s.regs.time)]
  | .tcGet, _ => [.gate, .storeR]
  | .tcSet, _ | .tcStrength, _ => [.gate]
  | .ctrl, s => [.gate, .checkRequest s.regs.cCode]
  | .selftest, _ => [.compareSentinel]
  | _, _ => []

theorem plainBut_readbyte (a : Byte) : PlainBut [.storeR] (readbyteProgram a) :=
  .append (.of_plain (plain_readbyte a .got)) (.of_sub (by simp))

theorem plainBut_readTime : PlainBut [.gate, .checkTime, .storeTime] readTimeProgram := by
  rw [readTimeProgram]
  exact ((((((((PlainBut.of_sub (by simp)).append (.readReg _ _)).append (.readReg _ _)).append (.readReg _ _)).append
    (.readReg _ _)).append (.readReg _ _)).append (.readReg _ _)).append (.readReg _ _)).append (.of_sub (by simp))

theorem plainBut_setTime (t : CalendarTime) : PlainBut [.gate, .checkDomain (bcdOperands t)] (setTimeProgram t) := by
  rw [setTimeProgram]
  exact (((((((((((PlainBut.of_sub (by simp)).append (.readReg _ _)).append (.writeReg _ _)).append (.writeReg _
      _)).append
    (.writeReg _ _)).append (.writeReg _ _)).append (.writeReg _ _)).append (.writeReg _ _)).append (.writeReg _
        _)).append
    (.writeReg _ _)).append (.readReg _ _)).append (.writeReg _ _)

theorem plainBut_tcStrength (a : Byte) : PlainBut [.gate] (tcStrengthProgram a) :=
  (PlainBut.of_sub (by simp)).append (.writeReg _ _)

theorem plainBut_selftest : PlainBut [.compareSentinel] selftestProgram :=
  (((PlainBut.of_plain plain_busReset).append (.writeReg _ _)).append (.readReg _ _)).append (.of_sub (by simp))

/-- Every program is made of plain steps and of the special ones of its instruction. -/
theorem program_plainBut (i : Instr) (s : State) : PlainBut (specialSteps i s) (program i s) := by
  cases i
  case reset => exact .of_plain plain_busReset
  case start => exact .of_plain plain_start
  case stop => exact .of_plain plain_stop
  case clock => exact .of_plain plain_clock
  case txbit => exact .of_plain (plain_one rfl)
  case rxbit => exact PlainBut.append (xs := [.rxbit]) (.of_plain (plain_one rfl)) (.of_sub (by simp [specialSteps]))
  case sendbits => exact .of_plain (plain_send _)
  case recvbits =>
    exact (PlainBut.of_plain plain_recv).append
      (PlainBut.append (xs := [.save .got]) (.of_plain (plain_one rfl)) (.of_sub (by simp [specialSteps])))
  case readTime => exact plainBut_readTime
  case setTime => exact plainBut_setTime s.regs.time
  case tcGet => exact ((PlainBut.of_sub (by simp [specialSteps])).append (.readReg _ _)).append (.of_sub (by simp
      [specialSteps]))
  case tcSet => exact (PlainBut.of_sub (by simp [specialSteps])).append (.writeReg _ _)
  case tcStrength => exact plainBut_tcStrength _
  case ctrl =>
    exact (PlainBut.of_sub (by simp [specialSteps])).append (.append (.of_sub (by simp [specialSteps])) (.writeReg _ _))
  case selftest => exact plainBut_selftest
  case readbyte => exact plainBut_readbyte _
  case cmdRead => exact plainBut_readbyte _
  case writebyte => exact .of_plain (plain_writebyte _ _)
  case cmdWrite => exact .of_plain (plain_writebyte _ _)
  case rdSeconds | rdMinutes | rdHours | rdDate | rdMonth | rdDay | rdYear | rdTrickle | rdRam0 =>
    exact plainBut_readbyte _
  all_goals exact .of_plain (plain_writebyte _ _)

theorem specialSteps_inner (i : Instr) (s : State) : ∀ st ∈ specialSteps i s, st.inner = true := by
  cases i <;> simp [specialSteps, SeqStep.inner, SeqStep.legal]

/-- Which operations return a byte in `R`. -/
theorem specialSteps_storeR (i : Instr) (s : State) (h : SeqStep.storeR ∈ specialSteps i s) :
    i ∈ ([.rxbit, .recvbits, .readbyte, .tcGet] : List Instr) ∨ (∃ a, i = .cmdRead a) ∨ ∃ r, i = readRow r := by
  cases i <;> simp [specialSteps] at h <;> first
    | exact .inr (.inl ⟨_, rfl⟩)
    | exact .inr (.inr ⟨.seconds, rfl⟩)
    | exact .inr (.inr ⟨.minutes, rfl⟩)
    | exact .inr (.inr ⟨.hours, rfl⟩)
    | exact .inr (.inr ⟨.date, rfl⟩)
    | exact .inr (.inr ⟨.month, rfl⟩)
    | exact .inr (.inr ⟨.day, rfl⟩)
    | exact .inr (.inr ⟨.year, rfl⟩)
    | exact .inr (.inr ⟨.trickle, rfl⟩)
    | exact .inr (.inr ⟨.ram0, rfl⟩)
    | exact .inl (by simp)

theorem specialSteps_storeTime (i : Instr) (s : State) (h : SeqStep.storeTime ∈ specialSteps i s) : i = .readTime := by
  cases i <;> simp [specialSteps] at h ⊢

theorem specialSteps_compare (i : Instr) (s : State) (h : SeqStep.compareSentinel ∈ specialSteps i s) :
    i = .selftest := by
  cases i <;> simp [specialSteps] at h ⊢

theorem program_special {i : Instr} {s : State} {st : SeqStep} (h : st ∈ program i s) (hp : st.plain = false) :
    st ∈ specialSteps i s := (program_plainBut i s st h).resolve_left (by simp [hp])

theorem program_inner (i : Instr) (s : State) : ∀ st ∈ program i s, st.inner = true := fun st h =>
  (program_plainBut i s st h).elim plain_inner (specialSteps_inner i s st)

/-! ### The block's own steps -/

def Progress.withSeq (q : List SeqStep) : Progress → Progress
  | .goOn s => .goOn { s with seq := q }
  | .raised e s => .raised e { s with seq := q }

/-- No inner step looks at the sequence position. -/
theorem doStep_withSeq (st : SeqStep) (s : State) (q : List SeqStep) (h : st ≠ .release) :
    doStep st { s with seq := q } = (doStep st s).withSeq q := by
  have hread : ∀ s : State, State.afterRead { s with seq := q } = { s.afterRead with seq := q } := fun s => by
    cases he : s.env with
    | free g => cases g <;> simp [State.afterRead, he, State.datLevel]
    | loopback q' => simp [State.afterRead, he, State.datLevel]
    | echo d => simp [State.afterRead, he, State.datLevel]
  have hdat : State.datLevel { s with seq := q } = s.datLevel := rfl
  cases st with
  | release => exact absurd rfl h
  | gate => by_cases hc : s.present = .ok <;> simp [doStep, State.gateOpen, State.opAsBefore, hc, Progress.withSeq]
  | checkDomain vs => by_cases hc : (vs.all fun v => decide (v ≤ 99)) = true <;> simp only [doStep, hc] <;> rfl
  | checkRequest c => by_cases hc : c = Config.ctrlTcStrength <;> simp [doStep, State.opAsBefore, hc, Progress.withSeq]
  | checkTime => by_cases hc : (decodeTime s.params s.work.raw).valid = true <;> simp [doStep, hc, Progress.withSeq]
  | compareSentinel =>
    by_cases hc : s.work.got = 0x42#8 <;> simp [doStep, hc, Progress.withSeq, State.setPresent]
  | txbit b =>
    by_cases hc : s.lines.dirDat = .output <;> simp [doStep, txbitStep, State.opAsBefore, hc, Progress.withSeq, State.lineWrite]
  | txShift =>
    by_cases hc : s.lines.dirDat = .output <;> simp [doStep, txbitStep, State.opAsBefore, hc, Progress.withSeq, State.lineWrite]
  | rxbit =>
    by_cases hc : s.lines.dirDat = .input <;> simp [doStep, rxbitStep, State.opAsBefore, hread, hdat, hc, Progress.withSeq]
  | rxShift =>
    by_cases hc : s.lines.dirDat = .input <;> simp [doStep, rxbitStep, State.opAsBefore, hread, hdat, hc, Progress.withSeq]
  | _ => rfl

theorem ticks_add (m n : Nat) (s : State) : ticks (m + n) s = ticks n (ticks m s) := by
  induction m generalizing s with
  | zero => simp [ticks]
  | succ m ih => rw [Nat.add_right_comm, ticks, ticks, ih]

/-- A list that runs through, taken one step at a time: as many steps as it has, `BUSY` as it was all along. -/
theorem ticks_goOn (xs ys : List SeqStep) (s t : State) (hx : ∀ st ∈ xs, st.inner = true)
    (h : runSteps xs s = .goOn t) :
    ticks xs.length { s with seq := xs ++ ys } = { t with seq := ys } ∧
      ∀ k, k ≤ xs.length → (ticks k { s with seq := xs ++ ys }).busy = s.busy := by
  induction xs generalizing s with
  | nil =>
    rw [runSteps_nil] at h
    cases h
    exact ⟨rfl, fun k hk => by rw [Nat.le_zero.mp hk]; rfl⟩
  | cons st xs ih =>
    have hst := (SeqStep.inner_spec (hx st (by simp))).1
    rw [runSteps_cons] at h
    have hf := doStep_frame st s
    cases hd : doStep st s with
    | raised e u => rw [hd] at h; cases h
    | goOn u =>
      rw [hd] at h hf
      have htick : tick { s with seq := st :: xs ++ ys } = { u with seq := xs ++ ys } := by
        simp only [tick, List.cons_append]
        rw [doStep_withSeq st s (xs ++ ys) hst, hd]
        rfl
      obtain ⟨h1, h2⟩ := ih u (fun x hm => hx x (by simp [hm])) h
      refine ⟨by rw [List.length_cons, ticks, htick, h1], fun k hk => ?_⟩
      cases k with
      | zero => rfl
      | succ k =>
        rw [ticks, htick, h2 k (by simpa using hk)]
        exact (hf.busy hst).1

/-- A list that raises, taken one step at a time: it stops with the two steps of R211 to do. -/
theorem ticks_raised (xs ys : List SeqStep) (s t : State) (e : Status) (hx : ∀ st ∈ xs, st.inner = true)
    (h : runSteps xs s = .raised e t) :
    ∃ n, n ≤ xs.length ∧ ticks n { s with seq := xs ++ ys } = { t with seq := [.setStatus e, .release] } ∧
      ∀ k, k ≤ n → (ticks k { s with seq := xs ++ ys }).busy = s.busy := by
  induction xs generalizing s with
  | nil => rw [runSteps_nil] at h; cases h
  | cons st xs ih =>
    have hst := (SeqStep.inner_spec (hx st (by simp))).1
    rw [runSteps_cons] at h
    have hf := doStep_frame st s
    cases hd : doStep st s with
    | raised e' u =>
      rw [hd] at h hf
      cases h
      have htick : tick { s with seq := st :: xs ++ ys } = { t with seq := [.setStatus e, .release] } := by
        simp only [tick, List.cons_append]
        rw [doStep_withSeq st s (xs ++ ys) hst, hd]
        rfl
      refine ⟨1, by simp, by rw [ticks, htick]; rfl, fun k hk => ?_⟩
      have hb := (hf.busy hst).1
      rcases Nat.le_one_iff_eq_zero_or_eq_one.mp hk with rfl | rfl
      · rfl
      · rw [ticks, htick]; exact hb
    | goOn u =>
      rw [hd] at h hf
      have htick : tick { s with seq := st :: xs ++ ys } = { u with seq := xs ++ ys } := by
        simp only [tick, List.cons_append]
        rw [doStep_withSeq st s (xs ++ ys) hst, hd]
        rfl
      obtain ⟨n, hn, h1, h2⟩ := ih u (fun x hm => hx x (by simp [hm])) h
      refine ⟨n + 1, by simpa using hn, by rw [ticks, htick, h1], fun k hk => ?_⟩
      cases k with
      | zero => rfl
      | succ k =>
        rw [ticks, htick, h2 k (by omega)]
        exact (hf.busy hst).1

theorem seqClosed_cons {st : SeqStep} {rest : List SeqStep} (h : st ≠ .release) : seqClosed (st ::
    rest) = seqClosed rest := by
  cases rest with
  | nil => simp [seqClosed, h]
  | cons x xs => simp [seqClosed, h]

theorem seqClosed_append (xs : List SeqStep) (h : ∀ st ∈ xs, st.inner = true) : seqClosed (xs ++
    returnSteps) = true := by
  induction xs with
  | nil => rfl
  | cons st xs ih =>
    rw [List.cons_append, seqClosed_cons (SeqStep.inner_spec (h st (by simp))).1]
    exact ih (fun x hx => h x (by simp [hx]))

theorem tick_nil {s : State} (hs : s.seq = []) : tick s = s := by rw [tick, hs]

theorem tick_goOn {s t : State} {st : SeqStep} {rest : List SeqStep} (hs : s.seq = st :: rest)
    (hd : doStep st { s with seq := rest } = .goOn t) : tick s = t := by
  rw [tick, hs]; simp only [hd]

theorem tick_raised {s t : State} {e : Status} {st : SeqStep} {rest : List SeqStep} (hs : s.seq = st :: rest)
    (hd : doStep st { s with seq := rest } = .raised e t) : tick s = { t with seq := [.setStatus e, .release] } := by
  rw [tick, hs]; simp only [hd]

theorem ticks_return (s : State) : ticks 2 { s with seq := returnSteps } = s.finish := rfl

theorem program_legal (i : Instr) (s : State) : ∀ st ∈ program i s ++ returnSteps, st.legal = true := fun st h => by
  rcases List.mem_append.mp h with h | h
  · exact (SeqStep.inner_spec (program_inner i s st h)).2.2
  · simp [returnSteps] at h; rcases h with rfl | rfl <;> rfl

theorem exec_frame {i : Instr} {s t : State} (he : exec i s = .next t) :
    (s.busy = true ∧ t = s.refuseBusy) ∨ ∃ e u, RunFrame (program i s) (s.begin (startCode i)) u ∧ t = u.raise e := by
  rw [exec_eq_operate] at he
  have he := Host.Outcome.next.inj he
  subst he
  cases hb : s.busy with
  | true => exact .inl ⟨rfl, operate_busy hb _ _⟩
  | false =>
    have hf := runSteps_frame (program i s) (s.begin (startCode i)) (program_inner i s)
    cases hr : runSteps (program i s) (s.begin (startCode i)) with
    | goOn u => rw [hr] at hf; exact .inr ⟨_, u, hf, operate_goOn hb hr⟩
    | raised e u => rw [hr] at hf; exact .inr ⟨_, u, hf, operate_raised hb hr⟩

theorem not_special {i : Instr} {s : State} {st : SeqStep} (hp : st.plain = false) (h : st ∉ specialSteps i s) :
    st ∉ program i s :=
  fun hm => h (program_special hm hp)

end Sys2Proof.Machine
end

