-- ==== Sys2Proof/Laws/Along.lean ====
section
/-! SUPPORT. What holds of the device's cells at every moment of a running operation (R24, R75): of a list of steps, between
any two of them, and of the block's own steps. -/

namespace Sys2Proof.Machine

/-- `Q` holds in every state a list of steps passes through, the one it starts in and the one it ends in among them. -/
def Along (Q : State → Prop) : List SeqStep → State → Prop
  | [], s => Q s
  | st :: rest, s => Q s ∧ match doStep st s with
    | .goOn t => Along Q rest t
    | .raised _ t => Q t

theorem Along.start {Q : State → Prop} {xs : List SeqStep} {s : State} (h : Along Q xs s) : Q s := by
  cases xs with
  | nil => exact h
  | cons st xs => exact h.1

theorem Along.cons {Q : State → Prop} {st : SeqStep} {xs : List SeqStep} {s t : State} (h : Q s)
    (hd : doStep st s = .goOn t) (k : Along Q xs t) : Along Q (st :: xs) s := ⟨h, by rw [hd]; exact k⟩

theorem Along.append {Q : State → Prop} {xs ys : List SeqStep} {s t : State} (h : Along Q xs s)
    (hr : runSteps xs s = .goOn t) (k : Along Q ys t) : Along Q (xs ++ ys) s := by
  induction xs generalizing s with
  | nil => cases hr; exact k
  | cons st xs ih =>
    obtain ⟨h1, h2⟩ := h
    rw [runSteps_cons] at hr
    cases hd : doStep st s with
    | raised e u => rw [hd] at hr; cases hr
    | goOn u =>
      rw [hd] at hr h2
      exact ⟨h1, by rw [hd]; exact ih h2 hr⟩

/-- The block's own steps pass through the same states, but for the list of steps still to do. -/
theorem Along.ticks {Q : State → Prop} (hQ : ∀ s q, Q s → Q { s with seq := q }) {xs ys : List SeqStep} {s t : State}
    (hx : ∀ st ∈ xs, st.inner = true) (hr : runSteps xs s = .goOn t) (h : Along Q xs s) :
    ∀ k, k ≤ xs.length → Q (Machine.ticks k { s with seq := xs ++ ys }) := by
  induction xs generalizing s with
  | nil => intro k hk; rw [Nat.le_zero.mp hk]; exact hQ s _ h
  | cons st xs ih =>
    intro k hk
    obtain ⟨h1, h2⟩ := h
    cases k with
    | zero => exact hQ s _ h1
    | succ k =>
      rw [runSteps_cons] at hr
      cases hd : doStep st s with
      | raised e u => rw [hd] at hr; cases hr
      | goOn u =>
        rw [hd] at hr h2
        have ht : tick { s with seq := st :: xs ++ ys } = { u with seq := xs ++ ys } := by
          simp only [tick, List.cons_append]
          rw [doStep_withSeq st s (xs ++ ys) (SeqStep.inner_spec (hx st (by simp))).1, hd]
          rfl
        rw [Machine.ticks, ht]
        exact ih (fun x hm => hx x (by simp [hm])) hr h2 k (by simpa using hk)

/-! ### The cells -/

/-- Of all steps only a rising clock edge reaches a cell (R75). -/
theorem doStep_cell {st : SeqStep} (h : st ≠ .lineWrite .clk true) (s : State) (a : Nat) :
    (doStep st s).state.cell a = s.cell a := by
  have hw : ∀ (q : State) (w : Work), State.cell { q with work := w } a = q.cell a := fun q w => cell_of_env rfl a
  cases st with
  | gate => simp only [doStep]; split <;> exact cell_of_env rfl a
  | checkDomain vs => simp only [doStep]; split <;> exact cell_of_env rfl a
  | checkRequest c => simp only [doStep]; split <;> exact cell_of_env rfl a
  | checkTime => simp only [doStep]; split <;> rfl
  | compareSentinel => simp only [doStep]; split <;> exact cell_of_env rfl a
  | lineWrite l b => exact lineWrite_cell l b s (fun hh => h (by rw [hh.1, hh.2])) a
  | txbit b =>
    simp only [doStep, txbitStep]; split
    · exact lineWrite_cell _ _ _ (by simp) a
    · exact cell_of_env rfl a
  | txShift =>
    simp only [doStep, txbitStep]; split
    · exact lineWrite_cell _ _ _ (by simp) a
    · exact cell_of_env rfl a
  | rxbit =>
    simp only [doStep, rxbitStep]; split
    · exact (hw _ _).trans (afterRead_cell s a)
    · exact cell_of_env rfl a
  | rxShift =>
    simp only [doStep, rxbitStep]; split
    · exact (hw _ _).trans (afterRead_cell s a)
    · exact cell_of_env rfl a
  | _ => exact cell_of_env rfl a

/-- What holds of a cell holds of it along a list without a rising clock edge. -/
theorem along_quiet {P : Byte → Prop} {a : Nat} (xs : List SeqStep) (s : State)
    (hx : ∀ st ∈ xs, st ≠ .lineWrite .clk true) (h : P (s.cell a)) : Along (fun t => P (t.cell a)) xs s := by
  induction xs generalizing s with
  | nil => exact h
  | cons st xs ih =>
    have hc := doStep_cell (hx st (by simp)) s a
    refine ⟨h, ?_⟩
    cases hd : doStep st s with
    | goOn u => rw [hd] at hc; exact ih u (fun x hm => hx x (by simp [hm])) (by rw [show u.cell a = s.cell a from hc]; exact h)
    | raised e u => rw [hd] at hc; show P (u.cell a); rw [show u.cell a = s.cell a from hc]; exact h

/-- Such a list leaves the cell as it was. -/
theorem runSteps_quiet {a : Nat} (xs : List SeqStep) (s t : State) (hx : ∀ st ∈ xs, st ≠ .lineWrite .clk true)
    (hr : runSteps xs s = .goOn t) : t.cell a = s.cell a := by
  induction xs generalizing s with
  | nil => cases hr; rfl
  | cons st xs ih =>
    have hc := doStep_cell (hx st (by simp)) s a
    rw [runSteps_cons] at hr
    cases hd : doStep st s with
    | goOn u => rw [hd] at hr hc; exact (ih u (fun x hm => hx x (by simp [hm])) hr).trans hc
    | raised e u => rw [hd] at hr; cases hr

theorem along_sendBit {P : Byte → Prop} {a : Nat} (s : State) (hd : s.lines.dirDat = .output) (h : P (s.cell a))
    (k : P (s.sendBit.cell a)) : Along (fun t => P (t.cell a)) sendBitSteps s := by
  have hu : (s.lineWrite .dat (s.work.shift.getLsbD 0)).cell a = s.cell a := lineWrite_cell _ _ _ (by simp) a
  refine .cons h (t := s.lineWrite .dat (s.work.shift.getLsbD 0)) (by rw [doStep, txbitStep, if_pos hd]) ?_
  refine .cons (by rw [hu]; exact h) (t := (s.lineWrite .dat (s.work.shift.getLsbD 0)).lineWrite .clk true) rfl ?_
  exact along_quiet [.delay .pulse, .lineWrite .clk false, .delay .pulse, .shiftRight] _ (by decide)
    (by rw [← sendBit_cell]; exact k)

theorem along_recvBit {P : Byte → Prop} {a : Nat} (s : State) (hd : s.lines.dirDat = .input) (h : P (s.cell a)) :
    Along (fun t => P (t.cell a)) recvBitSteps s := by
  have hq : ∀ (q : State) (w : Work), State.cell { q with work := w } a = q.cell a := fun q w => cell_of_env rfl a
  refine .cons h (by rw [doStep, rxbitStep, if_pos hd]) ?_
  refine .cons (by rw [hq, afterRead_cell]; exact h) rfl ?_
  refine along_quiet [.delay .pulse, .lineWrite .clk false, .delay .pulse, .nextBit] _ (by decide) ?_
  rw [(risingEdge_cell _ a).1, hq, afterRead_cell]
  · exact h
  · unfold State.pulseStores
    split
    · rw [if_neg (by simp [hd])]; simp
    · simp

theorem sendBits_dirDat (n : Nat) (s : State) : (State.sendBits n s).lines.dirDat = s.lines.dirDat := by
  induction n generalizing s with
  | zero => rfl
  | succ n ih => rw [State.sendBits, ih, sendBit_dirDat]

theorem along_sendLoop {P : Byte → Prop} {a : Nat} (n : Nat) (s : State) (hd : s.lines.dirDat = .output)
    (h : ∀ i, i ≤ n → P ((State.sendBits i s).cell a)) : Along (fun t => P (t.cell a)) (loopSteps n sendBitSteps) s := by
  induction n generalizing s with
  | zero => exact h 0 (Nat.le_refl 0)
  | succ n ih =>
    rw [loopSteps_succ]
    exact (along_sendBit s hd (h 0 (by omega)) (h 1 (by omega))).append (run_sendBit s hd)
      (ih s.sendBit (by simpa using hd) (fun i hi => h (i + 1) (by omega)))

theorem along_recvLoop {P : Byte → Prop} {a : Nat} (n : Nat) (s : State) (hd : s.lines.dirDat = .input)
    (h : P (s.cell a)) : Along (fun t => P (t.cell a)) (loopSteps n recvBitSteps) s := by
  induction n generalizing s with
  | zero => exact h
  | succ n ih =>
    rw [loopSteps_succ]
    exact (along_recvBit s hd h).append (run_recvBit s hd)
      (ih s.recvBit (by simpa using hd) (by rw [recvBit_cell s hd]; exact h))

/-! ### Transactions -/

theorem run_sendHead (src : ByteSrc) (s : State) :
    runSteps [.lineDir .dat .output, .load src] s = .goOn (State.sending (src.value s.work) s) := rfl

/-- Along `sendbits`, by what holds after each number of bits. -/
theorem along_send {P : Byte → Prop} {a : Nat} (src : ByteSrc) (s : State)
    (h : ∀ i, i ≤ 8 → P ((State.sendBits i (State.sending (src.value s.work) s)).cell a)) :
    Along (fun t => P (t.cell a)) (sendSteps src) s := by
  have h0 : P (s.cell a) := h 0 (by omega)
  exact (along_quiet [.lineDir .dat .output, .load src] s (by simp) h0).append (run_sendHead src s)
    (along_sendLoop 8 _ rfl h)

theorem along_recv {P : Byte → Prop} {a : Nat} (s : State) (h : P (s.cell a)) :
    Along (fun t => P (t.cell a)) recvSteps s :=
  (along_quiet [.lineDir .dat .input, .load (.lit 0)] s (by simp) h).append (t := s.listening) rfl
    (along_recvLoop 8 _ rfl h)

theorem opening_cell (s : State) (a : Nat) : s.opening.cell a = s.cell a :=
  runSteps_quiet openingSteps s _ (by decide) (run_opening s)

/-- The state in which a transaction has sent its command byte. -/
def State.commanded (address : Byte) (f : RW) (s : State) : State :=
  (s.opening.withCmd (encodeCommand address f)).sent (encodeCommand address f)

/-- The head of every transaction: the opening and the command byte (R146, R147). -/
def headSteps (address : Byte) (f : RW) : List SeqStep := openingSteps ++ [.command address f] ++ sendSteps .cmd

theorem run_head (address : Byte) (f : RW) (s : State) :
    runSteps (headSteps address f) s = .goOn (s.commanded address f) := by
  rw [headSteps, runSteps_append, runSteps_append, run_opening, bind_goOn, runSteps_cons, doStep, bind_goOn,
    runSteps_nil, bind_goOn, run_send]
  rfl

theorem commanded_echo (address : Byte) (f : RW) (s : State) {dev : EchoDevice} (h : s.env = .echo dev) :
    (s.commanded address f).env = .echo { mem := dev.mem, n := 8, c := encodeCommand address f, d := 0 } :=
  sent_echo_command _ _ (dev := { dev with n := 0, c := 0, d := 0 }) (opening_echo s h) rfl rfl rfl

/-- The command byte reaches no cell. -/
theorem along_head {P : Byte → Prop} {a : Nat} (address : Byte) (f : RW) (s : State) {dev : EchoDevice}
    (he : s.env = .echo dev) (h : P (s.cell a)) : Along (fun t => P (t.cell a)) (headSteps address f) s := by
  have hc : (s.opening.withCmd (encodeCommand address f)).cell a = s.cell a :=
    (cell_of_env rfl a).trans (opening_cell s a)
  have hr : runSteps (openingSteps ++ [.command address f]) s =
      .goOn (s.opening.withCmd (encodeCommand address f)) := by
    rw [runSteps_append, run_opening]; rfl
  refine (along_quiet (openingSteps ++ [.command address f]) s (fun st hm => ?_) h).append hr (along_send .cmd _ ?_)
  · rcases List.mem_append.mp hm with hm | hm
    · exact (by decide : ∀ st ∈ openingSteps, st ≠ .lineWrite .clk true) st hm
    · rw [List.mem_singleton.mp hm]; simp
  · intro i hi
    have hO : (State.sending (ByteSrc.cmd.value (s.opening.withCmd (encodeCommand address f)).work)
        (s.opening.withCmd (encodeCommand address f))).env = .echo { dev with n := 0, c := 0, d := 0 } := opening_echo s he
    rw [sendBits_cell i _ _ a hO rfl (.inr (by simp only; omega)) (by simp)]
    exact hc.symm ▸ h

/-- A read transaction changes no cell at any moment. -/
theorem along_readbyte {P : Byte → Prop} {a : Nat} (address : Byte) (dst : Local) (s : State) {dev : EchoDevice}
    (he : s.env = .echo dev) (h : P (s.cell a)) : Along (fun t => P (t.cell a)) (readbyteSteps address dst) s := by
  have hc : (s.commanded address .read).cell a = s.cell a := by rw [cell_echo (commanded_echo _ _ s he), cell_echo he]
  have e : readbyteSteps address dst = headSteps address .read ++ (recvSteps ++ (stopSteps ++ [.save dst])) := by
    simp only [readbyteSteps, headSteps, List.append_assoc]
  rw [e]
  refine (along_head address .read s he h).append (run_head _ _ s) ?_
  refine (along_recv _ (by rw [hc]; exact h)).append (run_recv _) ?_
  exact along_quiet _ _ (by simp [stopSteps]) (by rw [received_cell, hc]; exact h)

/-- Up to the sixteenth pulse of a write transaction its data bits reach no cell. -/
theorem sendingBits_cell (address v : Byte) (s : State) {dev : EchoDevice} (he : s.env = .echo dev) (a i : Nat) (hi : i ≤ 7) :
    (State.sendBits i (State.sending v (s.commanded address .write))).cell a = s.cell a := by
  have hE : (State.sending v (s.commanded address .write)).env = _ := commanded_echo address .write s he
  have hclk : (State.sending v (s.commanded address .write)).lines.outClk = false := by
    show (s.commanded address .write).lines.outClk = false
    rw [State.commanded, sent_lines]
  rw [sendBits_cell i _ _ a hE hclk (.inl (Nat.le_refl 8)) (by simp only; omega), cell_echo hE, cell_echo he]

theorem writeTx_eq (address v : Byte) (s : State) :
    s.writeTx address v = ((s.commanded address .write).sent v).lineWrite .rst false := rfl

/-- Along a write transaction a cell has its old value or its new one. -/
theorem along_writebyte {P : Byte → Prop} {a : Nat} (address : Byte) (src : ByteSrc) (hsrc : src ≠ .cmd) (s : State)
    {dev : EchoDevice} (he : s.env = .echo dev) (h : P (s.cell a)) (k : P ((s.writeTx address (src.value s.work)).cell a)) :
    Along (fun t => P (t.cell a)) (writebyteSteps address src) s := by
  have hval : src.value (s.commanded address .write).work = src.value s.work := by
    rw [State.commanded, sent_work]
    cases src with
    | cmd => exact absurd rfl hsrc
    | lit v => rfl
    | halt => rfl
    | resume => rfl
  have e : writebyteSteps address src = headSteps address .write ++ (sendSteps src ++ stopSteps) := by
    simp only [writebyteSteps, headSteps, List.append_assoc]
  rw [writeTx_eq, lineWrite_cell _ _ _ (by simp)] at k
  rw [e]
  refine (along_head address .write s he h).append (run_head _ _ s) ?_
  refine (along_send src _ (fun i hi => ?_)).append (run_send src _) ?_
  · rw [hval]
    by_cases h8 : i = 8
    · rw [h8, ← sent_eq]; exact k
    · rw [sendingBits_cell address _ s he a i (by omega)]; exact h
  · rw [hval]; exact along_quiet _ _ (by simp [stopSteps]) k

/-- A write transaction up to its sixteenth rising edge, and what comes after it. -/
def writeHead (address : Byte) (src : ByteSrc) : List SeqStep :=
  headSteps address .write ++ ([.lineDir .dat .output, .load src] ++ (loopSteps 7 sendBitSteps ++ [.txShift]))

def writeTail : List SeqStep :=
  [.delay .pulse, .lineWrite .clk false, .delay .pulse, .shiftRight] ++ stopSteps

theorem writebyteSteps_split (address : Byte) (src : ByteSrc) :
    writebyteSteps address src = writeHead address src ++ .lineWrite .clk true :: writeTail := by
  have h : sendSteps src = [.lineDir .dat .output, .load src] ++ (loopSteps 7 sendBitSteps ++
      ([.txShift] ++ (.lineWrite .clk true :: [.delay .pulse, .lineWrite .clk false, .delay .pulse, .shiftRight]))) := rfl
  rw [writebyteSteps, h, writeHead, writeTail, headSteps]
  simp only [List.append_assoc, List.cons_append, List.nil_append]

/-- A write transaction of a literal has its old cells up to its sixteenth rising edge and its new ones after. -/
theorem along_writeSplit {P Q : Byte → Prop} {a : Nat} (address v : Byte) (s : State) {dev : EchoDevice}
    (he : s.env = .echo dev) (h : P (s.cell a)) (k : Q ((s.writeTx address v).cell a)) :
    Along (fun t => P (t.cell a)) (writeHead address (.lit v)) s ∧
      ∃ u w, runSteps (writeHead address (.lit v)) s = .goOn u ∧ doStep (.lineWrite .clk true) u = .goOn w ∧
        Along (fun t => Q (t.cell a)) writeTail w ∧ runSteps writeTail w = .goOn (s.writeTx address v) := by
  have hs := fun i hi => sendingBits_cell address v s he a i hi
  have hd7 : (State.sendBits 7 (State.sending v (s.commanded address .write))).lines.dirDat = .output := by
    rw [sendBits_dirDat]; rfl
  have hloop := run_sendLoop 7 (State.sending v (s.commanded address .write)) rfl
  have htx : runSteps [.txShift] (State.sendBits 7 (State.sending v (s.commanded address .write))) = .goOn
      ((State.sendBits 7 (State.sending v (s.commanded address .write))).lineWrite .dat
        ((State.sendBits 7 (State.sending v (s.commanded address .write))).work.shift.getLsbD 0)) := by
    rw [runSteps_cons, doStep, txbitStep, if_pos hd7]; rfl
  refine ⟨?_, (State.sendBits 7 (State.sending v (s.commanded address .write))).lineWrite .dat
    ((State.sendBits 7 (State.sending v (s.commanded address .write))).work.shift.getLsbD 0), _, ?_, rfl, ?_, ?_⟩
  · refine (along_head address .write s he h).append (run_head _ _ s) ?_
    have h0 : P ((s.commanded address .write).cell a) := by rw [← hs 0 (by omega)] at h; exact h
    refine (along_quiet _ _ (by simp) h0).append (run_sendHead (.lit v) _) ?_
    refine (along_sendLoop 7 _ rfl (fun i hi => (hs i hi).symm ▸ h)).append hloop ?_
    exact along_quiet _ _ (by simp) (by rw [hs 7 (by omega)]; exact h)
  · rw [writeHead, runSteps_append, run_head, bind_goOn, runSteps_append, run_sendHead, bind_goOn, runSteps_append]
    rw [show ByteSrc.value _ (.lit v) = v from rfl, hloop, bind_goOn, htx]
  · refine along_quiet _ _ (by simp [writeTail, stopSteps]) ?_
    rw [writeTx_eq, lineWrite_cell _ _ _ (by simp)] at k
    rw [← sendBit_cell]
    exact k
  · rfl

/-- At the sixteenth rising edge of a write transaction 84 of its 88 entries have been issued. -/
theorem writeSplit_events {address v : Byte} {s w : State} (h : runSteps writeTail w = .goOn (s.writeTx address v)) :
    w.events = s.events ++ (writeTrace s.params (encodeCommand address .write) v).take 84 := by
  have hp : (s.writeTx address v).params = s.params := (linesOnly_writeTx address v s).params
  have he := writeTx_events address v s
  generalize s.writeTx address v = t at *
  cases h
  have hd : (writeTrace s.params (encodeCommand address .write) v).drop 84 =
      [.delay s.params.tPulse, .write .clk false, .delay s.params.tPulse, .write .rst false] := rfl
  have hw : w.params = s.params := hp
  rw [← List.take_append_drop 84 (writeTrace s.params (encodeCommand address .write) v), hd, ← List.append_assoc,
    ← hw] at he
  refine (List.append_inj' (Eq.trans ?_ he) rfl).1.trans (by rw [hw])
  simp [State.events, State.lineWrite, State.delay, Wait.units]

end Sys2Proof.Machine
end

