-- ==== Sys2Proof/Laws/PerInstr.lean ====
section
/-! SUPPORT. The one statement made for every instruction by itself: its word decodes, at its level, to it. -/

namespace Sys2Proof.Laws.RoundTrip

/-- A well-formed instruction is what its encoding decodes to (R92, R93, R99). -/
def Statement (i : Instr) : Prop := i.wellFormed = true → decode (encode i).1 (encode i).2 = .ok i

theorem reset : Statement .reset := fun _ => by decide
theorem start : Statement .start := fun _ => by decide
theorem stop : Statement .stop := fun _ => by decide
theorem clock : Statement .clock := fun _ => by decide
theorem txbit : Statement .txbit := fun _ => by decide
theorem rxbit : Statement .rxbit := fun _ => by decide
theorem sendbits : Statement .sendbits := fun _ => by decide
theorem recvbits : Statement .recvbits := fun _ => by decide
theorem readbyte : Statement .readbyte := fun _ => by decide
theorem writebyte : Statement .writebyte := fun _ => by decide
theorem readTime : Statement .readTime := fun _ => by decide
theorem setTime : Statement .setTime := fun _ => by decide
theorem tcGet : Statement .tcGet := fun _ => by decide
theorem tcSet : Statement .tcSet := fun _ => by decide
theorem tcStrength : Statement .tcStrength := fun _ => by decide
theorem ctrl : Statement .ctrl := fun _ => by decide
theorem selftest : Statement .selftest := fun _ => by decide
theorem wrSeconds : Statement .wrSeconds := fun _ => by decide
theorem rdSeconds : Statement .rdSeconds := fun _ => by decide
theorem wrMinutes : Statement .wrMinutes := fun _ => by decide
theorem rdMinutes : Statement .rdMinutes := fun _ => by decide
theorem wrHours : Statement .wrHours := fun _ => by decide
theorem rdHours : Statement .rdHours := fun _ => by decide
theorem wrDate : Statement .wrDate := fun _ => by decide
theorem rdDate : Statement .rdDate := fun _ => by decide
theorem wrMonth : Statement .wrMonth := fun _ => by decide
theorem rdMonth : Statement .rdMonth := fun _ => by decide
theorem wrDay : Statement .wrDay := fun _ => by decide
theorem rdDay : Statement .rdDay := fun _ => by decide
theorem wrYear : Statement .wrYear := fun _ => by decide
theorem rdYear : Statement .rdYear := fun _ => by decide
theorem wrTrickle : Statement .wrTrickle := fun _ => by decide
theorem rdTrickle : Statement .rdTrickle := fun _ => by decide
theorem wrRam0 : Statement .wrRam0 := fun _ => by decide
theorem rdRam0 : Statement .rdRam0 := fun _ => by decide

theorem cmdRead (a : Address) : Statement (.cmdRead a) := by
  revert a; unfold Statement; decide

theorem cmdWrite (a : Address) : Statement (.cmdWrite a) := by
  revert a; unfold Statement; decide

end Sys2Proof.Laws.RoundTrip
end

