-- ==== Sys2Proof/Laws/Transaction.lean ====
section
/-! SUPPORT. The two transactions as whole operations: once each, everything a read (R146) and a write (R147) can do,
whatever operation they stand in; and that line events depend on the lines and the environment alone. -/

namespace Sys2Proof.Machine

/-- `readbyte` at the host port, run: a read transaction with its byte in `R` (R146). -/
theorem run_readbyteProgram (a : Byte) (s : State) : runSteps (readbyteProgram a) s = .goOn
    { (s.readTx a).keep .got with regs := { s.regs with r := (s.readTx a).work.shift } } := by
  rw [readbyteProgram, runSteps_append, run_readbyte, bind_goOn, runSteps_cons, doStep, bind_goOn, runSteps_nil,
      ← (linesOnly_readTx a s).regs]
  rfl

/-- What an operation that is one read transaction leaves (R146); `code` is the code it was started by. -/
structure ReadTx (code : Option Byte) (addr : Byte) (s t : State) : Prop where
  ended : Ended .ok s t
  ev : t.events = s.events ++ readTrace s.params (encodeCommand addr .read) t.regs.r
  ln : t.lines = { s.lines with outRst := false, outClk := false, dirDat := .input, outDat := true }
  rg : t.regs = { s.regs with op := code.getD s.regs.op, status := 0, r := t.regs.r }
  pr : t.present = s.present
  fr : ∀ b rest, s.env = .free (bitsOf b ++ rest) → t.regs.r = b ∧ t.env = .free rest ∧ t.draws = s.draws
  ec : ∀ dev, s.env = .echo dev → t.env = .echo { mem := dev.mem, n := 16, c := encodeCommand addr .read, d := 0 } ∧
      t.regs.r = s.cell (addr.setWidth 6).toNat
  cl : ∀ a, t.cell a = s.cell a

/-- A read transaction on an idle block, whatever else holds. -/
theorem readTx_op (c : Option Byte) (addr : Byte) (s : State) (hb : s.busy = false) :
    ∃ t, operate c (readbyteProgram addr) s = t ∧ ReadTx c addr s t := by
  refine ⟨_, operate_goOn hb (run_readbyteProgram addr _), ?_⟩
  have L := linesOnly_readTx addr (s.begin c)
  have hev := readTx_events addr (s.begin c)
  have hln := readTx_lines addr (s.begin c)
  have hfr := readTx_free addr (s := s.begin c)
  have hec := fun dev => readTx_echo addr (s.begin c) (dev := dev)
  have hcl := readTx_cell addr (s.begin c)
  rw [encodeCommand_bit7] at hln
  generalize (s.begin c).readTx addr = u at *
  exact
    { ended := Ended.of (c := c) .ok L.raised L.answer L.text L.inputs L.dirRst L.dirClk L.params
      ev := hev, ln := hln, rg := rfl, pr := L.present
      fr := fun b rest h => have ⟨h1, h2, h3⟩ := hfr b rest h; ⟨h3, h1, h2⟩
      ec := fun dev h => have ⟨h1, h2⟩ := hec dev h; ⟨h1, h2.trans (cell_echo h _).symm⟩
      cl := hcl }

/-- What an operation that is one write transaction leaves (R147). -/
structure WriteTx (code : Option Byte) (addr v : Byte) (s t : State) : Prop where
  ended : Ended .ok s t
  ev : t.events = s.events ++ writeTrace s.params (encodeCommand addr .write) v
  ln : t.lines = { s.lines with outRst := false, outClk := false, dirDat := .output, outDat := v.getLsbD 7 }
  rg : t.regs = { s.regs with op := code.getD s.regs.op, status := 0 }
  pr : t.present = s.present
  na : NoAnswerUsed s t
  ec : ∀ dev, s.env = .echo dev →
      t.env = .echo
      { mem := dev.mem.write (addr.setWidth 6).toNat v, n := 16, c := encodeCommand addr .write, d := v }
  cl : ∀ a, a ≠ (addr.setWidth 6).toNat → t.cell a = s.cell a

/-- A write transaction on an idle block, whatever else holds. -/
theorem writeTx_op (c : Option Byte) (addr v : Byte) (s : State) (hb : s.busy = false) :
    ∃ t, operate c (writebyteSteps addr (.lit v)) s = t ∧ WriteTx c addr v s t := by
  have hrun : runSteps (writebyteSteps addr (.lit v)) (s.begin c) = .goOn ((s.begin c).writeTx addr v) :=
      run_writebyte addr (.lit v) _ (by simp)
  refine ⟨_, operate_goOn hb hrun, ?_⟩
  have L := linesOnly_writeTx addr v (s.begin c)
  constructor
  · exact L.ended (c := c) .ok
  · rw [raise_events, writeTx_events, begin_events, begin_params]
  · rw [raise_lines, writeTx_lines, begin_lines]
  · exact L.raise_regs_eq (c := c) .ok
  · rw [raise_present, L.present, begin_present]
  · exact raise_noAnswer _ _ (writeTx_noAnswer _ _ _)
  · intro dev h
    exact writeTx_echo addr v (s.begin c) (dev := dev) h
  · intro a ha; rw [raise_cell]; exact (writeTx_cell _ _ _ ha)

theorem WriteTx.cell {code addr v s t} (h : WriteTx code addr v s t) {dev : EchoDevice} (he : s.env = .echo dev) (hw :
    dev.mem.wf) : t.cell (addr.setWidth 6).toNat = v := by
  rw [cell_echo (h.ec dev he), Memory.read_write _ _ _ hw, if_pos rfl]

/-- With the gate open the gate step is no step (R201). -/
theorem gate_open {s : State} (h : s.present = .ok) (rest : List SeqStep) : runSteps ([.gate] ++
    rest) s = runSteps rest s := by
  rw [List.singleton_append, runSteps_cons, doStep, State.gateOpen, h]; rfl

/-- `tc_get` with the gate open is a read transaction of the trickle register (R191). -/
theorem gated_read (s : State) (hb : s.busy = false) (hp : s.present = .ok) :
    exec .tcGet s = .next (operate (some 0x18#8) (readbyteProgram (addressOperand ChipReg.trickle.address)) s) := by
  show Host.Outcome.next (operate (some 0x18#8) tcGetProgram s) = _
  congr 1
  rw [operate_idle hb, operate_idle hb, runOperation, runOperation, tcGetProgram, List.append_assoc,
      List.append_assoc, gate_open (s := s.begin (some 0x18#8)) hp]
  rw [readbyteProgram, readRegSteps, List.append_assoc]

/-- Two states that a line event cannot tell apart. -/
structure SameView (s t : State) : Prop where
  lines : s.lines = t.lines
  env : s.env = t.env
  draws : s.draws = t.draws

theorem SameView.refl (s : State) : SameView s s := ⟨rfl, rfl, rfl⟩

theorem sameView_lineWrite {s t : State} (h : SameView s t) (l b) : SameView (s.lineWrite l b) (t.lineWrite l b) :=
  ⟨by simp [h.lines], by simp [h.lines, h.env], h.draws⟩

theorem sendBits_view (n : Nat) {s t : State} (h : SameView s t) (hs : s.work.shift = t.work.shift) :
    SameView (State.sendBits n s) (State.sendBits n t) := by
  induction n generalizing s t with
  | zero => exact h
  | succ n ih =>
    refine ih ⟨by rw [sendBit_lines, sendBit_lines, h.lines, hs], by rw [sendBit_env, sendBit_env, h.lines, h.env,
        hs], h.draws⟩ ?_
    rw [sendBit_work, sendBit_work, hs]

theorem sent_view (v : Byte) {s t : State} (h : SameView s t) : SameView (s.sent v) (t.sent v) := by
  rw [sent_eq, sent_eq]
  exact sendBits_view 8 ⟨by simp [State.sending, h.lines], h.env, h.draws⟩ rfl

theorem datLevel_view {s t : State} (h : SameView s t) : s.datLevel = t.datLevel := by
  simp only [State.datLevel, h.lines, h.env, h.draws]

theorem afterRead_view {s t : State} (h : SameView s t) : SameView s.afterRead t.afterRead := by
  obtain ⟨h1, h2, h3⟩ := h
  refine ⟨by simp [h1], ?_, ?_⟩ <;> cases he : t.env with
  | free g => cases g <;> simp [State.afterRead, h2, h3, he]
  | loopback q => simp [State.afterRead, h2, he, h3]
  | echo d => simp [State.afterRead, h2, he, h3]

theorem recvBit_view {s t : State} (h : SameView s t) : SameView s.recvBit t.recvBit := by
  have k := afterRead_view h
  refine ⟨by rw [recvBit_lines, recvBit_lines, h.lines], by rw [recvBit_env, recvBit_env, h.lines, k.env], ?_⟩
  exact k.draws

theorem recvBits_view (n : Nat) {s t : State} (h : SameView s t) :
    SameView (State.recvBits n s) (State.recvBits n t) ∧ State.answers n s = State.answers n t := by
  induction n generalizing s t with
  | zero => exact ⟨h, rfl⟩
  | succ n ih =>
    obtain ⟨k1, k2⟩ := ih (recvBit_view h)
    exact ⟨k1, by rw [State.answers, State.answers, k2, datLevel_view h]⟩

theorem received_view {s t : State} (h : SameView s t) : SameView s.received t.received ∧
    s.received.work.shift = t.received.work.shift := by
  have hl : SameView s.listening t.listening := ⟨by simp [State.listening, h.lines], h.env, h.draws⟩
  obtain ⟨k1, k2⟩ := recvBits_view 8 hl
  rw [received_answers, received_answers] at k2
  exact ⟨k1, bitsOf_injective k2⟩

end Sys2Proof.Machine
end

