-- ==== Sys2Proof/Laws/TimeOps.lean ====
section
/-! SUPPORT. The step lists of `read_time` (R169) and `set_time` (R170),
    run: the seven reads and the eleven transactions,
field by field. -/

namespace Sys2Proof.Machine

/-- The seven reads of R169. -/
def readAll (s : State) : State :=
  ((((((s.readInto .seconds .sec).readInto .minutes .min).readInto .hours .hour).readInto .day .day).readInto .date
      .date).readInto .month .mon).readInto .year .year

/-- `read_time` with the gate open: seven reads, then the check. -/
theorem run_readTime (s : State) (h : s.present = .ok) :
    runSteps readTimeProgram s = runSteps [.checkTime, .storeTime] (readAll s) := by
  rw [readTimeProgram]
  rw [List.append_assoc, List.append_assoc, List.append_assoc, List.append_assoc, List.append_assoc,
      List.append_assoc, List.append_assoc,
   gate_open h, runSteps_append, run_readReg, bind_goOn, runSteps_append, run_readReg, bind_goOn, runSteps_append,
       run_readReg, bind_goOn,
   runSteps_append, run_readReg, bind_goOn, runSteps_append, run_readReg, bind_goOn, runSteps_append, run_readReg,
       bind_goOn, runSteps_append, run_readReg, bind_goOn, readAll]

theorem linesOnly_readAll (s : State) : LinesOnly s (readAll s) :=
  ((((((linesOnly_readInto _ _ s).trans (linesOnly_readInto _ _ _)).trans (linesOnly_readInto _ _ _)).trans
      (linesOnly_readInto _ _ _)).trans (linesOnly_readInto _ _ _)).trans (linesOnly_readInto _ _ _)).trans
      (linesOnly_readInto _ _ _)

theorem readAll_lines (s : State) :
    (readAll s).lines = { s.lines with outRst := false, outClk := false, dirDat := .input, outDat := true } := by
  simp only [readAll, readInto_lines]

theorem readAll_events (s : State) : (readAll s).events = s.events ++ readTimeTrace s.params (readAll s).work.raw := by
  simp only [readAll, readInto_events, readInto_raw, readInto_params, readTimeTrace, Local.put, List.append_assoc]
  rfl

theorem readAll_cell (s : State) (a : Nat) : (readAll s).cell a = s.cell a := by
  simp only [readAll, readInto_cell]

theorem readAll_free (s : State) (c : RawTime) (rest : List Bool) (h : s.env = .free (rawBits c ++ rest)) :
    (readAll s).env = .free rest ∧ (readAll s).draws = s.draws ∧ (readAll s).work.raw = c := by
  simp only [rawBits, List.append_assoc] at h
  obtain ⟨h1, d1, e1⟩ := readInto_free .seconds .sec _ _ s h
  obtain ⟨h2, d2, e2⟩ := readInto_free .minutes .min _ _ _ h1
  obtain ⟨h3, d3, e3⟩ := readInto_free .hours .hour _ _ _ h2
  obtain ⟨h4, d4, e4⟩ := readInto_free .day .day _ _ _ h3
  obtain ⟨h5, d5, e5⟩ := readInto_free .date .date _ _ _ h4
  obtain ⟨h6, d6, e6⟩ := readInto_free .month .mon _ _ _ h5
  obtain ⟨h7, d7, e7⟩ := readInto_free .year .year _ _ _ h6
  refine ⟨h7, by rw [readAll, d7, d6, d5, d4, d3, d2, d1], ?_⟩
  simp only [readAll, readInto_raw, Local.put, e1, e2, e3, e4, e5, e6, e7]

theorem readAll_echo (s : State) {dev : EchoDevice} (h : s.env = .echo dev) :
    (readAll s).work.raw =
        { sec := s.cell 0, min := s.cell 1, hour := s.cell 2, day := s.cell 5, date := s.cell 3, mon := s.cell 4, year := s.cell 6 } ∧
    (readAll s).env = .echo { mem := dev.mem, n := 16, c := 0x8D, d := 0 } := by
  obtain ⟨h1, e1⟩ := readInto_echo .seconds .sec s h
  obtain ⟨h2, e2⟩ := readInto_echo .minutes .min _ h1
  obtain ⟨h3, e3⟩ := readInto_echo .hours .hour _ h2
  obtain ⟨h4, e4⟩ := readInto_echo .day .day _ h3
  obtain ⟨h5, e5⟩ := readInto_echo .date .date _ h4
  obtain ⟨h6, e6⟩ := readInto_echo .month .mon _ h5
  obtain ⟨h7, e7⟩ := readInto_echo .year .year _ h6
  constructor
  · simp only [readAll, readInto_raw, Local.put, e1, e2, e3, e4, e5, e6, e7, cell_echo h]
    rfl
  · exact h7

/-- R167, as a proposition. -/
theorem validTime_iff (sec min hour mday : Nat) (mon : Int) (year : Nat) : validTime sec min hour mday mon year = true ↔
    sec ≤ 59 ∧ min ≤ 59 ∧ hour ≤ 23 ∧ 0 ≤ mon ∧ mon ≤ 11 ∧ 1 ≤ mday ∧ mday ≤ daysInMonth mon.toNat year := by
  simp only [validTime, Bool.and_eq_true, decide_eq_true_eq, and_assoc]

theorem valid_iff (p : Params) (b : RawTime) : (decodeTime p b).valid = true ↔ BytesAreATime p b := by
  rw [DecodedTime.valid, validTime_iff, BytesAreATime]
  simp only [decodeTime]
  have : ∀ m : Nat, 1 ≤ m → ((m : Int) - 1).toNat = m - 1 := by intro m h; omega
  constructor
  · rintro ⟨h1, h2, h3, h4, h5, h6, h7⟩
    rw [this _ (by omega)] at h7
    exact ⟨h1, h2, h3, by omega, by omega, h6, h7⟩
  · rintro ⟨h1, h2, h3, h4, h5, h6, h7⟩
    refine ⟨h1, h2, h3, by omega, by omega, h6, ?_⟩
    rw [this _ h4]; exact h7

theorem toRegs_eq (p : Params) (b : RawTime) (h : BytesAreATime p b) : (decodeTime p b).toRegs = recordOf p b := by
  have : ((decodeBcd p b.mon : Int) - 1).toNat = decodeBcd p b.mon - 1 := by have := h.2.2.2.1; omega
  simp only [DecodedTime.toRegs, decodeTime, recordOf, this]

/-- The first two transactions of R170. -/
def haltClock (s : State) : State :=
  (s.readInto .seconds .secBack).writeReg .seconds (s.byteRead .seconds ||| 0x80#8)

/-- The seven field writes of R170. -/
def writeFields (t : CalendarTime) (s : State) : State :=
  ((((((s.writeReg .seconds (encodeBcd t.sec.toNat)).writeReg .minutes (encodeBcd t.min.toNat)).writeReg .hours
      (encodeBcd t.hour.toNat)).writeReg .day (encodeBcd t.wday.toNat)).writeReg .date (encodeBcd
      t.mday.toNat)).writeReg .month (encodeBcd (t.mon.toNat + 1))).writeReg .year (encodeBcd (t.year.toNat % 100))

/-- The last two transactions of R170. -/
def resumeClock (s : State) : State :=
  (s.readInto .seconds .secBack).writeReg .seconds (s.byteRead .seconds &&& 0x7F#8)

/-- The eleven transactions of R170. -/
def writeAll (t : CalendarTime) (s : State) : State := resumeClock (writeFields t (haltClock s))

theorem fields_iff (t : CalendarTime) : ((bcdOperands t).all fun v => decide (v ≤ 99)) = true ↔
    FieldsAreEncodable t := by
  simp [bcdOperands, FieldsAreEncodable]

theorem run_halt (s : State) : runSteps (readRegSteps .seconds .secBack ++ writeRegSteps .seconds .halt)
    s = .goOn (haltClock s) := by
  rw [runSteps_append, run_readReg, bind_goOn, run_writeReg _ _ _ (by simp), ByteSrc.value, readInto_secBack, haltClock]

theorem run_resume (s : State) : runSteps (readRegSteps .seconds .secBack ++ writeRegSteps .seconds .resume)
    s = .goOn (resumeClock s) := by
  rw [runSteps_append, run_readReg, bind_goOn, run_writeReg _ _ _ (by simp), ByteSrc.value, readInto_secBack,
      resumeClock]

theorem run_writeLit (r : ChipReg) (v : Byte) (s : State) : runSteps (writeRegSteps r (.lit v)) s = .goOn (s.writeReg
    r v) :=
  run_writeReg r (.lit v) s (by simp)

/-- The steps of the seven field writes. -/
def fieldSteps (t : CalendarTime) : List SeqStep :=
  writeRegSteps .seconds (.lit (encodeBcd t.sec.toNat)) ++ writeRegSteps .minutes (.lit (encodeBcd t.min.toNat)) ++
    writeRegSteps .hours (.lit (encodeBcd t.hour.toNat)) ++ writeRegSteps .day (.lit (encodeBcd t.wday.toNat)) ++
    writeRegSteps .date (.lit (encodeBcd t.mday.toNat)) ++ writeRegSteps .month (.lit (encodeBcd (t.mon.toNat + 1))) ++
    writeRegSteps .year (.lit (encodeBcd (t.year.toNat % 100)))

theorem run_fields (t : CalendarTime) (s : State) : runSteps (fieldSteps t) s = .goOn (writeFields t s) := by
  rw [fieldSteps]
  rw [runSteps_append, runSteps_append, runSteps_append, runSteps_append, runSteps_append, runSteps_append,
      run_writeLit, bind_goOn, run_writeLit, bind_goOn, run_writeLit, bind_goOn, run_writeLit, bind_goOn,
      run_writeLit, bind_goOn, run_writeLit, bind_goOn, run_writeLit, writeFields]

theorem setTimeProgram_eq (t : CalendarTime) : setTimeProgram t = [.gate] ++ ([.checkDomain (bcdOperands t)] ++
    ((readRegSteps .seconds .secBack ++ writeRegSteps .seconds .halt) ++ (fieldSteps t ++
        (readRegSteps .seconds .secBack ++ writeRegSteps .seconds .resume)))) := by
  simp only [setTimeProgram, fieldSteps, List.append_assoc, List.cons_append, List.nil_append]

theorem run_setTime (t : CalendarTime) (s : State) (hp : s.present = .ok) (hf : FieldsAreEncodable t) :
    runSteps (setTimeProgram t) s = .goOn (writeAll t s) := by
  rw [setTimeProgram_eq, gate_open hp, List.singleton_append, runSteps_cons, doStep, if_pos ((fields_iff t).mpr hf),
      bind_goOn,
    runSteps_append, run_halt, bind_goOn, runSteps_append, run_fields, bind_goOn, run_resume, writeAll]

theorem linesOnly_halt (s : State) : LinesOnly s (haltClock s) := (linesOnly_readInto _ _ s).trans (linesOnly_writeReg
    _ _ _)

theorem linesOnly_resume (s : State) : LinesOnly s (resumeClock s) :=
    (linesOnly_readInto _ _ s).trans (linesOnly_writeReg _ _ _)

theorem linesOnly_fields (t : CalendarTime) (s : State) : LinesOnly s (writeFields t s) :=
  ((((((linesOnly_writeReg _ _ s).trans (linesOnly_writeReg _ _ _)).trans (linesOnly_writeReg _ _ _)).trans
      (linesOnly_writeReg _ _ _)).trans (linesOnly_writeReg _ _ _)).trans (linesOnly_writeReg _ _ _)).trans
      (linesOnly_writeReg _ _ _)

theorem linesOnly_writeAll (t : CalendarTime) (s : State) : LinesOnly s (writeAll t s) :=
  ((linesOnly_halt s).trans (linesOnly_fields t _)).trans (linesOnly_resume _)

theorem fields_params (t : CalendarTime) (s : State) : (writeFields t s).params = s.params :=
  (linesOnly_fields t s).params

theorem fields_events (t : CalendarTime) (s : State) : (writeFields t s).events = s.events ++
    writeTrace s.params 0x80 (encodeBcd t.sec.toNat) ++
    writeTrace s.params 0x82 (encodeBcd t.min.toNat) ++ writeTrace s.params 0x84 (encodeBcd t.hour.toNat) ++
    writeTrace s.params 0x8A (encodeBcd t.wday.toNat) ++ writeTrace s.params 0x86 (encodeBcd t.mday.toNat) ++
    writeTrace s.params 0x88 (encodeBcd (t.mon.toNat + 1)) ++ writeTrace s.params 0x8C (encodeBcd (t.year.toNat % 100)) := by
  simp only [writeFields, writeReg_events, writeReg_params]
  rfl

/-- The seconds byte read back before the resume (the `s1` of R170). -/
def s1Of (t : CalendarTime) (s : State) : Byte := (writeFields t (haltClock s)).byteRead .seconds

theorem writeAll_events (t : CalendarTime) (s : State) : (writeAll t s).events =
    s.events ++ setTimeTrace s.params t (s.byteRead .seconds) (s1Of t s) := by
  simp only [writeAll, resumeClock, writeReg_events, readInto_events, fields_events, haltClock, setTimeTrace,
      List.append_assoc, fields_params, writeReg_params, readInto_params]
  rfl

theorem writeAll_lines (t : CalendarTime) (s : State) : (writeAll t s).lines =
    { s.lines with outRst := false, outClk := false, dirDat := .output, outDat := (s1Of t s &&& 0x7F#8).getLsbD 7 } :=
        by
  simp only [writeAll, resumeClock, writeReg_lines, readInto_lines, writeFields, haltClock]
  rfl

theorem fields_free (t : CalendarTime) (s : State) {g : List Bool} (h : s.env = .free g) :
    (writeFields t s).env = .free g ∧ (writeFields t s).draws = s.draws := by
  refine ⟨?_, by simp only [writeFields, writeReg_draws]⟩
  exact writeReg_free _ _ _ (writeReg_free _ _ _ (writeReg_free _ _ _ (writeReg_free _ _ _ (writeReg_free _ _ _
      (writeReg_free _ _ _ (writeReg_free _ _ _ h))))))

theorem writeAll_free (t : CalendarTime) (s : State) (x y : Byte) (rest : List Bool) (h : s.env = .free (bitsOf x ++
    bitsOf y ++ rest)) :
    s.byteRead .seconds = x ∧ s1Of t s = y ∧ (writeAll t s).env = .free rest ∧ (writeAll t s).draws = s.draws := by
  rw [List.append_assoc] at h
  obtain ⟨h1, d1, e1⟩ := readInto_free .seconds .secBack x _ s h
  have h2 : (haltClock s).env = _ := writeReg_free .seconds _ _ h1
  have d2 : (haltClock s).draws = s.draws := by rw [haltClock, writeReg_draws, d1]
  obtain ⟨h3, d3⟩ := fields_free t _ h2
  obtain ⟨h4, d4, e4⟩ := readInto_free .seconds .secBack y _ _ h3
  refine ⟨e1, e4, ?_, ?_⟩
  · exact writeReg_free .seconds _ _ h4
  · rw [writeAll, resumeClock, writeReg_draws, d4, d3, d2]

theorem fields_echo (t : CalendarTime) (s : State) {dev : EchoDevice} (h : s.env = .echo dev) :
    ∃ n c d, (writeFields t s).env = .echo
        { mem := ((((((dev.mem.write 0 (encodeBcd t.sec.toNat)).write 1 (encodeBcd t.min.toNat)).write 2 (encodeBcd t.hour.toNat)).write 5 (encodeBcd t.wday.toNat)).write 3 (encodeBcd t.mday.toNat)).write 4 (encodeBcd (t.mon.toNat + 1))).write 6 (encodeBcd (t.year.toNat % 100)), n := n, c := c, d := d } := by
  have h1 := writeReg_echo .seconds (encodeBcd t.sec.toNat) s h
  have h2 := writeReg_echo .minutes (encodeBcd t.min.toNat) _ h1
  have h3 := writeReg_echo .hours (encodeBcd t.hour.toNat) _ h2
  have h4 := writeReg_echo .day (encodeBcd t.wday.toNat) _ h3
  have h5 := writeReg_echo .date (encodeBcd t.mday.toNat) _ h4
  have h6 := writeReg_echo .month (encodeBcd (t.mon.toNat + 1)) _ h5
  have h7 := writeReg_echo .year (encodeBcd (t.year.toNat % 100)) _ h6
  exact ⟨_, _, _, h7⟩

/-- What the eleven transactions leave in the device (R75). -/
theorem writeAll_echo (t : CalendarTime) (s : State) {dev : EchoDevice} (h : s.env = .echo dev) (hw : dev.mem.wf) :
    s.byteRead .seconds = s.cell 0 ∧ s1Of t s = encodeBcd t.sec.toNat ∧
    ∃ dev', (writeAll t s).env = .echo dev' ∧ dev'.mem.wf ∧ ∀ a, dev'.mem.read a =
      if a = 0 then s1Of t s &&& 0x7F#8 else if a = 6 then encodeBcd (t.year.toNat % 100) else if a = 4 then encodeBcd
          (t.mon.toNat + 1)
      else if a = 3 then encodeBcd t.mday.toNat else if a = 5 then encodeBcd t.wday.toNat else if a = 2 then encodeBcd
          t.hour.toNat else if a = 1 then encodeBcd t.min.toNat else s.cell a := by
  obtain ⟨h1, e1⟩ := readInto_echo .seconds .secBack s h
  have h2 : (haltClock s).env = _ := writeReg_echo .seconds (s.byteRead .seconds ||| 0x80#8) _ h1
  obtain ⟨n, c, d, h3⟩ := fields_echo t _ h2
  obtain ⟨h4, e4⟩ := readInto_echo .seconds .secBack _ h3
  have h5 := writeReg_echo .seconds (s1Of t s &&& 0x7F#8) _ h4
  have a0 : ChipReg.seconds.address.toNat = 0 := rfl
  rw [a0] at h2 h3 h5 e4 e1
  simp only at e4 h5 h3
  have w0 := Memory.write_wf (a := 0) (s.byteRead .seconds ||| 0x80#8) hw (by omega)
  have w1 := Memory.write_wf (a := 0) (encodeBcd t.sec.toNat) w0 (by omega)
  have w2 := Memory.write_wf (a := 1) (encodeBcd t.min.toNat) w1 (by omega)
  have w3 := Memory.write_wf (a := 2) (encodeBcd t.hour.toNat) w2 (by omega)
  have w4 := Memory.write_wf (a := 5) (encodeBcd t.wday.toNat) w3 (by omega)
  have w5 := Memory.write_wf (a := 3) (encodeBcd t.mday.toNat) w4 (by omega)
  have w6 := Memory.write_wf (a := 4) (encodeBcd (t.mon.toNat + 1)) w5 (by omega)
  have w7 := Memory.write_wf (a := 6) (encodeBcd (t.year.toNat % 100)) w6 (by omega)
  have w8 := Memory.write_wf (a := 0) (s1Of t s &&& 0x7F#8) w7 (by omega)
  refine ⟨by rw [cell_echo h]; exact e1, ?_, _, h5, w8, fun a => ?_⟩
  · rw [s1Of, e4, Memory.read_write _ _ _ w6, Memory.read_write _ _ _ w5, Memory.read_write _ _ _ w4,
      Memory.read_write _ _ _ w3, Memory.read_write _ _ _ w2, Memory.read_write _ _ _ w1, Memory.read_write _ _ _ w0]
    simp
  · rw [Memory.read_write _ _ _ w7, Memory.read_write _ _ _ w6, Memory.read_write _ _ _ w5,
      Memory.read_write _ _ _ w4, Memory.read_write _ _ _ w3, Memory.read_write _ _ _ w2, Memory.read_write _ _ _ w1,
      Memory.read_write _ _ _ w0, Memory.read_write _ _ _ hw, cell_echo h]
    by_cases ha : a = 0
    · simp [ha]
    · simp [ha]

/-- No other cell is written. -/
theorem fields_cell (t : CalendarTime) (s : State) (a : Nat) (ha : 6 < a) : (writeAll t s).cell a = s.cell a := by
  have k : ∀ r : ChipReg, r ∈ ([.seconds, .minutes, .hours, .day, .date, .month, .year] : List ChipReg) →
      a ≠ r.address.toNat := by
    intro r hr
    have : ∀ r ∈ ([.seconds, .minutes, .hours, .day, .date, .month, .year] : List ChipReg), r.address.toNat ≤ 6 :=
        by decide
    have := this r hr; omega
  rw [writeAll, resumeClock, writeReg_cell _ _ _ (k _ (by simp)), readInto_cell, writeFields,
      writeReg_cell _ _ _ (k _ (by simp)), writeReg_cell _ _ _ (k _ (by simp)),
    writeReg_cell _ _ _ (k _ (by simp)), writeReg_cell _ _ _ (k _ (by simp)), writeReg_cell _ _ _ (k _ (by simp)),
        writeReg_cell _ _ _ (k _ (by simp)), writeReg_cell _ _ _ (k _ (by simp)),
    haltClock, writeReg_cell _ _ _ (k _ (by simp)), readInto_cell]

/-- The halt bit is clear in the BCD byte of a value up to 79 (R171). -/
theorem encodeBcd_bit7 (v : Nat) (h : v ≤ 79) : (encodeBcd v).getLsbD 7 = false := by
  have : ∀ v : Fin 80, (encodeBcd v).getLsbD 7 = false := by decide +kernel
  exact this ⟨v, by omega⟩

end Sys2Proof.Machine
end

