-- ==== Sys2Proof/Laws/Traces.lean ====
section
/-! SUPPORT. The figures of the traces the rules write out: how many entries each has (R142, R143, R146, R147) and what its
delays add up to (R260), in the parameters. -/

namespace Sys2Proof.Machine

@[simp] theorem leastDuration_nil : leastDuration [] = 0 := rfl
@[simp] theorem leastDuration_delay (n : Nat) (l : List TraceEntry) : leastDuration (.delay n :: l) = n + leastDuration l :=
  rfl
@[simp] theorem leastDuration_write (x : Line) (b : Bool) (l : List TraceEntry) :
    leastDuration (.write x b :: l) = leastDuration l := rfl
@[simp] theorem leastDuration_read (x : Line) (b : Bool) (l : List TraceEntry) :
    leastDuration (.read x b :: l) = leastDuration l := rfl
@[simp] theorem leastDuration_dir (x : Line) (d : Dir) (l : List TraceEntry) :
    leastDuration (.dir x d :: l) = leastDuration l := rfl

@[simp] theorem leastDuration_append (k l : List TraceEntry) :
    leastDuration (k ++ l) = leastDuration k + leastDuration l := by
  induction k with
  | nil => simp
  | cons e k ih => cases e <;> simp [ih, Nat.add_assoc]

theorem leastDuration_pulseTrace (p : Params) : leastDuration (pulseTrace p) = 2 * p.tPulse := by
  simp [pulseTrace]; omega

/-- Pulses with something that takes no time before each. -/
theorem leastDuration_pulses (p : Params) (f : Bool → TraceEntry) (h : ∀ b l, leastDuration (f b :: l) = leastDuration l)
    (bits : List Bool) : leastDuration (bits.flatMap fun b => f b :: pulseTrace p) = bits.length * (2 * p.tPulse) := by
  induction bits with
  | nil => simp
  | cons b bits ih =>
    rw [List.flatMap_cons, leastDuration_append, h, leastDuration_pulseTrace, ih, List.length_cons, Nat.add_mul,
      Nat.one_mul, Nat.add_comm]

@[simp] theorem leastDuration_sendTrace (p : Params) (v : Byte) : leastDuration (sendTrace p v) = 8 * (2 * p.tPulse) := by
  rw [sendTrace, leastDuration_dir, leastDuration_pulses p _ (fun _ _ => rfl)]
  simp [bitsOf]

@[simp] theorem leastDuration_recvTrace (p : Params) (b : Byte) : leastDuration (recvTrace p b) = 8 * (2 * p.tPulse) := by
  rw [recvTrace, leastDuration_dir, leastDuration_pulses p _ (fun _ _ => rfl)]
  simp [bitsOf]

@[simp] theorem leastDuration_openingTrace (p : Params) : leastDuration (openingTrace p) = p.tSettle := by
  simp [openingTrace, busResetTrace]

@[simp] theorem leastDuration_readTrace (p : Params) (c b : Byte) :
    leastDuration (readTrace p c b) = transactionUnits p := by
  simp only [readTrace, leastDuration_append, leastDuration_openingTrace, leastDuration_sendTrace,
    leastDuration_recvTrace, leastDuration_write, leastDuration_nil, transactionUnits]
  omega

@[simp] theorem leastDuration_writeTrace (p : Params) (c v : Byte) :
    leastDuration (writeTrace p c v) = transactionUnits p := by
  simp only [writeTrace, leastDuration_append, leastDuration_openingTrace, leastDuration_sendTrace, leastDuration_write,
    leastDuration_nil, transactionUnits]
  omega

@[simp] theorem sendTrace_length (p : Params) (v : Byte) : (sendTrace p v).length = 41 := by
  simp [sendTrace, bitsOf, List.range_succ, pulseTrace]

@[simp] theorem recvTrace_length (p : Params) (b : Byte) : (recvTrace p b).length = 41 := by
  simp [recvTrace, bitsOf, List.range_succ, pulseTrace]

@[simp] theorem readTrace_length (p : Params) (c b : Byte) : (readTrace p c b).length = 88 := by
  simp [readTrace, openingTrace, busResetTrace]

@[simp] theorem writeTrace_length (p : Params) (c v : Byte) : (writeTrace p c v).length = 88 := by
  simp [writeTrace, openingTrace, busResetTrace]

end Sys2Proof.Machine
end

