-- ==== Sys2Proof/Tests/Slice0.lean ====
section
/-! SUPPORT. The model's own tests. The expected values are those of spec/95_test_vectors.md (the id stands in each
comment) or are written out from the encoding tables of spec/30_encoding.md. The last part shows, for each obligation with
hypotheses, a state that meets them. -/

namespace Sys2Proof.Tests

open Sys2Proof Sys2Proof.Machine

/-! ### Well-formedness (log entry 4) -/

theorem test_wellformed_refuses_the_general_pattern_at_a_named_register :
    (Instr.cmdRead 0x00).wellFormed = false ∧ (Instr.cmdRead 0x20).wellFormed = false ∧
    (Instr.cmdWrite 0x06).wellFormed = false ∧ (Instr.cmdWrite 0x08).wellFormed = false := by decide

theorem test_wellformed_admits_the_other_addresses :
    (Instr.cmdRead 0x07).wellFormed = true ∧ (Instr.cmdWrite 0x3F).wellFormed = true ∧
    Instr.selftest.wellFormed = true := by decide

/-! ### Decoding: the words of R99, R92 and R93 written out bit by bit -/

theorem test_decode_bitprotocol :
    decodeOp 0b00000000#8 = .ok .reset ∧ decodeOp 0b00000001#8 = .ok .start ∧ decodeOp 0b00000010#8 = .ok .stop ∧
    decodeOp 0b00000011#8 = .ok .clock ∧ decodeOp 0b00000100#8 = .ok .txbit ∧ decodeOp 0b00000101#8 = .ok .rxbit := by
  decide

theorem test_decode_byteframer :
    decodeOp 0b00001000#8 = .ok .sendbits ∧ decodeOp 0b00001001#8 = .ok .recvbits ∧
    decodeOp 0b00001010#8 = .ok .readbyte ∧ decodeOp 0b00001011#8 = .ok .writebyte := by decide

theorem test_decode_services :
    decodeOp 0b00010000#8 = .ok .readTime ∧ decodeOp 0b00010001#8 = .ok .setTime ∧
    decodeOp 0b00011000#8 = .ok .tcGet ∧ decodeOp 0b00011001#8 = .ok .tcSet ∧
    decodeOp 0b00011010#8 = .ok .tcStrength ∧ decodeOp 0b00011011#8 = .ok .ctrl ∧
    decodeOp 0b00011111#8 = .ok .selftest := by decide

theorem test_decode_write_commands :
    decodeCommand 0b10000000#8 = .ok .wrSeconds ∧ decodeCommand 0b10000010#8 = .ok .wrMinutes ∧
    decodeCommand 0b10000100#8 = .ok .wrHours ∧ decodeCommand 0b10000110#8 = .ok .wrDate ∧
    decodeCommand 0b10001000#8 = .ok .wrMonth ∧ decodeCommand 0b10001010#8 = .ok .wrDay ∧
    decodeCommand 0b10001100#8 = .ok .wrYear ∧ decodeCommand 0b10010000#8 = .ok .wrTrickle ∧
    decodeCommand 0b11000000#8 = .ok .wrRam0 ∧ decodeCommand 0b10001110#8 = .ok (.cmdWrite 0b000111#6) := by decide

theorem test_decode_read_commands :
    decodeCommand 0b10000001#8 = .ok .rdSeconds ∧ decodeCommand 0b10000011#8 = .ok .rdMinutes ∧
    decodeCommand 0b10000101#8 = .ok .rdHours ∧ decodeCommand 0b10000111#8 = .ok .rdDate ∧
    decodeCommand 0b10001001#8 = .ok .rdMonth ∧ decodeCommand 0b10001011#8 = .ok .rdDay ∧
    decodeCommand 0b10001101#8 = .ok .rdYear ∧ decodeCommand 0b10010001#8 = .ok .rdTrickle ∧
    decodeCommand 0b11000001#8 = .ok .rdRam0 ∧ decodeCommand 0b11111111#8 = .ok (.cmdRead 0b111111#6) := by decide

/-- R101, R102: what is no instruction at its level is rejected by name. -/
theorem test_decode_rejects_by_name :
    decodeOp 0x06#8 = .error (.illegalOp 0x06) ∧ decodeOp 0x1C#8 = .error (.illegalOp 0x1C) ∧
    decodeOp 0x20#8 = .error (.illegalOp 0x20) ∧ decodeOp 0xFF#8 = .error (.illegalOp 0xFF) ∧
    decodeCommand 0x7F#8 = .error (.notACommand 0x7F) := by decide

/-! ### Helpers of the tests, written apart from the model -/

/-- The outcome is a next state of which `p` holds. -/
def gives (o : Host.Outcome State Fault Refusal) (p : State → Bool) : Bool :=
  match o with
  | .next t => p t
  | .fault _ => false
  | .refused _ => false

/-- One clock pulse, the `P` of the vectors. -/
def pulse : List TraceEntry := [.write .clk true, .delay 1, .write .clk false, .delay 1]

/-- `W(DAT,b) P` for each bit. -/
def outBits (l : List Nat) : List TraceEntry := l.flatMap fun b => .write .dat (b == 1) :: pulse

/-- `R(DAT)=b P` for each bit. -/
def inBits (l : List Nat) : List TraceEntry := l.flatMap fun b => .read .dat (b == 1) :: pulse

/-- The eight bits of a number, the lowest first. -/
def low (n : Nat) : List Nat := [n % 2, n / 2 % 2, n / 4 % 2, n / 8 % 2, n / 16 % 2, n / 32 % 2, n / 64 % 2, n / 128 % 2]

/-- Entries 1 to 6 of a transaction (VB7, VB8). -/
def opening : List TraceEntry :=
  [.write .rst false, .write .clk false, .dir .dat .input, .write .rst true, .delay 4, .dir .dat .output]

def turnIn : List TraceEntry := [.dir .dat .input]

def turnOut : List TraceEntry := [.dir .dat .output]

def closing : List TraceEntry := [.write .rst false]

/-- `W(RST,0) W(CLK,0) D(DAT,Input)`. -/
def idling : List TraceEntry := [.write .rst false, .write .clk false, .dir .dat .input]

/-- `rd c→b` of the vectors. -/
def rd (c b : Nat) : List TraceEntry :=
  opening ++
    outBits (low c) ++ turnIn ++ inBits (low b) ++ closing

/-- `wr c b` of the vectors. -/
def wr (c b : Nat) : List TraceEntry :=
  opening ++
    outBits (low c) ++ turnOut ++ outBits (low b) ++ closing

/-- A state with the lines at given levels. -/
def withLines (rst clk : Bool) (d : Dir) (dat : Bool) : State :=
  { State.reset with
    lines := { dirRst := .output, dirClk := .output, dirDat := d, outRst := rst, outClk := clk, outDat := dat } }

/-- The register-echo device with given cells. -/
def echo (m : Memory) : Env := .echo { mem := m, n := 0, c := 0, d := 0 }

/-- Idle, the gate open, the device at the lines. -/
def ready (m : Memory) : State := { State.reset with present := .ok, env := echo m }

def withOperands (a v : Byte) (s : State) : State := { s with regs := { s.regs with a := a, v := v } }

def withTime (t : CalendarTime) (s : State) : State := { s with regs := { s.regs with time := t } }

def ascii (l : List Char) : List Byte := l.map fun ch => BitVec.ofNat 8 ch.toNat

/-! ### BitProtocol: vectors VA1 to VA14 -/

/-- VA1. -/
theorem test_reset : gives (exec .reset (withLines true true .output true)) (fun t => decide (
      t.events = [.write .rst false, .write .clk false, .dir .dat .input] ∧ t.lines = (withLines false false .input true).lines ∧ t.regs.status = 0)) = true := by decide

/-- VA3. -/
theorem test_start : gives (exec .start (withLines false false .input true)) (fun t => decide (
      t.events = [.write .rst true] ∧ t.lines = (withLines true false .input true).lines)) = true := by decide

/-- VA5. -/
theorem test_stop : gives (exec .stop (withLines true false .output false)) (fun t => decide (
      t.events = [.write .rst false] ∧ t.lines = (withLines false false .output false).lines)) = true := by decide

/-- VA13. -/
theorem test_clock_left_high : gives (exec .clock (withLines false true .input true)) (fun t => decide (
      t.events = pulse ∧ t.lines = (withLines false false .input true).lines)) = true := by decide

/-- VA14: only `V[0]` is used. -/
theorem test_txbit_takes_bit_zero :
    gives (exec .txbit (withOperands 0 0xFE (withLines true false .output true))) (fun t => decide (
      t.events = [.write .dat false] ∧ t.lines = (withLines true false .output false).lines)) = true := by decide

/-- VA9. -/
theorem test_txbit_on_an_input :
    gives (exec .txbit (withOperands 0 1 (withLines true false .input false))) (fun t => decide (
      t.events = [] ∧ t.lines = (withLines true false .input false).lines ∧ t.regs.status = 5)) = true := by decide

/-- VA10. -/
theorem test_rxbit :
    gives (exec .rxbit { withLines true false .input false with env := .free [true] }) (fun t => decide (
      t.events = [.read .dat true] ∧ t.regs.r = 1)) = true := by decide

/-- VA12. -/
theorem test_rxbit_on_an_output :
    gives (exec .rxbit (withLines true false .output false)) (fun t => decide (
      t.events = [] ∧ t.regs.r = 0 ∧ t.regs.status = 5)) = true := by decide

/-! ### ByteFramer: vectors VB1 to VB13 -/

/-- VB3. -/
theorem test_encode_command_masks :
    [0x07#8, 0x3F#8, 0x40#8, 0x47#8, 0xFF#8].map (encodeCommand · .read) = [0x8F, 0xFF, 0x81, 0x8F, 0xFF] := by decide

/-- VB4. -/
theorem test_sendbits :
    gives (exec .sendbits (withOperands 0 0x42 State.reset)) (fun t => decide (
      t.events = .dir .dat .output :: outBits [0, 1, 0, 0, 0, 0, 1, 0] ∧ t.lines = (withLines false false .output false).lines)) = true := by decide +kernel

/-- VB6. -/
theorem test_recvbits :
    gives (exec .recvbits { State.reset with env := .free [false, true, false, false, false, false, true, false] }) (fun t => decide (
      t.events = .dir .dat .input :: inBits [0, 1, 0, 0, 0, 0, 1, 0] ∧ t.regs.r = 0x42)) = true := by decide +kernel

/-- VB6d: the last bit received is bit 7. -/
theorem test_recvbits_last_bit :
    gives (exec .recvbits { State.reset with env := .free [false, false, false, false, false, false, false, true] }) (fun t => decide (
      t.regs.r = 0x80)) = true := by decide +kernel

/-- VB7. -/
theorem test_readbyte :
    gives (exec .readbyte (withOperands 0x20 0 (ready [(0x20, 0x42)]))) (fun t => decide (
      t.events = opening ++
      outBits [1, 0, 0, 0, 0, 0, 1, 1] ++ turnIn ++ inBits [0, 1, 0, 0, 0, 0, 1, 0] ++ closing ∧ t.regs.r = 0x42 ∧ t.regs.status = 0 ∧ t.lines = (withLines false false .input true).lines)) = true := by decide +kernel

/-- VB12: the address is masked. -/
theorem test_readbyte_masks :
    gives (exec .readbyte (withOperands 0x60 0 (ready [(0x20, 0x42)]))) (fun t => decide (
      t.regs.r = 0x42)) = true := by decide +kernel

/-- VB8. -/
theorem test_writebyte :
    gives (exec .writebyte (withOperands 0x20 0x42 (ready []))) (fun t => decide (
      t.events = opening ++
      outBits [0, 0, 0, 0, 0, 0, 1, 1] ++ turnOut ++ outBits [0, 1, 0, 0, 0, 0, 1, 0] ++ closing ∧ t.cell 0x20 = 0x42 ∧ t.lines = (withLines false false .output false).lines)) = true := by decide +kernel

/-- VB9 at an address above 63 and a value with its top bit set. -/
theorem test_writebyte_masks :
    gives (exec .writebyte (withOperands 0xFF 0xA5 (ready []))) (fun t => decide (
      t.cell 0x3F = 0xA5)) = true := by decide +kernel

/-! ### The wire rows: R93 -/

/-- The nine read rows: their command bytes, the byte of their cell in `R`, `OP` as it was. -/
theorem test_read_rows :
    [(Instr.rdSeconds, 0x81, 0x00), (.rdMinutes, 0x83, 0x01), (.rdHours, 0x85, 0x02), (.rdDate, 0x87, 0x03),
     (.rdMonth, 0x89, 0x04), (.rdDay, 0x8B, 0x05), (.rdYear, 0x8D, 0x06), (.rdTrickle, 0x91, 0x08),
     (.rdRam0, 0xC1, 0x20)].all (fun x =>
      gives (exec x.1 (ready [(x.2.2, 0x96)])) (fun t => decide (
      t.events = rd x.2.1 0x96 ∧ t.regs.r = 0x96#8 ∧ t.regs.op = 0#8))) = true := by decide +kernel

/-- The nine write rows. -/
theorem test_write_rows :
    [(Instr.wrSeconds, 0x80, 0x00), (.wrMinutes, 0x82, 0x01), (.wrHours, 0x84, 0x02), (.wrDate, 0x86, 0x03),
     (.wrMonth, 0x88, 0x04), (.wrDay, 0x8A, 0x05), (.wrYear, 0x8C, 0x06), (.wrTrickle, 0x90, 0x08),
     (.wrRam0, 0xC0, 0x20)].all (fun x =>
      gives (exec x.1 (withOperands 0 0x96 (ready []))) (fun t => decide (
      t.events = wr x.2.1 0x96 ∧ t.cell x.2.2 = 0x96#8 ∧ t.regs.op = 0#8))) = true := by decide +kernel

/-- VB13's command byte, as a transaction. -/
theorem test_cmd_read :
    gives (exec (.cmdRead 0x07) (ready [(0x07, 0x81)])) (fun t => decide (
      t.events = rd 0x8F 0x81 ∧ t.regs.r = 0x81)) = true := by
  decide +kernel

theorem test_cmd_write :
    gives (exec (.cmdWrite 0x3F) (withOperands 0 0x01 (ready []))) (fun t => decide (
      t.events = wr 0xFE 0x01 ∧ t.cell 0x3F = 0x01)) = true := by decide +kernel

/-! ### TimeCodec: vectors VC1 to VC8 -/

/-- VC1, VC2, VC3. -/
theorem test_bcd :
    [0, 9, 10, 23, 45, 59, 79, 80, 99].map encodeBcd = [0x00, 0x09, 0x10, 0x23, 0x45, 0x59, 0x79, 0x80, 0x99] ∧
    [0x00#8, 0x09#8, 0x10#8, 0x23#8, 0x59#8, 0x99#8].map (decodeBcd Params.default) = [0, 9, 10, 23, 59, 99] ∧
    [0x1A#8, 0x7F#8, 0x80#8, 0x92#8, 0xA0#8, 0xC5#8, 0xFF#8].map (decodeBcd Params.default) =
      [20, 85, 80, 92, 100, 125, 165] := by decide

/-- R6, U12, D12: a `DECODE_NONDECIMAL` other than the formula is followed on the bytes it names, and on no other. -/
theorem test_bcd_parameter :
    [0x1A#8, 0x1B#8, 0x45#8].map (decodeBcd { Params.default with nonDecimal := [(0x1A#8, 99), (0x45#8, 7)] }) =
      [99, 21, 45] := by decide

/-- VC4. -/
theorem test_century :
    [0, 23, 24, 69, 70, 99, 105].map (fun y => (centuryOffset y, centuryYear y)) =
    [(100, 2000), (123, 2023), (124, 2024), (169, 2069), (70, 1970), (99, 1999), (105, 2005)] := by decide

/-- The registers of VC6. -/
def vc6 : RawTime := { sec := 0x45, min := 0x30, hour := 0x14, day := 0x03, date := 0x12, mon := 0x06, year := 0x24 }

/-- VC6a to VC6n: which registers make a time. -/
theorem test_valid_time :
    ([vc6, { vc6 with sec := 0x1A }, { vc6 with hour := 0x23 }, { vc6 with mon := 0x12 }, { vc6 with date := 0x30 },
      { vc6 with mon := 0x02, date := 0x29 }, { vc6 with mon := 0x02, date := 0x29, year := 0x00 },
      { vc6 with day := 0xFF }].all fun b => (decodeTime Params.default b).valid) = true ∧
    ([{ vc6 with sec := 0xC5 }, { vc6 with sec := 0x60 }, { vc6 with hour := 0x24 }, { vc6 with mon := 0x00 },
      { vc6 with mon := 0x13 }, { vc6 with date := 0x00 }, { vc6 with date := 0x31 },
      { vc6 with mon := 0x02, date := 0x29, year := 0x23 }].all fun b => !(decodeTime Params.default b).valid) = true := by decide

/-- VC7, VC7a: what all ones and all zeros decode to. -/
theorem test_decode_of_a_dead_bus :
    decodeTime Params.default { sec := 0xFF, min := 0xFF, hour := 0xFF, day := 0xFF, date := 0xFF, mon := 0xFF, year := 0xFF } =
      { sec := 165, min := 165, hour := 165, wday := 165, mday := 165, mon := 164, year := 2065 } ∧
    decodeTime Params.default { sec := 0, min := 0, hour := 0, day := 0, date := 0, mon := 0, year := 0 } =
      { sec := 0, min := 0, hour := 0, wday := 0, mday := 0, mon := -1, year := 2000 } := by decide

/-- VC6. -/
theorem test_read_time :
    gives (exec .readTime (ready [(0, 0x45), (1, 0x30), (2, 0x14), (3, 0x12), (4, 0x06), (5, 0x03), (6, 0x24)])) (fun t => decide (
      t.events = rd 0x81 0x45 ++ rd 0x83 0x30 ++ rd 0x85 0x14 ++ rd 0x8B 0x03 ++ rd 0x87 0x12 ++ rd 0x89 0x06 ++ rd 0x8D 0x24 ∧ t.regs.time = { sec := 45, min := 30, hour := 14, wday := 3, mday := 12, mon := 5, year := 2024 } ∧ t.regs.status = 0)) = true := by decide +kernel

/-- VC7: `T_*` is unchanged. -/
theorem test_read_time_invalid :
    gives (exec .readTime { State.reset with present := .ok, env := .free (List.replicate 56 true) }) (fun t => decide (
      t.regs.time = State.reset.regs.time ∧ t.regs.status = 1 ∧ t.trace.length = 616)) = true := by decide +kernel

/-- VC8. -/
theorem test_set_time :
    gives (exec .setTime (withTime { sec := 45, min := 30, hour := 14, wday := 3, mday := 12, mon := 5, year := 2024 }
        (ready [(0, 0x17)]))) (fun t => decide (
      t.events = rd 0x81 0x17 ++ wr 0x80 0x97 ++ wr 0x80 0x45 ++ wr 0x82 0x30 ++ wr 0x84 0x14 ++ wr 0x8A 0x03 ++ wr 0x86 0x12 ++
      wr 0x88 0x06 ++ wr 0x8C 0x24 ++ rd 0x81 0x45 ++ wr 0x80 0x45 ∧ (List.range 7).map t.cell = [0x45, 0x30, 0x14, 0x12, 0x06, 0x03, 0x24] ∧ t.regs.status = 0)) = true := by decide +kernel

/-- VC8c, VC8d. -/
theorem test_set_time_domain :
    gives (exec .setTime (withTime { sec := 100, min := 0, hour := 0, wday := 0, mday := 1, mon := 0, year := 2000 }
      (ready []))) (fun t => decide (
      t.events = [] ∧ t.regs.status = 4)) = true ∧
    gives (exec .setTime (withTime { sec := 0, min := 0, hour := 0, wday := 0, mday := 1, mon := 99, year := 2000 }
      (ready []))) (fun t => decide (
      t.events = [] ∧ t.regs.status = 4)) = true := by decide

/-! ### Trickle charge, self-test, texts: vectors VD1 to VD9 -/

/-- VD1, VD1a. -/
theorem test_encode_strength :
    [0, 1, 2, 3, 4, 5, 6, 7, 8, 9, 10, 11, 12, 13, 14, 15, 16, 17, 18, 19, 255].map encodeStrength =
    [0xA0, 0xAF, 0xBE, 0xAD, 0xBC, 0xEB, 0xFA, 0xE9, 0xF8, 0xA7, 0xB6, 0xA5, 0xB4, 0xE3, 0xF2, 0xE1, 0xF0, 0xFF, 0xAE,
      0xBD, 0xF1] := by decide

/-- VD3, and VE6: the status of an earlier `InvalidTime` is overwritten. -/
theorem test_tc_get :
    let s := ready [(8, 0xA5)]
    gives (exec .tcGet { s with regs := { s.regs with status := 1 } }) (fun t => decide (
      t.events = rd 0x91 0xA5 ∧ t.regs.r = 0xA5 ∧ t.regs.status = 0)) = true := by decide +kernel

/-- VD2. -/
theorem test_tc_set :
    gives (exec .tcSet (withOperands 0 0xA5 (ready []))) (fun t => decide (
      t.events = wr 0x90 0xA5 ∧ t.cell 8 = 0xA5)) = true := by
  decide +kernel

/-- VD4's data byte, through `tc_strength`. -/
theorem test_tc_strength :
    let s := ready []
    gives (exec .tcStrength { s with regs := { s.regs with cArg := 2 } }) (fun t => decide (
      t.events = (wr 0x90 0xBE))) = true := by
  decide +kernel

/-- VD4: the recognised code passes to the steps of `tc_strength`. -/
theorem test_ctrl_recognised : runSteps [.gate, .checkRequest Config.ctrlTcStrength] (ready []) = .goOn (ready []) := by
  simp [runSteps, doStep, Progress.bind, State.gateOpen, ready]

/-- VD4b: the gate comes before the request code. -/
theorem test_ctrl_shut :
    gives (exec .ctrl { State.reset with present := .absent }) (fun t => decide (
      t.events = [] ∧ t.regs.status = 2)) = true := by
  decide

/-- VD5 (and VE5: a failed device that is good now). -/
theorem test_selftest :
    gives (exec .selftest { ready [] with present := .absent }) (fun t => decide (
      t.events = idling ++ wr 0xC0 0x42 ++ rd 0xC1 0x42 ∧ t.present = .ok ∧ t.cell 0x20 = 0x42 ∧ t.lines = (withLines false false .input true).lines)) = true := by decide +kernel

/-- VD6b. -/
theorem test_selftest_mismatch :
    gives (exec .selftest { State.reset with env := .free [true, true, false, false, false, false, true, false] }) (fun t => decide (
      t.present = .absent ∧ t.regs.status = 2)) = true := by decide +kernel

/-- VD7. -/
theorem test_parse :
    [['a', '5'], ['A', '5'], ['0', 'x', 'A', '5', '\n'], [' ', '7', ' '], [], ['0', 'x'], ['g', '1'], ['-', '1'],
      ['1', 'a', '5'], ['a', '5', ' ', 'z', 'z']].map (fun l => parseHexOrZero (ascii l)) =
    [0xA5, 0xA5, 0xA5, 0x07, 0, 0, 0, 0, 0xA5, 0] := by decide +kernel

/-- VD9, and S12. -/
theorem test_format :
    formatTc 0x0F = tcShowHead ++ ascii ['f'] ∧ formatTc 0xA5 = tcShowHead ++ ascii ['a', '5'] ∧
    tcShowHead = ascii "trickle charge register content: 0x".toList := by decide +kernel

/-! ### The host port: vectors VE1 to VE4 -/

/-- VE1. -/
theorem test_illegal_op :
    gives (step { State.reset with inputs := [.call 0x06] }) (fun t => decide (
      t.regs.status = 6 ∧ t.events = [])) = true := by decide

/-- VE3, for the first step of a `read_time`. -/
theorem test_busy :
    let s := postOp 0x10 (ready [])
    s.busy = true ∧ gives (step { s with inputs := [.call 0x0A] }) (fun t => decide (
      t.answer = .busy ∧ { t with answer := s.answer } = s)) = true := by decide +kernel

/-- R222: a status raised before the first line event leaves `OP` as before, called or started and not waited for; an
operation that ends `Ok` leaves its code there (log entry 14). -/
theorem test_op_after_an_early_error :
    let s : State := { ready [] with regs := { State.reset.regs with op := 0x0A } }
    gives (exec .txbit s) (fun t => decide (t.regs = { s.regs with status := 5 })) = true ∧
    gives (exec .tcGet { s with present := .absent }) (fun t => decide (t.regs = { s.regs with status := 2 })) = true ∧
    (ticks 1 (postOp 0x04 s)).regs.op = 0x0A ∧ (postOp 0x04 s).regs.op = 0x04 ∧
    gives (exec .reset s) (fun t => decide (t.regs = { s.regs with op := 0x00, status := 0 })) = true := by decide

/-- R168: the twelve lengths, in the three kinds of year a century rule must tell apart. -/
theorem test_days_in_month :
    [2023, 2024, 2000, 1900].map (fun y => (List.range 12).map (daysInMonth · y)) =
      [[31, 28, 31, 30, 31, 30, 31, 31, 30, 31, 30, 31], [31, 29, 31, 30, 31, 30, 31, 31, 30, 31, 30, 31],
       [31, 29, 31, 30, 31, 30, 31, 31, 30, 31, 30, 31], [31, 28, 31, 30, 31, 30, 31, 31, 30, 31, 30, 31]] := by decide

/-- VE4: `readbyte` is not gated. -/
theorem test_readbyte_ungated :
    gives (step ({ State.reset with env := .free (List.replicate 8 true) }.withFetchWord 8 0x0A)) (fun t => decide (
      t.regs.status = 0 ∧ t.regs.r = 0xFF)) = true := by decide +kernel

/-! ### The parameters and the port -/

/-- A block built with other timing literals. -/
def slow : State := { ready [(0x20, 0x42)] with params := { tPulse := 3, tSettle := 7, nonDecimal := [] } }

/-- R6, U12, R124, R144: the literals are parameters. -/
theorem test_timing_parameters :
    gives (exec .clock slow) (fun t => decide (
      t.events = [.write .clk true, .delay 3, .write .clk false, .delay 3] ∧ t.params = slow.params)) = true ∧
    gives (exec .readbyte (withOperands 0x20 0 slow)) (fun t => decide (
      t.regs.r = 0x42 ∧ t.events[4]? = some (.delay 7) ∧ leastDuration t.events = 7 + 96)) = true := by
  constructor <;> decide +kernel

/-- R26, R27: one after the other, every time operand with a value of its own. -/
def timeWrites : List OperandWrite := [.tSec 1, .tMin 2, .tHour 3, .tWday 4, .tMday 5, .tMon 6, .tYear 7]

theorem test_time_writes : (timeWrites.foldl (fun s w => hostWrite w s) State.reset).regs.time =
    { sec := 1, min := 2, hour := 3, wday := 4, mday := 5, mon := 6, year := 7 } := by decide

/-! ### For each obligation with hypotheses, what meets them

Named after the obligation. `State.reset` is the idle block; `ready m` has the gate open and the test device at the lines. -/

theorem witness_DecodeOfEncodeIsTheInstruction :
    Instr.reset.wellFormed = true ∧ (Instr.cmdRead 0x3F).wellFormed = true ∧ Instr.wrRam0.wellFormed = true := by decide

theorem witness_EncodeOfDecodeIsTheByte :
    decode .host 0x1F = .ok .selftest ∧ decode .wire 0x80 = .ok .wrSeconds ∧ decode .wire 0xFF = .ok (.cmdRead 0x3F) := by
  decide

/-- Both ends of R102's ranges, called and posted, and the codes that border on them. -/
theorem witness_UnassignedCodeEndsAtOnceWithIllegalOp :
    State.reset.busy = false ∧
    (∀ code ∈ ([0x06, 0x07, 0x0C, 0x0F, 0x12, 0x17, 0x1C, 0x1E, 0x20, 0xFF] : List Byte), UnassignedCode code ∧
      ({ State.reset with inputs := [.call code] } : State).inputs = .call code :: [] ∧
      ({ State.reset with inputs := [.post code] } : State).inputs = .post code :: []) ∧
    ∀ code ∈ ([0x05, 0x08, 0x0B, 0x10, 0x11, 0x18, 0x1B, 0x1F] : List Byte), ¬ UnassignedCode code := by
  refine ⟨rfl, ?_, ?_⟩ <;> simp [UnassignedCode]

/-- The premise `busy = false` of `BusResetMakesTheBusIdle`, `StartAndStopWriteChipSelectOnly`,
`SendbitsSendsEightBitsLowFirst`, `SelftestWritesTheSentinelAndCompares` and `StartedOperationEndsAsTheCallDoes`. -/
theorem witness_idle : State.reset.busy = false ∧ (ready []).busy = false := ⟨rfl, rfl⟩

/-- The device one pulse before the end of a write to `0x20`. -/
def lastPulse : State :=
  { withLines true false .output true with env := .echo { mem := [(0x20, 0x01)], n := 15, c := 0xC0, d := 0x02 } }

theorem witness_ClockGivesOnePulse :
    lastPulse.busy = false ∧ lastPulse.pulseStores = some 0x20 ∧ (ready []).pulseStores ≠ some 0x20 ∧
    Memory.wf [(0x20, 0x01)] ∧ lastPulse.env = .echo { mem := [(0x20, 0x01)], n := 15, c := 0xC0, d := 0x02 } := by decide

theorem witness_TxbitWritesTheDataLineOrIsRefused :
    (withLines true false .output true).busy = false ∧ (withLines true false .output true).lines.dirDat = .output ∧
    (withLines true false .input true).busy = false ∧ (withLines true false .input true).lines.dirDat = .input := by decide

theorem witness_RxbitSamplesTheDataLineOrIsRefused :
    let s : State := { State.reset with env := .free [true] }
    s.busy = false ∧ s.lines.dirDat = .input ∧ s.env = .free (true :: []) ∧
    (withLines true false .output true).lines.dirDat = .output := by decide

/-- A device whose write transaction to `0x20` is open, its command taken in. -/
def openWrite (n : Nat) : State :=
  { withLines true false .output true with env := .echo { mem := [], n := n, c := 0xC0, d := 0 } }

theorem witness_SendbitsStoresOnlyTheAddressedCell :
    (openWrite 8).busy = false ∧ (openWrite 8).lines.outClk = false ∧ (openWrite 8).sendStores = some 0x20 ∧
    (openWrite 7).sendStores = none ∧ (openWrite 15).sendStores = some 0x20 ∧ (openWrite 16).sendStores = none ∧
    Memory.wf [] := by decide

theorem witness_SendbitsStoresOnlyTheAddressedCell_next : ∃ t, exec .sendbits (openWrite 8) = .next t := ⟨_, rfl⟩

/-- Answers given for one byte: `RecvbitsAssemblesEightAnswersLowFirst`, `ReadbyteIsOneReadTransaction`,
`SelftestWritesTheSentinelAndCompares` and, with the gate open, `TcGetReadsTheTrickleRegister`. -/
def answering (b : Byte) : State := { State.reset with present := .ok, env := .free (bitsOf b ++ []) }

theorem witness_answers :
    (answering 0x42).busy = false ∧ (answering 0x42).present = .ok ∧ (answering 0x42).env = .free (bitsOf 0x42 ++ []) ∧
    (answering 0xFF).env = .free (bitsOf 0xFF ++ []) ∧ (0x42 : Byte) ≠ 0xFF := by decide

/-- The test device at the lines, its cells in canonical form: `TransactionsReachExactlyTheAddressedCell`,
`ReadbyteAfterWritebyteReturnsTheValue` and the clauses on the device. -/
theorem witness_device :
    (ready [(0x00, 0x17), (0x3F, 0x01)]).busy = false ∧ (ready [(0x00, 0x17), (0x3F, 0x01)]).present = .ok ∧
    (ready [(0x00, 0x17), (0x3F, 0x01)]).env = .echo { mem := [(0x00, 0x17), (0x3F, 0x01)], n := 0, c := 0, d := 0 } ∧
    Memory.wf [(0x00, 0x17), (0x3F, 0x01)] := by decide

theorem witness_AddressOperandIsMaskedToSixBits :
    State.reset.busy = false ∧ (Instr.readbyte = .readbyte ∨ Instr.readbyte = .writebyte) ∧
    (Instr.writebyte = .readbyte ∨ Instr.writebyte = .writebyte) := by decide

theorem witness_RecvbitsAfterSendbitsReturnsTheByteOnLoopback :
    ({ State.reset with env := .loopback [] } : State).busy = false ∧
    ({ State.reset with env := .loopback [] } : State).env = .loopback [] := ⟨rfl, rfl⟩

theorem witness_ReadbyteIsItsPrimitivesPlusTheSettleDelay :
    (withOperands 0x20 0xC1 State.reset).busy = false ∧
    (withOperands 0x20 0xC1 State.reset).regs.v = encodeCommand (withOperands 0x20 0xC1 State.reset).regs.a .read := by decide

/-- `ReadCommandsAreReadTransactions` and `WriteCommandsAreWriteTransactions`. -/
theorem witness_command_rows :
    (answering 0x42).busy = false ∧ Instr.rdRam0 = readRow .ram0 ∧ Instr.wrSeconds = writeRow .seconds ∧
    (0x20#6 : Address) = ChipReg.ram0.address ∧ (0x00#6 : Address) = ChipReg.seconds.address := by decide

theorem witness_BcdByteHoldsTensAndOnes :
    (0 : Nat) ≤ 99 ∧ (99 : Nat) ≤ 99 ∧ 9 < (0xA0#8 : Byte).toNat / 16 ∧ 9 < (0x0A#8 : Byte).toNat % 16 := by decide

/-- The corners of the two premises, and the default parameter. -/
theorem witness_DecodeBcdIsTheFormula :
    Params.default.nonDecimal = [] ∧ (0x99#8 : Byte).toNat / 16 ≤ 9 ∧ (0x99#8 : Byte).toNat % 16 ≤ 9 := by decide

/-- The extreme records that are times, and records one past each bound. -/
theorem witness_ReadTimeReadsSevenRegistersThenChecks :
    (∀ b ∈ ([vc6, { sec := 0x59, min := 0x59, hour := 0x23, day := 0xFF, date := 0x31, mon := 0x12, year := 0x69 },
        { sec := 0, min := 0, hour := 0, day := 0, date := 0x01, mon := 0x01, year := 0x70 }] : List RawTime),
      BytesAreATime Params.default b) ∧
    (∀ b ∈ ([{ vc6 with sec := 0x60 }, { vc6 with mon := 0x13 }, { vc6 with date := 0x31 }] : List RawTime),
      ¬ BytesAreATime Params.default b) ∧
    let s : State := { ready [] with env := .free (rawBits vc6 ++ []) }
    s.busy = false ∧ s.present = .ok ∧ (ready []).present = .ok := by
  unfold BytesAreATime; decide +kernel

/-- Both sides of the clause on `valid_time`, at its bounds. -/
theorem witness_ReadTimeReadsSevenRegistersThenChecks_bounds :
    validTime 59 59 23 29 1 2024 = true ∧ validTime 0 0 0 1 0 1970 = true ∧ validTime 59 59 23 29 1 1900 = false ∧
    validTime 0 0 0 1 (-1) 2000 = false ∧ validTime 0 0 0 1 12 2000 = false ∧ validTime 0 0 0 0 0 2000 = false ∧
    validTime 0 0 0 32 11 2000 = false := by decide

/-- `SetTimeHaltsWritesSevenFieldsAndResumes` at the ends of the codec's domain, on the test device. -/
theorem witness_SetTimeHaltsWritesSevenFieldsAndResumes :
    let t : CalendarTime := { sec := 99, min := 99, hour := 99, wday := 99, mday := 99, mon := 98, year := 0xFFFF }
    let s := withTime t (ready [(0, 0x17)])
    s.busy = false ∧ s.present = .ok ∧ FieldsAreEncodable s.regs.time ∧
      s.env = .echo { mem := [(0, 0x17)], n := 0, c := 0, d := 0 } ∧ Memory.wf [(0, 0x17)] ∧
      FieldsAreEncodable State.reset.regs.time := by
  unfold FieldsAreEncodable; decide +kernel

theorem witness_SetTimeHaltsWritesSevenFieldsAndResumes_answers :
    ({ State.reset with present := .ok, env := .free (bitsOf 0x17 ++ bitsOf 0x45 ++ []) } : State).busy = false ∧
    ({ State.reset with present := .ok, env := .free (bitsOf 0x17 ++ bitsOf 0x45 ++ []) } : State).present = .ok :=
  ⟨rfl, rfl⟩

theorem witness_SetTimeRejectsWhatBcdCannotHold :
    let s := withTime { sec := 100, min := 0, hour := 0, wday := 0, mday := 1, mon := 0, year := 2000 } (ready [])
    let u := withTime { sec := 0, min := 0, hour := 0, wday := 0, mday := 1, mon := 99, year := 2000 } (ready [])
    s.busy = false ∧ s.present = .ok ∧ ¬ FieldsAreEncodable s.regs.time ∧ ¬ FieldsAreEncodable u.regs.time := by
  unfold FieldsAreEncodable; decide +kernel

/-- A record that can be set, on the test device. -/
def settable (sec : Byte) (year : Half) : State :=
  withTime { sec := sec, min := 59, hour := 23, wday := 99, mday := 31, mon := 11, year := year } (ready [(0, 0x17)])

/-- What `ReadTimeAfterSetTimeReturnsTheRecord` and `HaltBitIsSetThenClearDuringSetTime` ask of the state. -/
theorem witness_settable_state (sec : Byte) (year : Half) :
    (settable sec year).busy = false ∧ (settable sec year).present = .ok ∧
    (settable sec year).env = .echo { mem := [(0, 0x17)], n := 0, c := 0, d := 0 } ∧ Memory.wf [(0, 0x17)] :=
  ⟨rfl, rfl, rfl, by decide⟩

/-- The two ends of the window of years. -/
theorem witness_ReadTimeAfterSetTimeReturnsTheRecord :
    validTime 59 59 23 31 11 1970 = true ∧ validTime 59 59 23 31 11 2069 = true ∧
    (settable 59 1970).regs.time.year.toNat = 1970 ∧ (settable 59 2069).regs.time.year.toNat = 2069 ∧
    (settable 59 1970).regs.time.sec.toNat = 59 ∧ (settable 59 1970).regs.time.min.toNat = 59 ∧
    (settable 59 1970).regs.time.hour.toNat = 23 ∧ (settable 59 1970).regs.time.wday.toNat = 99 ∧
    (settable 59 1970).regs.time.mday.toNat = 31 ∧ (settable 59 1970).regs.time.mon.toNat = 11 :=
  ⟨by decide, by decide, rfl, rfl, rfl, rfl, rfl, rfl, rfl, rfl⟩

/-- Seconds at and above the bound of the clause; the rest is `witness_settable_state`. -/
theorem witness_HaltBitIsSetThenClearDuringSetTime :
    FieldsAreEncodable (settable 79 2000).regs.time ∧ FieldsAreEncodable (settable 80 2000).regs.time := by
  constructor <;> simp [FieldsAreEncodable, settable, withTime]

/-- The gate open and the recognised request code latched: `TrickleWritesAreOneWriteTransaction`,
`DelaysAddUpToTheLeastDuration`. -/
def requesting (code : Half) : State :=
  let s := ready []
  { s with regs := { s.regs with cCode := code, cArg := 2 } }

theorem witness_recognised_request :
    (requesting Config.ctrlTcStrength).busy = false ∧ (requesting Config.ctrlTcStrength).present = .ok ∧
    (requesting Config.ctrlTcStrength).regs.cCode = Config.ctrlTcStrength ∧
    FieldsAreEncodable (requesting Config.ctrlTcStrength).regs.time ∧
    ∃ t, exec .ctrl (requesting Config.ctrlTcStrength) = .next t := by
  refine ⟨rfl, rfl, rfl, ?_, ⟨_, rfl⟩⟩
  unfold FieldsAreEncodable
  simp [requesting, ready, State.reset, HostRegs.atReset]

theorem witness_UnrecognisedRequestIsReportedAndHarmless :
    (requesting (Config.ctrlTcStrength + 1)).busy = false ∧ (requesting (Config.ctrlTcStrength + 1)).present = .ok ∧
    (requesting (Config.ctrlTcStrength + 1)).regs.cCode ≠ Config.ctrlTcStrength := by
  refine ⟨rfl, rfl, ?_⟩
  show Config.ctrlTcStrength + 1 ≠ Config.ctrlTcStrength
  simp

theorem witness_ShutGateRefusesTheSixServices :
    State.reset.busy = false ∧ State.reset.present ≠ .ok ∧
    ({ State.reset with present := .absent } : State).present ≠ .ok := by decide

theorem witness_MalformedTextWritesZero :
    stripHexMark (stripBlanks []) = [] ∧ stripHexMark (stripBlanks (ascii ['0', 'x'])) = [] ∧
    (∃ ch ∈ stripHexMark (stripBlanks (ascii ['g', '1'])), hexValue? ch = none) ∧
    ({ ready [] with inputs := [.tcStore (ascii ['h', 'e', 'l', 'l', 'o'])] } : State).busy = false ∧
    ({ ready [] with inputs := [.tcStore (ascii ['h', 'e', 'l', 'l', 'o'])] } : State).present = .ok ∧
    ({ State.reset with inputs := [.tcStore (ascii ['a', '5'])] } : State).present ≠ .ok ∧
    ({ State.reset with inputs := [.tcStore (ascii ['a', '5'])] } : State).inputs = .tcStore (ascii ['a', '5']) :: [] := by
  decide

theorem witness_TcShowGivesTheTextOfTheByteRead :
    ({ ready [] with inputs := [.tcShow] } : State).present = .ok ∧
    ({ State.reset with inputs := [.tcShow] } : State).present ≠ .ok ∧
    ({ State.reset with inputs := [.tcShow] } : State).busy = false := by decide

/-- `StepRunsTheDecodedInstruction`, `PlacedWordRunsAtTheNextStep`, `OnlyACommandByteOpensATransaction`. -/
theorem witness_placed_words :
    decode .host 0x0A = .ok .readbyte ∧ decode .wire 0xC1 = .ok .rdRam0 ∧ decodeTableWord 8 0x1F = some .selftest ∧
    decodeTableWord 8 0x80 = some .wrSeconds ∧ (0x7F#8).getLsbD 7 = false ∧ (0x80#8).getLsbD 7 = true ∧
    ({ State.reset with inputs := [.call 0x0A] } : State).inputs = .call 0x0A :: [] ∧
    ({ State.reset with inputs := [.frame 0xC1] } : State).inputs = .frame 0xC1 :: [] ∧
    ({ State.reset with inputs := [.post 0x0A, .wait] } : State).inputs = .post 0x0A :: [.wait] ∧
    ({ State.reset with inputs := [.wait] } : State).inputs = .wait :: [] ∧ State.reset.inputs = [] := by decide

/-- A state of a run: a `reset` that has been started and has all its steps to do. -/
def running : State := postOp 0x00 (ready [(0x20, 0x42)])

theorem witness_BusyDropsEveryWrite :
    running.busy = true ∧ ({ running with inputs := [.call 0x1F] } : State).busy = true ∧
    ({ running with inputs := [.write (.a 1)] } : State).inputs = .write (.a 1) :: [] ∧
    (∀ act ∈ ([.call 0x1F, .post 0x11, .frame 0x80, .frame 0xFF, .tcShow, .tcStore [], .tcStore (ascii ['a', '5'])] :
        List HostAction), ({ running with inputs := [act] } : State).inputs = act :: []) ∧
    decode .wire 0x80 = .ok .wrSeconds ∧ decode .wire 0xFF = .ok (.cmdRead 0x3F) := by decide

/-- `IdleOperandWriteSetsThatRegisterOnly`, `PortReadShowsTheRegisterAndChangesNothing`,
`HardwareResetIdlesTheBlockAndNotTheBus`, `NoStepWritesTheParameters`. -/
theorem witness_port_actions :
    State.reset.busy = false ∧ ({ State.reset with inputs := [.write (.tYear 2024)] } : State).inputs =
      .write (.tYear 2024) :: [] ∧
    (∀ w ∈ (timeWrites ++ [.a 1, .v 2, .cCode 0xFFFF, .cArg 0xFF] : List OperandWrite),
      ({ State.reset with inputs := [.write w] } : State).inputs = .write w :: []) ∧
    (∀ p ∈ ([.a, .v, .r, .status, .tSec, .tMin, .tHour, .tWday, .tMday, .tMon, .tYear, .cCode, .cArg, .busy] :
        List PortReg), ({ running with inputs := [.read p] } : State).inputs = .read p :: []) ∧
    (∃ t, step { running with inputs := [.hardReset] } = .next t) ∧
    ({ running with inputs := [.hardReset] } : State).inputs = .hardReset :: [] :=
  ⟨rfl, rfl, fun _ _ => rfl, fun _ _ => rfl, ⟨_, rfl⟩, rfl⟩

/-- `EveryStepKeepsTheInvariant`, `NoOperationHangs`: the invariant holds of a running state, and it steps. -/
theorem witness_EveryStepKeepsTheInvariant : Inv running ∧ running.busy = true ∧ ∃ t, step running = .next t := by
  refine ⟨⟨rfl, rfl, ?_, ?_, ?_, ⟨.ok, rfl⟩, ?_, ?_⟩, rfl, ⟨_, rfl⟩⟩
  · exact fun h => absurd h (by decide)
  · exact fun _ => by decide
  · decide
  · decide
  · intro dev h
    have h' : Env.echo { mem := [(0x20, 0x42)], n := 0, c := 0, d := 0 } = Env.echo dev := h
    injection h' with h''
    rw [← h'']
    decide

/-- The three ways `PRESENT` changes in `OnlySelftestAndResetWritePresent`. -/
theorem witness_OnlySelftestAndResetWritePresent :
    (∃ t, exec .reset State.reset = .next t) ∧
    gives (step { ready [] with inputs := [.hardReset] }) (fun t => decide (t.present ≠ .ok)) = true ∧
    gives (step { ready [] with present := .absent, inputs := [.call 0x1F] })
      (fun t => decide (t.present ≠ .absent)) = true ∧
    gives (step { ready [] with busy := true, seq := [.compareSentinel, .setStatus .ok, .release] })
      (fun t => decide (t.present ≠ .ok)) = true := by
  refine ⟨⟨_, rfl⟩, rfl, ?_, ?_⟩ <;> decide +kernel

/-- `OnlyTheDataLineTurnsOrIsRead`, `OperationsWriteOnlyTheirResultRegisters`, `NoTransactionIsLeftOpen`. -/
theorem witness_operation_frames :
    (∃ t, exec .writebyte State.reset = .next t) ∧
    Instr.writebyte ∉ ([.reset, .start, .stop, .clock, .txbit, .rxbit, .sendbits, .recvbits] : List Instr) ∧
    Instr.writebyte ∉ ([.rxbit, .recvbits, .readbyte, .tcGet] : List Instr) ∧
    (∀ a, Instr.writebyte ≠ .cmdRead a) ∧ ∀ r, Instr.writebyte ≠ readRow r := by
  refine ⟨⟨_, rfl⟩, by decide, by decide, fun a => by simp, fun r => ?_⟩
  cases r <;> decide

theorem witness_EnvironmentDecidesOnlyTheAnswers :
    (∃ t, exec .readbyte State.reset = .next t) ∧
    ∃ t, exec .readbyte { State.reset with env := echo [], draws := 3 } = .next t := ⟨⟨_, rfl⟩, ⟨_, rfl⟩⟩

end Sys2Proof.Tests
end

section
/-! SUPPORT. The parameters (00_scope.md R6, 10_state.md R30): what each action of the host and the block's own step do to
them, up to the whole step of the machine. -/

namespace Sys2Proof.Machine

/-! ### Operations and the block's own step -/

theorem exec_params {i : Instr} {s t : State} (h : exec i s = .next t) : t.params = s.params := by
  obtain ⟨-, rfl⟩ | ⟨e, u, hu, rfl⟩ := exec_frame h
  · exact refuseBusy_params s
  · exact hu.params

@[simp] theorem tick_params (s : State) : (tick s).params = s.params := by
  cases hs : s.seq with
  | nil => rw [tick_nil hs]
  | cons st rest =>
    have hf : (doStep st { s with seq := rest }).state.params = s.params := (doStep_frame st _).params
    cases hd : doStep st { s with seq := rest } with
    | goOn t => rw [tick_goOn hs hd]; rwa [hd] at hf
    | raised e t => rw [tick_raised hs hd]; rwa [hd] at hf

/-! ### The host port -/

@[simp] theorem illegalOp_params (s : State) : s.illegalOp.params = s.params := by
  unfold State.illegalOp; split <;> rfl

@[simp] theorem hostWrite_params (w : OperandWrite) (s : State) : (hostWrite w s).params = s.params := by
  unfold hostWrite; split <;> rfl

@[simp] theorem hostRead_params (p : PortReg) (s : State) : (hostRead p s).params = s.params := rfl

@[simp] theorem post_params (c : Option Byte) (prog : List SeqStep) (s : State) :
    (post c prog s).params = s.params := by
  unfold post; split <;> rfl

@[simp] theorem postOp_params (code : Byte) (s : State) : (postOp code s).params = s.params := by
  unfold postOp
  split
  · exact post_params _ _ s
  · exact illegalOp_params s

theorem callOp_params {code : Byte} {s t : State} (h : callOp code s = .next t) : t.params = s.params := by
  unfold callOp at h
  split at h
  · exact exec_params h
  · obtain rfl := Host.Outcome.next.inj h
    exact illegalOp_params s

theorem callFrame_params {cmd : Byte} {s t : State} (h : callFrame cmd s = .next t) : t.params = s.params := by
  unfold callFrame at h
  split at h
  · exact exec_params h
  · cases h

theorem tcShow_params {s t : State} (h : tcShow s = .next t) : t.params = s.params := by
  unfold tcShow at h
  split at h
  · obtain rfl := Host.Outcome.next.inj h
    exact refuseBusy_params s
  · split at h
    next u hu =>
      obtain rfl := Host.Outcome.next.inj h
      exact exec_params (t := u) hu
    next => cases h
    next => cases h

theorem tcStore_params {text : List Byte} {s t : State} (h : tcStore text s = .next t) : t.params = s.params :=
  (exec_params h).trans (hostWrite_params _ s)

/-- No action of the host writes a parameter (R30). -/
theorem perform_params {act : HostAction} {s t : State} (h : perform act s = .next t) : t.params = s.params := by
  cases act with
  | call code => exact callOp_params h
  | post code => obtain rfl := Host.Outcome.next.inj h; exact postOp_params code s
  | frame cmd => exact callFrame_params h
  | write w => obtain rfl := Host.Outcome.next.inj h; exact hostWrite_params w s
  | read p => obtain rfl := Host.Outcome.next.inj h; exact hostRead_params p s
  | tcShow => exact tcShow_params h
  | tcStore text => exact tcStore_params h
  | hardReset => obtain rfl := Host.Outcome.next.inj h; exact hardReset_params s
  | wait => obtain rfl := Host.Outcome.next.inj h; exact tick_params s

/-- Taking an action off the queue writes no parameter either, so no step does. -/
theorem step_params {s t : State} (h : step s = .next t) : t.params = s.params := by
  unfold step at h
  split at h
  · obtain rfl := Host.Outcome.next.inj h
    exact tick_params s
  next act rest _ => exact perform_params (s := { s with inputs := rest }) h

/-- Settles O59: the values at power-on are `Params.default`, and every step, an action of the host or the block's own,
keeps the parameters. -/
theorem noStepWritesTheParameters : Obligations.NoStepWritesTheParameters := by
  unfold Obligations.NoStepWritesTheParameters
  exact ⟨rfl, fun _ _ => step_params⟩

end Sys2Proof.Machine
end

section
/-! SUPPORT. What each action of the host can do, said once for every claim about a whole step (10_state.md R24, R26,
R27; 60_exceptions.md R219). -/

namespace Sys2Proof.Machine

/-! ### The step by the host's next action -/

theorem step_of_action {s : State} {act : HostAction} {rest : List HostAction} (h : s.inputs = act :: rest) :
    step s = perform act { s with inputs := rest } := by
  rw [step, h]

/-- A step is an action taken off the host's queue, or the block's own move. -/
theorem step_cases {s t : State} (h : step s = .next t) :
    (s.inputs = [] ∧ t = tick s) ∨
      ∃ act rest, s.inputs = act :: rest ∧ perform act { s with inputs := rest } = .next t := by
  cases hi : s.inputs with
  | nil =>
    rw [step, hi] at h
    exact .inl ⟨rfl, (Host.Outcome.next.inj h).symm⟩
  | cons act rest => exact .inr ⟨act, rest, rfl, by rwa [step_of_action hi] at h⟩

/-! ### Operations at the port -/

theorem exec_busy {i : Instr} {s : State} (h : s.busy = true) : exec i s = .next s.refuseBusy := by
  rw [exec_eq_operate, operate_busy h]

theorem illegalOp_cases (s : State) :
    s.illegalOp = s.refuseBusy ∨ s.illegalOp = { s.setStatus .illegalOp with answer := .accepted } := by
  unfold State.illegalOp
  split
  · exact .inl rfl
  · exact .inr rfl

theorem callOp_cases {code : Byte} {s t : State} (h : callOp code s = .next t) :
    (∃ i, decodeOp code = .ok i ∧ exec i s = .next t) ∨ t = s.illegalOp := by
  unfold callOp at h
  split at h
  next i hi => exact .inl ⟨i, hi, h⟩
  next => exact .inr (Host.Outcome.next.inj h).symm

theorem callFrame_cases {cmd : Byte} {s t : State} (h : callFrame cmd s = .next t) :
    ∃ i, decodeCommand cmd = .ok i ∧ exec i s = .next t := by
  unfold callFrame at h
  split at h
  next i hi => exact ⟨i, hi, h⟩
  next => cases h

theorem post_busy {s : State} (h : s.busy = true) (c : Option Byte) (prog : List SeqStep) :
    post c prog s = s.refuseBusy := by
  rw [post, h, if_pos rfl]

theorem post_idle {s : State} (h : s.busy = false) (c : Option Byte) (prog : List SeqStep) :
    post c prog s = { s.begin c with seq := prog ++ returnSteps } := by
  rw [post, h, if_neg Bool.false_ne_true]

theorem postOp_cases (code : Byte) (s : State) :
    (∃ i, postOp code s = post (startCode i) (program i s) s) ∨ postOp code s = s.illegalOp := by
  unfold postOp
  split
  next i _ => exact .inl ⟨i, rfl⟩
  next => exact .inr rfl

/-! ### Registers and wrappers -/

theorem hostWrite_busy {s : State} (h : s.busy = true) (w : OperandWrite) : hostWrite w s = s.refuseBusy := by
  rw [hostWrite, h, if_pos rfl]

theorem hostWrite_idle {s : State} (h : s.busy = false) (w : OperandWrite) :
    hostWrite w s = { s with regs := w.store s.regs, answer := .accepted } := by
  rw [hostWrite, h, if_neg Bool.false_ne_true]

@[simp] theorem store_status (w : OperandWrite) (r : HostRegs) : (w.store r).status = r.status := by
  cases w <;> rfl

/-- `tc_show` is `tc_get` and a text (R196), refused or not. -/
theorem tcShow_cases {s t : State} (h : tcShow s = .next t) :
    ∃ u x, exec .tcGet s = .next u ∧ t = { u with text := x } := by
  unfold tcShow at h
  split at h
  next hb => exact ⟨_, _, exec_busy hb, (Host.Outcome.next.inj h).symm⟩
  next =>
    split at h
    next u hu => exact ⟨u, _, hu, (Host.Outcome.next.inj h).symm⟩
    next => cases h
    next => cases h

/-- `tc_store` is a write of `V` and `tc_set` (R197). -/
theorem perform_tcStore (text : List Byte) (s : State) :
    perform (.tcStore text) s = exec .tcSet (hostWrite (.v (parseHexOrZero text)) s) := rfl

end Sys2Proof.Machine
end

section
/-! SUPPORT. The invariant of a run (`Inv`): every action of the host and every step of a running operation keeps it. -/

namespace Sys2Proof.Machine

/-! ### The invariant of an idle block and of a running one -/

theorem Inv.of_idle {s : State} (hb : s.busy = false) (hq : s.seq = []) (hw : s.work = Work.idle)
    (hrst : s.lines.dirRst = .output) (hclk : s.lines.dirClk = .output) (hs : ∃ e : Status, s.regs.status = e.code)
    (hr : Status.ok ∉ s.raised) (hc : ∀ dev, s.env = .echo dev → dev.mem.wf) : Inv s where
  dirRst := hrst
  dirClk := hclk
  idle _ := ⟨hq, hw⟩
  running hb' := absurd (hb.symm.trans hb') Bool.false_ne_true
  legal := by simp [hq]
  status := hs
  raised := hr
  chip := hc

theorem Inv.of_busy {s : State} (hb : s.busy = true) (hq : seqClosed s.seq = true)
    (hl : ∀ st ∈ s.seq, st.legal = true) (hrst : s.lines.dirRst = .output) (hclk : s.lines.dirClk = .output)
    (hs : ∃ e : Status, s.regs.status = e.code) (hr : Status.ok ∉ s.raised)
    (hc : ∀ dev, s.env = .echo dev → dev.mem.wf) : Inv s where
  dirRst := hrst
  dirClk := hclk
  idle hb' := absurd (hb'.symm.trans hb) Bool.false_ne_true
  running _ := hq
  legal := hl
  status := hs
  raised := hr
  chip := hc

/-! ### What the invariant does not read -/

/-- The invariant reads the directions, `BUSY`, `SEQ`, the working state, `STATUS`, the record and the environment. -/
theorem Inv.congr {s t : State} (h : Inv s) (hl : t.lines = s.lines) (hb : t.busy = s.busy) (hq : t.seq = s.seq)
    (hw : t.work = s.work) (hs : t.regs.status = s.regs.status) (hr : t.raised = s.raised) (he : t.env = s.env) :
    Inv t := by
  obtain ⟨dirRst, dirClk, idle, running, legal, status, raised, chip⟩ := h
  constructor
  · rwa [hl]
  · rwa [hl]
  · rwa [hb, hq, hw]
  · rwa [hb, hq]
  · rwa [hq]
  · rwa [hs]
  · rwa [hr]
  · rwa [he]

theorem Inv.withInputs {s : State} (h : Inv s) (acts : List HostAction) : Inv { s with inputs := acts } :=
  h.congr rfl rfl rfl rfl rfl rfl rfl

theorem Inv.withAnswer {s : State} (h : Inv s) (x : PortAnswer) : Inv { s with answer := x } :=
  h.congr rfl rfl rfl rfl rfl rfl rfl

theorem Inv.withText {s : State} (h : Inv s) (x : Option (List Byte)) : Inv { s with text := x } :=
  h.congr rfl rfl rfl rfl rfl rfl rfl

theorem Inv.refuseBusy {s : State} (h : Inv s) : Inv s.refuseBusy := h.withAnswer .busy

/-! ### The status and its record (R28) -/

theorem ok_notMem_setStatus {s : State} (e : Status) (h : Status.ok ∉ s.raised) :
    Status.ok ∉ (s.setStatus e).raised := by
  rw [setStatus_raised]
  split
  next => exact h
  next he => exact List.not_mem_cons_of_ne_of_not_mem (Ne.symm he) h

theorem Inv.setStatus {s : State} (h : Inv s) (e : Status) : Inv (s.setStatus e) := by
  obtain ⟨dirRst, dirClk, idle, running, legal, -, raised, chip⟩ := h
  exact ⟨dirRst, dirClk, idle, running, legal, ⟨e, rfl⟩, ok_notMem_setStatus e raised, chip⟩

theorem Inv.illegalOp {s : State} (h : Inv s) : Inv s.illegalOp := by
  obtain hs | hs := illegalOp_cases s
  · rw [hs]; exact h.refuseBusy
  · rw [hs]; exact (h.setStatus .illegalOp).withAnswer .accepted

/-! ### Operations -/

/-- An operation run to its end (R27, R211). -/
theorem Inv.ended {prog : List SeqStep} {c : Option Byte} {s u : State} (h : Inv s)
    (hu : RunFrame prog (s.begin c) u) (e : Status) : Inv (u.raise e) :=
  .of_idle rfl rfl rfl (hu.dirRst.trans h.dirRst) (hu.dirClk.trans h.dirClk) ⟨e, rfl⟩
    (ok_notMem_setStatus e (hu.raised ▸ h.raised)) (hu.chip h.chip)

theorem Inv.exec {i : Instr} {s t : State} (h : Inv s) (he : exec i s = .next t) : Inv t := by
  obtain ⟨-, rfl⟩ | ⟨e, u, hu, rfl⟩ := exec_frame he
  · exact h.refuseBusy
  · exact h.ended hu e

/-- An operation started and not waited for (R27). -/
theorem Inv.post {s : State} (h : Inv s) (i : Instr) (c : Option Byte) : Inv (post c (program i s) s) := by
  cases hb : s.busy with
  | true => rw [post_busy hb]; exact h.refuseBusy
  | false =>
    rw [post_idle hb]
    exact .of_busy rfl (seqClosed_append _ (program_inner i s)) (program_legal i s) h.dirRst h.dirClk h.status h.raised
      h.chip

/-! ### The block's own step -/

/-- A running block's sequence is not empty, and a block with a sequence is busy (R24). -/
theorem Inv.busy_of_seq {s : State} {st : SeqStep} {rest : List SeqStep} (h : Inv s) (hs : s.seq = st :: rest) :
    s.busy = true := by
  cases hb : s.busy with
  | true => rfl
  | false => rw [(h.idle hb).1] at hs; cases hs

/-- Only `setStatus` writes `STATUS`, with a code of R212, and records it unless it is `Ok` (R28). -/
theorem doStep_status {s : State} (st : SeqStep) (h : ∃ e : Status, s.regs.status = e.code)
    (hr : Status.ok ∉ s.raised) :
    (∃ e : Status, (doStep st s).state.regs.status = e.code) ∧ Status.ok ∉ (doStep st s).state.raised := by
  by_cases hst : ∃ e, st = .setStatus e
  · obtain ⟨e, rfl⟩ := hst
    exact ⟨⟨e, rfl⟩, ok_notMem_setStatus e hr⟩
  · obtain ⟨h1, h2⟩ := (doStep_frame st s).status (not_exists.mp hst)
    rw [h1, h2]
    exact ⟨h, hr⟩

/-- A step that does not end the operation keeps the invariant, with any closed and legal rest of the sequence. -/
theorem Inv.doStep {s : State} {st : SeqStep} {rest q : List SeqStep} (h : Inv s) (hs : s.seq = st :: rest)
    (hst : st ≠ .release) (hq : seqClosed q = true) (hl : ∀ x ∈ q, x.legal = true) :
    Inv { (doStep st { s with seq := rest }).state with seq := q } := by
  have hf := doStep_frame st { s with seq := rest }
  obtain ⟨hstatus, hraised⟩ := doStep_status (s := { s with seq := rest }) st h.status h.raised
  obtain ⟨hrst, hclk⟩ := hf.dirs (h.legal st (by rw [hs]; exact List.mem_cons_self))
  have hbusy : (Machine.doStep st { s with seq := rest }).state.busy = true :=
    (hf.busy hst).1.trans (h.busy_of_seq hs)
  exact .of_busy hbusy hq hl (hrst.trans h.dirRst) (hclk.trans h.dirClk) hstatus hraised (hf.chip h.chip)

theorem Inv.release {s : State} (h : Inv s) : Inv s.release :=
  .of_idle rfl rfl rfl h.dirRst h.dirClk h.status h.raised h.chip

theorem tick_release {s : State} {rest : List SeqStep} (hs : s.seq = .release :: rest) : tick s = s.release :=
  tick_goOn hs rfl

theorem Inv.tick {s : State} (h : Inv s) : Inv (tick s) := by
  cases hs : s.seq with
  | nil => rw [tick_nil hs]; exact h
  | cons st rest =>
    by_cases hst : st = .release
    · subst hst
      rw [tick_release hs]
      exact h.release
    · have hclosed : seqClosed rest = true := by
        rw [← seqClosed_cons hst, ← hs]
        exact h.running (h.busy_of_seq hs)
      have hlegal : ∀ x ∈ rest, x.legal = true := fun x hx =>
        h.legal x (by rw [hs]; exact List.mem_cons_of_mem st hx)
      have hseq := ((doStep_frame st { s with seq := rest }).busy hst).2
      cases hd : Machine.doStep st { s with seq := rest } with
      | goOn t =>
        have ht := h.doStep hs hst hclosed hlegal
        rw [hd] at ht hseq
        rw [tick_goOn hs hd]
        exact ht.congr rfl rfl hseq rfl rfl rfl rfl
      | raised e t =>
        have ht := h.doStep (q := [.setStatus e, .release]) hs hst rfl (by simp [SeqStep.legal])
        rw [hd] at ht
        rw [tick_raised hs hd]
        exact ht

/-! ### The host's actions -/

theorem Inv.hostWrite {s : State} (h : Inv s) (w : OperandWrite) : Inv (hostWrite w s) := by
  cases hb : s.busy with
  | true => rw [hostWrite_busy hb]; exact h.refuseBusy
  | false => rw [hostWrite_idle hb]; exact h.congr rfl rfl rfl rfl (store_status w s.regs) rfl rfl

theorem Inv.hardReset {s : State} (h : Inv s) : Inv s.hardReset :=
  .of_idle rfl rfl rfl rfl rfl ⟨.ok, rfl⟩ h.raised h.chip

theorem Inv.postOp {s : State} (h : Inv s) (code : Byte) : Inv (postOp code s) := by
  obtain ⟨i, hp⟩ | hp := postOp_cases code s
  · rw [hp]; exact h.post i _
  · rw [hp]; exact h.illegalOp

theorem Inv.perform {act : HostAction} {s t : State} (h : Inv s) (ha : perform act s = .next t) : Inv t := by
  cases act with
  | call code =>
    obtain ⟨i, -, hi⟩ | rfl := callOp_cases ha
    · exact h.exec hi
    · exact h.illegalOp
  | post code => obtain rfl := Host.Outcome.next.inj ha; exact h.postOp code
  | frame cmd =>
    obtain ⟨i, -, hi⟩ := callFrame_cases ha
    exact h.exec hi
  | write w => obtain rfl := Host.Outcome.next.inj ha; exact h.hostWrite w
  | read p => obtain rfl := Host.Outcome.next.inj ha; exact h.withAnswer _
  | tcShow =>
    obtain ⟨u, x, hu, rfl⟩ := tcShow_cases ha
    exact (h.exec hu).withText x
  | tcStore text =>
    rw [perform_tcStore] at ha
    exact (h.hostWrite _).exec ha
  | hardReset => obtain rfl := Host.Outcome.next.inj ha; exact h.hardReset
  | wait => obtain rfl := Host.Outcome.next.inj ha; exact h.tick

/-- Settles O50: a step is the block's own move or an action of the host, and each keeps the invariant. -/
theorem everyStepKeepsTheInvariant : Obligations.EveryStepKeepsTheInvariant := by
  unfold Obligations.EveryStepKeepsTheInvariant
  intro s t h hs
  obtain ⟨-, rfl⟩ | ⟨act, rest, -, ha⟩ := step_cases hs
  · exact h.tick
  · exact (h.withInputs rest).perform ha

/-- Settles O49: at power-on the block is idle with nothing recorded, and the environment has no device. -/
theorem invariantHoldsAtReset : Obligations.InvariantHoldsAtReset :=
  .of_idle rfl rfl rfl rfl rfl ⟨.ok, rfl⟩ List.not_mem_nil fun _ he => nomatch he

/-- Settles O48: each value of R32 is the one the definition gives. -/
theorem powerOnStateIsTheSpecs : Obligations.PowerOnStateIsTheSpecs := by
  unfold Obligations.PowerOnStateIsTheSpecs
  exact ⟨rfl, rfl, rfl, rfl, rfl, rfl, rfl⟩

end Sys2Proof.Machine
end

section
/-! SUPPORT. An operation started at the port and the call of the same operation (10_state.md R24, R27; R69). -/

namespace Sys2Proof.Machine

/-- The two steps every operation ends with, `STATUS` and then `BUSY`, whether it returns or raises (R27, R211). -/
theorem ticks_end (e : Status) (s : State) : ticks 2 { s with seq := [.setStatus e, .release] } = s.raise e := rfl

/-- The first of the two leaves `BUSY` up. -/
theorem ticks_end_busy (e : Status) (s : State) {k : Nat} (hk : k < 2) :
    (ticks k { s with seq := [.setStatus e, .release] }).busy = s.busy := by
  obtain rfl | rfl : k = 0 ∨ k = 1 := by omega
  · rfl
  · rfl

/-- A started program comes, with `BUSY` up all along, to the two steps that end it as the call of it ends. -/
theorem post_reaches_end {c : Option Byte} {prog : List SeqStep} {s : State} (hb : s.busy = false)
    (hp : ∀ st ∈ prog, st.inner = true) :
    ∃ (n : Nat) (e : Status) (t : State), operate c prog s = t.raise e ∧
      ticks n (post c prog s) = { t with seq := [.setStatus e, .release] } ∧
      ∀ k, k ≤ n → (ticks k (post c prog s)).busy = true := by
  rw [post_idle hb]
  cases hr : runSteps prog (s.begin c) with
  | goOn t =>
    obtain ⟨hn, hbusy⟩ := ticks_goOn prog returnSteps (s.begin c) t hp hr
    exact ⟨prog.length, .ok, t, operate_goOn hb hr, hn, hbusy⟩
  | raised e t =>
    obtain ⟨n, -, hn, hbusy⟩ := ticks_raised prog returnSteps (s.begin c) t e hp hr
    exact ⟨n, e, t, operate_raised hb hr, hn, hbusy⟩

/-- Settles O51: the started program reaches the two closing steps with `BUSY` up, and those give the call's state. -/
theorem startedOperationEndsAsTheCallDoes : Obligations.StartedOperationEndsAsTheCallDoes := by
  unfold Obligations.StartedOperationEndsAsTheCallDoes
  intro i s hb
  obtain ⟨n, e, t, hcall, hend, hbusy⟩ := post_reaches_end (c := startCode i) hb (program_inner i s)
  refine ⟨n + 2, by rw [exec_eq_operate, hcall, ticks_add, hend, ticks_end], fun k hk => ?_⟩
  by_cases hkn : k ≤ n
  · exact hbusy k hkn
  · obtain ⟨j, rfl⟩ := Nat.exists_eq_add_of_lt (Nat.lt_of_not_le hkn)
    have ht : t.busy = true := by simpa [hend] using hbusy n le_rfl
    rw [Nat.add_assoc, ticks_add, hend, ticks_end_busy e t (by omega), ht]

end Sys2Proof.Machine
end

section
/-! SUPPORT. What operations leave alone: `PRESENT` (10_state.md R25), the directions and reads of `RST` and `CLK` (R21,
R52, R54), and the host registers that hold no result of theirs (R26). -/

namespace Sys2Proof.Machine

/-! ### PRESENT -/

theorem exec_present {i : Instr} {s t : State} (hi : i ≠ .selftest) (h : exec i s = .next t) :
    t.present = s.present := by
  obtain ⟨-, rfl⟩ | ⟨e, u, hu, rfl⟩ := exec_frame h
  · exact refuseBusy_present s
  · exact hu.present (not_special rfl (mt (specialSteps_compare i s) hi))

/-- Of the codes of R99 only `0x1F` selects the self-test. -/
theorem decodeOp_selftest {code : Byte} : decodeOp code = .ok .selftest → code = 0x1F := by
  revert code; decide

/-- No command byte stands for the self-test (R92, R93). -/
theorem decodeCommand_ne_selftest {cmd : Byte} : decodeCommand cmd ≠ .ok .selftest := by
  revert cmd; decide

@[simp] theorem illegalOp_present (s : State) : s.illegalOp.present = s.present := by
  obtain h | h := illegalOp_cases s <;> rw [h] <;> rfl

@[simp] theorem post_present (c : Option Byte) (prog : List SeqStep) (s : State) :
    (post c prog s).present = s.present := by
  cases hb : s.busy with
  | true => rw [post_busy hb, refuseBusy_present]
  | false => rw [post_idle hb, begin_present]

@[simp] theorem hostWrite_present (w : OperandWrite) (s : State) : (hostWrite w s).present = s.present := by
  cases hb : s.busy with
  | true => rw [hostWrite_busy hb, refuseBusy_present]
  | false => rw [hostWrite_idle hb]

theorem postOp_present (code : Byte) (s : State) : (postOp code s).present = s.present := by
  obtain ⟨i, h⟩ | h := postOp_cases code s
  · rw [h, post_present]
  · rw [h, illegalOp_present]

/-- Of the block's own steps only the compare of a self-test writes `PRESENT` (R199). -/
theorem tick_present {s : State} (h : ∀ rest, s.seq ≠ .compareSentinel :: rest) : (tick s).present = s.present := by
  cases hs : s.seq with
  | nil => rw [tick_nil hs]
  | cons st rest =>
    have hst : st ≠ .compareSentinel := fun hc => h rest (by rw [hs, hc])
    have hf := (doStep_frame st { s with seq := rest }).present hst
    cases hd : doStep st { s with seq := rest } with
    | goOn t => rw [tick_goOn hs hd]; rwa [hd] at hf
    | raised e t => rw [tick_raised hs hd]; rwa [hd] at hf

/-- The host's actions that write `PRESENT` (R25, R32). -/
theorem perform_present {act : HostAction} {s t : State} (hc : act ≠ .call 0x1F) (hr : act ≠ .hardReset)
    (hq : ∀ rest, s.seq ≠ .compareSentinel :: rest) (h : perform act s = .next t) : t.present = s.present := by
  cases act with
  | call code =>
    obtain ⟨i, hi, he⟩ | rfl := callOp_cases h
    · exact exec_present (fun hs => hc (congrArg HostAction.call (decodeOp_selftest (hs ▸ hi)))) he
    · exact illegalOp_present s
  | post code => obtain rfl := Host.Outcome.next.inj h; exact postOp_present code s
  | frame cmd =>
    obtain ⟨i, hi, he⟩ := callFrame_cases h
    exact exec_present (fun hs => decodeCommand_ne_selftest (hs ▸ hi)) he
  | write w => obtain rfl := Host.Outcome.next.inj h; exact hostWrite_present w s
  | read p => obtain rfl := Host.Outcome.next.inj h; rfl
  | tcShow =>
    obtain ⟨u, x, hu, rfl⟩ := tcShow_cases h
    exact exec_present (t := u) (by simp) hu
  | tcStore text =>
    rw [perform_tcStore] at h
    exact (exec_present (by simp) h).trans (hostWrite_present _ s)
  | hardReset => exact absurd rfl hr
  | wait => obtain rfl := Host.Outcome.next.inj h; exact tick_present hq

/-- Settles O53: of the programs only the self-test's compares, and a step that is none of the three keeps `PRESENT`. -/
theorem onlySelftestAndResetWritePresent : Obligations.OnlySelftestAndResetWritePresent := by
  unfold Obligations.OnlySelftestAndResetWritePresent
  refine ⟨fun i s t => exec_present, fun s t hs hne => ?_⟩
  by_contra hnone
  obtain ⟨hcall, hreset, hseq⟩ := by simpa only [not_or, not_exists] using hnone
  refine hne ?_
  obtain ⟨-, rfl⟩ | ⟨act, rest, hi, ha⟩ := step_cases hs
  · exact tick_present hseq
  · exact perform_present (s := { s with inputs := rest }) (fun hc => hcall rest (hc ▸ hi))
      (fun hr => hreset rest (hr ▸ hi)) hseq ha

/-! ### Directions, reads and result registers -/

/-- Settles O54: a refused operation does nothing, and the steps of a program turn and read the data line only. -/
theorem onlyTheDataLineTurnsOrIsRead : Obligations.OnlyTheDataLineTurnsOrIsRead := by
  unfold Obligations.OnlyTheDataLineTurnsOrIsRead
  intro i s t h
  obtain ⟨-, rfl⟩ | ⟨e, u, hu, rfl⟩ := exec_frame h
  · exact ⟨rfl, rfl, [], (List.append_nil _).symm, fun _ hm => absurd hm List.not_mem_nil⟩
  · exact ⟨hu.dirRst, hu.dirClk, hu.events⟩

theorem exec_operands {i : Instr} {s t : State} (h : exec i s = .next t) :
    t.regs.a = s.regs.a ∧ t.regs.v = s.regs.v ∧ t.regs.cCode = s.regs.cCode ∧ t.regs.cArg = s.regs.cArg := by
  obtain ⟨-, rfl⟩ | ⟨e, u, hu, rfl⟩ := exec_frame h
  · exact ⟨rfl, rfl, rfl, rfl⟩
  · exact ⟨hu.a, hu.v, hu.cCode, hu.cArg⟩

theorem exec_time {i : Instr} {s t : State} (hi : i ≠ .readTime) (h : exec i s = .next t) :
    t.regs.time = s.regs.time := by
  obtain ⟨-, rfl⟩ | ⟨e, u, hu, rfl⟩ := exec_frame h
  · rfl
  · exact hu.time (not_special rfl (mt (specialSteps_storeTime i s) hi))

theorem exec_r {i : Instr} {s t : State} (hi : .storeR ∉ specialSteps i s) (h : exec i s = .next t) :
    t.regs.r = s.regs.r := by
  obtain ⟨-, rfl⟩ | ⟨e, u, hu, rfl⟩ := exec_frame h
  · rfl
  · exact hu.r (not_special rfl hi)

/-- Settles O55: `R` and `T_*` are written by the steps `storeR` and `storeTime` only, which stand in the programs of
the operations named. -/
theorem operationsWriteOnlyTheirResultRegisters : Obligations.OperationsWriteOnlyTheirResultRegisters := by
  unfold Obligations.OperationsWriteOnlyTheirResultRegisters
  intro i s t h
  obtain ⟨ha, hv, hcode, harg⟩ := exec_operands h
  refine ⟨ha, hv, hcode, harg, fun hi => exec_time hi h, fun hlist hcmd hrow => exec_r (fun hm => ?_) h⟩
  obtain hi | ⟨a, hi⟩ | ⟨r, hi⟩ := specialSteps_storeR i s hm
  · exact hlist hi
  · exact hcmd a hi
  · exact hrow r hi

end Sys2Proof.Machine
end

section
/-! SUPPORT. The host's accesses to the registers at the port (10_state.md R26, R27; 60_exceptions.md R220). -/

namespace Sys2Proof.Machine

/-- A write taken while idle (R27): what `OperandWrite.store` names, and nothing else. -/
theorem step_write_idle {s : State} {w : OperandWrite} {rest : List HostAction} (hb : s.busy = false)
    (h : s.inputs = .write w :: rest) :
    step s = .next { s with inputs := rest, answer := .accepted, regs := w.store s.regs } := by
  rw [step_of_action h, perform, hostWrite_idle (s := { s with inputs := rest }) hb]

/-- A register's value does not depend on what the host will do next. -/
theorem value_withInputs (p : PortReg) (s : State) (acts : List HostAction) :
    p.value { s with inputs := acts } = p.value s := by
  cases p <;> rfl

theorem step_read {s : State} {p : PortReg} {rest : List HostAction} (h : s.inputs = .read p :: rest) :
    step s = .next { s with inputs := rest, answer := .data (p.value s) } := by
  rw [step_of_action h, perform, hostRead, value_withInputs]

/-- Settles O45: each clause is the write of that register. -/
theorem idleOperandWriteSetsThatRegisterOnly : Obligations.IdleOperandWriteSetsThatRegisterOnly := by
  unfold Obligations.IdleOperandWriteSetsThatRegisterOnly
  intro s x y rest hb
  exact ⟨step_write_idle hb, step_write_idle hb, step_write_idle hb, step_write_idle hb, step_write_idle hb,
    step_write_idle hb, step_write_idle hb, step_write_idle hb, step_write_idle hb, step_write_idle hb,
    step_write_idle hb⟩

/-- Settles O46: a read is performed at any time, and shows the register it names. -/
theorem portReadShowsTheRegisterAndChangesNothing : Obligations.PortReadShowsTheRegisterAndChangesNothing := by
  unfold Obligations.PortReadShowsTheRegisterAndChangesNothing
  intro s p rest h
  refine ⟨step_read h, ?_⟩
  cases p <;> rfl

end Sys2Proof.Machine
end

section
/-! SUPPORT. The byte operations at the host port, run: what `sendbits`, `recvbits` and the two transactions end in
(41_byteframer.md R142, R143, R146, R147), and with it the claims on the device's cells (20_memory.md R75), on the
loopback backend (R74) and on the address operand (R58). -/

namespace Sys2Proof.Machine

/-! ### The four operations, run -/

/-- An operation whose program raises nothing ends with `Ok` (R27). -/
theorem exec_goOn {i : Instr} {s t : State} (hb : s.busy = false)
    (hr : runSteps (program i s) (s.begin (startCode i)) = .goOn t) : exec i s = .next (t.raise .ok) := by
  rw [exec_eq_operate, operate_goOn hb hr]

theorem exec_sendbits {s : State} (hb : s.busy = false) :
    exec .sendbits s = .next (((s.begin (some 0x08)).sent s.regs.v).raise .ok) :=
  exec_goOn hb (run_send _ _)

/-- `recvbits` at the host port, run: the byte received goes to `R` (R143). -/
theorem run_recvbitsProgram (s : State) : runSteps recvbitsProgram s =
    .goOn { s.received.keep .got with regs := { s.regs with r := s.received.work.shift } } := by
  rw [recvbitsProgram, runSteps_append, run_recv, ← (linesOnly_received s).regs]
  rfl

theorem exec_recvbits {s : State} (hb : s.busy = false) : ∃ t, exec .recvbits s = .next t ∧
    t.regs.r = (s.begin (some 0x09)).received.work.shift ∧ t.env = (s.begin (some 0x09)).received.env ∧
    t.events = (s.begin (some 0x09)).received.events :=
  ⟨_, exec_goOn hb (run_recvbitsProgram _), rfl, rfl, rfl⟩

/-! ### The cells of the test device -/

/-- Settles O13: beginning the operation and ending it reach no cell, so what eight bits sent do to the cells is all. -/
theorem sendbitsStoresOnlyTheAddressedCell : Obligations.SendbitsStoresOnlyTheAddressedCell := by
  unfold Obligations.SendbitsStoresOnlyTheAddressedCell
  intro s t hb h
  obtain rfl := Host.Outcome.next.inj ((exec_sendbits hb).symm.trans h)
  refine ⟨fun a ha => ?_, fun dev a he hwf hn hc ha => ?_⟩
  · rw [raise_cell]
    exact sent_cell s.regs.v (s.begin (some 0x08)) a ha
  · rw [raise_cell]
    exact sent_stores (s := s.begin (some 0x08)) _ he hwf hn hc ha

/-- The cell an 8-bit operand addresses: its low six bits (R58). -/
theorem setWidth_six_toNat (a : Byte) : (a.setWidth 6).toNat = a.toNat % 64 := BitVec.toNat_setWidth ..

/-- Settles O17: `readbyte` is one read transaction and `writebyte` one write transaction of the masked address. -/
theorem transactionsReachExactlyTheAddressedCell : Obligations.TransactionsReachExactlyTheAddressedCell := by
  unfold Obligations.TransactionsReachExactlyTheAddressedCell
  intro s dev hb he
  obtain ⟨t, ht, hread⟩ := readTx_op (some 0x0A) s.regs.a s hb
  obtain ⟨u, hu, hwrite⟩ := writeTx_op (some 0x0B) s.regs.a s.regs.v s hb
  rw [← setWidth_six_toNat]
  exact ⟨⟨t, congrArg _ ht, (hread.ec dev he).2, hread.cl⟩, ⟨u, congrArg _ hu, hwrite.cl, hwrite.cell he⟩⟩

/-! ### The loopback backend -/

/-- Settles O20: the eight bits sent are queued in order and answer the eight samples in order. -/
theorem recvbitsAfterSendbitsReturnsTheByteOnLoopback :
    Obligations.RecvbitsAfterSendbitsReturnsTheByteOnLoopback := by
  unfold Obligations.RecvbitsAfterSendbitsReturnsTheByteOnLoopback
  intro s hb he
  have hsent : ((s.begin (some 0x08)).sent s.regs.v).env = .loopback (bitsOf s.regs.v) :=
    sent_loopback s.regs.v (s.begin (some 0x08)) he
  obtain ⟨u, hu, hr, henv, hev⟩ := exec_recvbits (s := ((s.begin (some 0x08)).sent s.regs.v).raise .ok) rfl
  obtain ⟨hempty, hbyte⟩ := received_loopback s.regs.v []
    ((((s.begin (some 0x08)).sent s.regs.v).raise .ok).begin (some 0x09)) (by simpa using hsent)
  refine ⟨_, u, exec_sendbits hb, hsent, hu, hr.trans hbyte, henv.trans hempty, ?_⟩
  rw [hev, received_events, hbyte]
  simp

/-! ### The address operand -/

/-- Only the low six bits of an operand enter the command byte (R58, R140). -/
theorem encodeCommand_masked (a : Byte) (f : RW) : encodeCommand (a &&& 0x3F#8) f = encodeCommand a f := by
  cases f <;> simp only [encodeCommand, BitVec.and_assoc, BitVec.and_self]

theorem readTx_masked (a : Byte) : State.readTx (a &&& 0x3F#8) = State.readTx a := by
  funext s
  simp only [State.readTx, encodeCommand_masked]

theorem writeTx_masked (a v : Byte) : State.writeTx (a &&& 0x3F#8) v = State.writeTx a v := by
  funext s
  simp only [State.writeTx, encodeCommand_masked]

/-- The host registers set. No line event reads or writes them, so it may come before or after (R52 to R54). -/
def State.withRegs (r : HostRegs) (s : State) : State := { s with regs := r }

theorem afterRead_withRegs (r : HostRegs) (s : State) : (s.withRegs r).afterRead = s.afterRead.withRegs r := by
  cases he : s.env with
  | free given => cases given <;> simp [State.afterRead, State.withRegs, State.datLevel, he]
  | loopback q => simp [State.afterRead, State.withRegs, State.datLevel, he]
  | echo dev => simp [State.afterRead, State.withRegs, State.datLevel, he]

theorem recvBit_withRegs (r : HostRegs) (s : State) : (s.withRegs r).recvBit = s.recvBit.withRegs r := by
  rw [State.recvBit, afterRead_withRegs]
  rfl

theorem sendBits_withRegs (n : Nat) (r : HostRegs) (s : State) :
    State.sendBits n (s.withRegs r) = (State.sendBits n s).withRegs r := by
  induction n generalizing s with
  | zero => rfl
  | succ n ih => exact ih s.sendBit

theorem recvBits_withRegs (n : Nat) (r : HostRegs) (s : State) :
    State.recvBits n (s.withRegs r) = (State.recvBits n s).withRegs r := by
  induction n generalizing s with
  | zero => rfl
  | succ n ih => rw [State.recvBits, recvBit_withRegs, ih, State.recvBits]

theorem sent_withRegs (v : Byte) (r : HostRegs) (s : State) : (s.withRegs r).sent v = (s.sent v).withRegs r :=
  sendBits_withRegs 8 r (s.sending v)

theorem received_withRegs (r : HostRegs) (s : State) : (s.withRegs r).received = s.received.withRegs r :=
  recvBits_withRegs 8 r s.listening

theorem opening_withRegs (r : HostRegs) (s : State) : (s.withRegs r).opening = s.opening.withRegs r := rfl
theorem withCmd_withRegs (c : Byte) (r : HostRegs) (s : State) :
    (s.withRegs r).withCmd c = (s.withCmd c).withRegs r := rfl
theorem lineWrite_withRegs (l : Line) (b : Bool) (r : HostRegs) (s : State) :
    (s.withRegs r).lineWrite l b = (s.lineWrite l b).withRegs r := rfl

theorem readTx_withRegs (a : Byte) (r : HostRegs) (s : State) :
    (s.withRegs r).readTx a = (s.readTx a).withRegs r := by
  simp only [State.readTx, opening_withRegs, withCmd_withRegs, sent_withRegs, received_withRegs, lineWrite_withRegs]

theorem writeTx_withRegs (a v : Byte) (r : HostRegs) (s : State) :
    (s.withRegs r).writeTx a v = (s.writeTx a v).withRegs r := by
  simp only [State.writeTx, opening_withRegs, withCmd_withRegs, sent_withRegs, lineWrite_withRegs]

/-- A transaction begun with the operand masked is the transaction begun with the operand, but for the register `A`. -/
theorem readTx_begin_masked (c : Option Byte) (s : State) :
    (State.begin c { s with regs := { s.regs with a := s.regs.a &&& 0x3F#8 } }).readTx (s.regs.a &&& 0x3F#8) =
      ((s.begin c).readTx s.regs.a).withRegs { (s.begin c).regs with a := s.regs.a &&& 0x3F#8 } := by
  rw [readTx_masked]
  exact readTx_withRegs s.regs.a { (s.begin c).regs with a := s.regs.a &&& 0x3F#8 } (s.begin c)

theorem writeTx_begin_masked (c : Option Byte) (s : State) :
    (State.begin c { s with regs := { s.regs with a := s.regs.a &&& 0x3F#8 } }).writeTx (s.regs.a &&& 0x3F#8)
        s.regs.v =
      ((s.begin c).writeTx s.regs.a s.regs.v).withRegs { (s.begin c).regs with a := s.regs.a &&& 0x3F#8 } := by
  rw [writeTx_masked]
  exact writeTx_withRegs s.regs.a s.regs.v { (s.begin c).regs with a := s.regs.a &&& 0x3F#8 } (s.begin c)

/-- Settles O18: the command byte is the same, and the transaction reads nothing else of the operand. -/
theorem addressOperandIsMaskedToSixBits : Obligations.AddressOperandIsMaskedToSixBits := by
  unfold Obligations.AddressOperandIsMaskedToSixBits
  rintro s i hb (rfl | rfl)
  · refine ⟨_, _, exec_goOn hb (run_readbyteProgram _ _), exec_goOn hb (run_readbyteProgram _ _), rfl, rfl, ?_, rfl, rfl⟩
    dsimp only
    rw [readTx_begin_masked]
    rfl
  · refine ⟨_, _, exec_goOn hb (run_writebyte s.regs.a (.lit s.regs.v) _ (by simp)),
      exec_goOn hb (run_writebyte _ (.lit s.regs.v) _ (by simp)), rfl, rfl, ?_, rfl, rfl⟩
    dsimp only [ByteSrc.value]
    rw [writeTx_begin_masked, ← (linesOnly_writeTx s.regs.a s.regs.v _).regs]
    rfl

end Sys2Proof.Machine
end

section
/-! SUPPORT. What the environment decides (20_memory.md R72): two runs of one program from states that differ only in
the environment go the same way, event by event, but for the values of the reads. -/

namespace Sys2Proof.Machine

/-! ### Shapes of traces -/

/-- The shape of `recvbits` does not depend on the byte received (R143). -/
theorem recvTrace_shape (p : Params) (b c : Byte) :
    (recvTrace p b).map TraceEntry.shape = (recvTrace p c).map TraceEntry.shape := by
  simp [recvTrace, bitsOf, List.range_succ, TraceEntry.shape]

/-- Nor does that of a read transaction (R146). -/
theorem readTrace_shape (p : Params) (k b c : Byte) :
    (readTrace p k b).map TraceEntry.shape = (readTrace p k c).map TraceEntry.shape := by
  simp only [readTrace, List.map_append, recvTrace_shape p b c]

/-! ### Runs that go the same way -/

/-- Two moments of two runs that have gone the same way: what decides which events come next is the same, and the traces
have the same shape. -/
structure SameWay (s t : State) : Prop where
  params : s.params = t.params
  dirDat : s.lines.dirDat = t.lines.dirDat
  present : s.present = t.present
  shape : s.events.map TraceEntry.shape = t.events.map TraceEntry.shape

/-- Line events of the same shape, after which the data line has the same direction, keep the two runs together. -/
theorem SameWay.extend {s t u v : State} {x y : List TraceEntry} (h : SameWay s t) (hu : LinesOnly s u)
    (hv : LinesOnly t v) (hd : u.lines.dirDat = v.lines.dirDat) (hx : u.events = s.events ++ x)
    (hy : v.events = t.events ++ y) (hxy : x.map TraceEntry.shape = y.map TraceEntry.shape) : SameWay u v where
  params := by rw [hu.params, hv.params, h.params]
  dirDat := hd
  present := by rw [hu.present, hv.present, h.present]
  shape := by rw [hx, hy, List.map_append, List.map_append, h.shape, hxy]

/-- A list of steps whose traces do not part: the two runs add the same shape. -/
def Alike (xs : List SeqStep) : Prop :=
  ∀ s t, SameWay s t →
    (runSteps xs s).state.events.map TraceEntry.shape = (runSteps xs t).state.events.map TraceEntry.shape

/-- A list of steps that two runs leave together: both go on, or both raise. -/
def Together (xs : List SeqStep) : Prop :=
  ∀ s t, SameWay s t → (∃ u v, runSteps xs s = .goOn u ∧ runSteps xs t = .goOn v ∧ SameWay u v) ∨
    ∃ e u v, runSteps xs s = .raised e u ∧ runSteps xs t = .raised e v ∧ SameWay u v

theorem Together.alike {xs : List SeqStep} (hx : Together xs) : Alike xs := by
  intro s t h
  obtain ⟨u, v, hu, hv, huv⟩ | ⟨e, u, v, hu, hv, huv⟩ := hx s t h <;> rw [hu, hv] <;> exact huv.shape

theorem Together.append_alike {xs ys : List SeqStep} (hx : Together xs) (hy : Alike ys) : Alike (xs ++ ys) := by
  intro s t h
  rw [runSteps_append, runSteps_append]
  obtain ⟨u, v, hu, hv, huv⟩ | ⟨e, u, v, hu, hv, huv⟩ := hx s t h <;> rw [hu, hv]
  · exact hy u v huv
  · exact huv.shape

theorem Together.append {xs ys : List SeqStep} (hx : Together xs) (hy : Together ys) : Together (xs ++ ys) := by
  intro s t h
  rw [runSteps_append, runSteps_append]
  obtain ⟨u, v, hu, hv, huv⟩ | ⟨e, u, v, hu, hv, huv⟩ := hx s t h <;> rw [hu, hv]
  · exact hy u v huv
  · exact .inr ⟨e, u, v, rfl, rfl, huv⟩

/-- A list that never raises is one step from state to state. -/
theorem Together.of_run {xs : List SeqStep} {f : State → State} (hr : ∀ s, runSteps xs s = .goOn (f s))
    (hf : ∀ s t, SameWay s t → SameWay (f s) (f t)) : Together xs :=
  fun s t h => .inl ⟨f s, f t, hr s, hr t, hf s t h⟩

/-! ### Checks and results: no events -/

/-- With the gate shut the gate step raises (R201). -/
theorem gate_shut {s : State} (h : s.present ≠ .ok) (rest : List SeqStep) :
    runSteps ([.gate] ++ rest) s = .raised .deviceNotPresent s.opAsBefore := by
  rw [List.singleton_append, runSteps_cons, doStep, State.gateOpen, if_neg (by simpa using h), bind_raised]

theorem together_gate : Together [.gate] := by
  intro s t h
  by_cases ht : t.present = .ok
  · exact .inl ⟨s, t, gate_open (h.present.trans ht) [], gate_open ht [], h⟩
  · exact .inr ⟨_, _, _, gate_shut (mt h.present.symm.trans ht) [], gate_shut ht [], h.params, h.dirDat, h.present,
      h.shape⟩

theorem together_checkRequest (code : Half) : Together [.checkRequest code] := by
  intro s t h
  simp only [runSteps_cons, doStep]
  split
  · exact .inl ⟨s, t, rfl, rfl, h⟩
  · exact .inr ⟨_, _, _, rfl, rfl, h.params, h.dirDat, h.present, h.shape⟩

theorem together_save (l : Local) : Together [.save l] :=
  .of_run (f := State.keep l) (fun _ => rfl) fun _ _ h => ⟨h.params, h.dirDat, h.present, h.shape⟩

theorem together_storeR : Together [.storeR] :=
  .of_run (f := fun s => { s with regs := { s.regs with r := s.work.got } }) (fun _ => rfl)
    fun _ _ h => ⟨h.params, h.dirDat, h.present, h.shape⟩

/-- Steps that add no event, whichever way each run takes. -/
theorem Alike.of_quiet {xs : List SeqStep} (hx : ∀ s, (runSteps xs s).state.events = s.events) : Alike xs :=
  fun s t h => by rw [hx, hx, h.shape]

/-- The check of the seven bytes comes after the last event (R169). -/
theorem alike_checkTime : Alike [.checkTime, .storeTime] := .of_quiet fun s => by
  simp only [runSteps_cons, doStep]
  split <;> rfl

/-- So does the compare of the self-test (R199). -/
theorem alike_compareSentinel : Alike [.compareSentinel] := .of_quiet fun s => by
  simp only [runSteps_cons, doStep]
  split <;> rfl

/-! ### Lists with events -/

theorem together_lineWrite (l : Line) (b : Bool) : Together [.lineWrite l b] :=
  .of_run (f := State.lineWrite l b) (fun _ => rfl) fun s t h =>
    h.extend (linesOnly_lineWrite l b s) (linesOnly_lineWrite l b t) (by cases l <;> exact h.dirDat)
      (events_lineWrite l b s) (events_lineWrite l b t) rfl

theorem together_clock : Together clockSteps :=
  .of_run run_clock fun s t h => h.extend (linesOnly_pulse s) (linesOnly_pulse t) h.dirDat (pulse_events s)
    (pulse_events t) (by rw [h.params])

theorem linesOnly_busReset (s : State) : LinesOnly s s.busReset := by constructor <;> rfl

theorem together_busReset : Together busResetSteps :=
  .of_run run_busReset fun s t h => h.extend (linesOnly_busReset s) (linesOnly_busReset t) rfl (busReset_events s)
    (busReset_events t) rfl

theorem together_send (v : Byte) : Together (sendSteps (.lit v)) :=
  .of_run (fun s => run_send (.lit v) s) fun s t h => h.extend (linesOnly_sent v s) (linesOnly_sent v t)
    (by rw [sent_lines, sent_lines]) (sent_events v s) (sent_events v t) (by rw [h.params])

theorem together_recv : Together recvSteps :=
  .of_run run_recv fun s t h => h.extend (linesOnly_received s) (linesOnly_received t)
    (by rw [received_lines, received_lines]) (received_events s) (received_events t)
    (by rw [h.params]; exact recvTrace_shape _ _ _)

theorem together_readbyte (a : Byte) (l : Local) : Together (readbyteSteps a l) :=
  .of_run (run_readbyte a l) fun s t h => h.extend ((linesOnly_readTx a s).trans (linesOnly_keep l _))
    ((linesOnly_readTx a t).trans (linesOnly_keep l _)) (by rw [keep_lines, keep_lines, readTx_lines, readTx_lines])
    (readTx_events a s) (readTx_events a t) (by rw [h.params]; exact readTrace_shape _ _ _ _)

theorem together_writebyte (a v : Byte) : Together (writebyteSteps a (.lit v)) :=
  .of_run (fun s => run_writebyte a (.lit v) s (by simp)) fun s t h => h.extend (linesOnly_writeTx a v s)
    (linesOnly_writeTx a v t) (by rw [writeTx_lines, writeTx_lines]) (writeTx_events a v s) (writeTx_events a v t)
    (by rw [h.params])

/-- A bit is sent with the data line an output, else the operation is refused (R125). -/
theorem together_txbit (b : Bool) : Together [.txbit b] := by
  intro s t h
  simp only [runSteps_cons, doStep, txbitStep, h.dirDat]
  split
  · exact .inl ⟨_, _, rfl, rfl, h.extend (linesOnly_lineWrite _ _ s) (linesOnly_lineWrite _ _ t) h.dirDat
      (events_lineWrite _ _ s) (events_lineWrite _ _ t) rfl⟩
  · exact .inr ⟨_, _, _, rfl, rfl, h.params, h.dirDat, h.present, h.shape⟩

/-- A bit is sampled with the data line an input, else the operation is refused (R126). -/
theorem together_rxbit : Together [.rxbit] := by
  intro s t h
  simp only [runSteps_cons, doStep, rxbitStep, h.dirDat]
  split
  · exact .inl ⟨_, _, rfl, rfl, h.extend ((linesOnly_afterRead s).trans (linesOnly_work _ _))
      ((linesOnly_afterRead t).trans (linesOnly_work _ _)) (by simpa using h.dirDat)
      (events_afterRead s) (events_afterRead t) rfl⟩
  · exact .inr ⟨_, _, _, rfl, rfl, h.params, h.dirDat, h.present, h.shape⟩

/-! ### Programs -/

theorem together_readbyteProgram (a : Byte) : Together (readbyteProgram a) :=
  (together_readbyte a .got).append together_storeR

theorem together_tcStrength (selector : Byte) : Together (tcStrengthProgram selector) :=
  together_gate.append (together_writebyte _ _)

theorem alike_readTime : Alike readTimeProgram :=
  (((((((together_gate.append (together_readbyte _ _)).append (together_readbyte _ _)).append
    (together_readbyte _ _)).append (together_readbyte _ _)).append (together_readbyte _ _)).append
    (together_readbyte _ _)).append (together_readbyte _ _)).append_alike alike_checkTime

theorem alike_selftest : Alike selftestProgram :=
  ((together_busReset.append (together_writebyte _ _)).append (together_readbyte _ _)).append_alike
    alike_compareSentinel

/-- Every program but that of `set_time`, which writes what it read. -/
theorem program_alike {i : Instr} (hi : i ≠ .setTime) (s : State) : Alike (program i s) := by
  cases i
  case setTime => exact absurd rfl hi
  case reset => exact together_busReset.alike
  case start | stop => exact (together_lineWrite _ _).alike
  case clock => exact together_clock.alike
  case txbit => exact (together_txbit _).alike
  case rxbit => exact (together_rxbit.append together_storeR).alike
  case sendbits => exact (together_send _).alike
  case recvbits => exact (together_recv.append ((together_save .got).append together_storeR)).alike
  case readTime => exact alike_readTime
  case tcGet => exact ((together_gate.append (together_readbyte _ _)).append together_storeR).alike
  case tcSet => exact (together_gate.append (together_writebyte _ _)).alike
  case tcStrength => exact (together_tcStrength _).alike
  case ctrl => exact ((together_gate.append (together_checkRequest _)).append (together_tcStrength _)).alike
  case selftest => exact alike_selftest
  case readbyte | cmdRead => exact (together_readbyteProgram _).alike
  case rdSeconds | rdMinutes | rdHours | rdDate | rdMonth | rdDay | rdYear | rdTrickle | rdRam0 =>
    exact (together_readbyteProgram _).alike
  all_goals exact (together_writebyte _ _).alike

/-! ### Operations -/

/-- The operands are latched from the host registers, so the environment does not enter a program. -/
theorem program_withEnv (i : Instr) (s : State) (e : Env) (d : Nat) :
    program i { s with env := e, draws := d } = program i s := by
  cases i <;> rfl

/-- A call of an idle block is its program run to the end. -/
theorem exec_idle {i : Instr} {s t : State} (hb : s.busy = false) (h : exec i s = .next t) :
    ∃ e, t = (runSteps (program i s) (s.begin (startCode i))).state.raise e := by
  obtain rfl := Host.Outcome.next.inj ((exec_eq_operate i s).symm.trans h)
  cases hr : runSteps (program i s) (s.begin (startCode i)) with
  | goOn u => exact ⟨.ok, operate_goOn hb hr⟩
  | raised e u => exact ⟨e, operate_raised hb hr⟩

/-- Every trace only grows. -/
theorem exec_events {i : Instr} {s t : State} (h : exec i s = .next t) : ∃ tr, t.events = s.events ++ tr := by
  obtain ⟨-, rfl⟩ | ⟨e, u, hu, rfl⟩ := exec_frame h
  · exact ⟨[], (List.append_nil _).symm⟩
  · exact hu.events.imp fun _ h => h.1

/-- Two calls from states that differ only in the environment: refused both, or one program run from moments that
cannot be told apart. -/
theorem exec_twice {i : Instr} {s t t' : State} {e : Env} {d : Nat} (h : exec i s = .next t)
    (h' : exec i { s with env := e, draws := d } = .next t') :
    t.events = t'.events ∨ ∃ u v, SameWay u v ∧ t.events = (runSteps (program i s) u).state.events ∧
      t'.events = (runSteps (program i s) v).state.events := by
  cases hb : s.busy with
  | true =>
    obtain rfl := Host.Outcome.next.inj ((exec_busy hb).symm.trans h)
    obtain rfl := Host.Outcome.next.inj ((exec_busy (s := { s with env := e, draws := d }) hb).symm.trans h')
    exact .inl rfl
  | false =>
    obtain ⟨_, rfl⟩ := exec_idle hb h
    obtain ⟨_, rfl⟩ := exec_idle (s := { s with env := e, draws := d }) hb h'
    rw [program_withEnv i s e d]
    exact .inr ⟨s.begin (startCode i), State.begin (startCode i) { s with env := e, draws := d }, ⟨rfl, rfl, rfl, rfl⟩,
      rfl, rfl⟩

theorem exec_shape {i : Instr} {s t t' : State} {e : Env} {d : Nat} (hi : i ≠ .setTime) (h : exec i s = .next t)
    (h' : exec i { s with env := e, draws := d } = .next t') :
    t.events.map TraceEntry.shape = t'.events.map TraceEntry.shape := by
  obtain heq | ⟨u, v, huv, ht, ht'⟩ := exec_twice h h'
  · rw [heq]
  · rw [ht, ht', program_alike hi s u v huv]

/-! ### `set_time` -/

/-- A value outside the codec's domain stops `set_time` before its first event (R170). -/
theorem run_setTime_rejected {t : CalendarTime} {s : State} (hp : s.present = .ok) (hf : ¬ FieldsAreEncodable t) :
    runSteps (setTimeProgram t) s = .raised .invalidArgument s.opAsBefore := by
  rw [setTimeProgram_eq, gate_open hp, List.singleton_append, runSteps_cons, doStep, if_neg (mt (fields_iff t).mp hf),
    bind_raised]

theorem run_setTime_shut {t : CalendarTime} {s : State} (hp : s.present ≠ .ok) :
    runSteps (setTimeProgram t) s = .raised .deviceNotPresent s.opAsBefore := by
  rw [setTimeProgram_eq, gate_shut hp]

theorem setTimeTrace_length (p : Params) (c : CalendarTime) (s0 s1 : Byte) :
    (setTimeTrace p c s0 s1).length = 11 * 88 := by
  simp only [setTimeTrace, List.length_append, readTrace_length, writeTrace_length]

/-- Two runs of `set_time` are refused alike before the first event, or both go through the eleven transactions. -/
theorem run_setTime_length (c : CalendarTime) {s t : State} (h : SameWay s t) :
    (runSteps (setTimeProgram c) s).state.events.length = (runSteps (setTimeProgram c) t).state.events.length := by
  have hlen : s.events.length = t.events.length := by simpa using congrArg List.length h.shape
  by_cases hp : t.present = .ok
  · by_cases hf : FieldsAreEncodable c
    · rw [run_setTime c s (h.present.trans hp) hf, run_setTime c t hp hf, Progress.state, Progress.state,
        writeAll_events, writeAll_events, List.length_append, List.length_append, setTimeTrace_length,
        setTimeTrace_length, hlen]
    · rw [run_setTime_rejected (h.present.trans hp) hf, run_setTime_rejected hp hf]
      exact hlen
  · rw [run_setTime_shut (mt h.present.symm.trans hp), run_setTime_shut hp]
    exact hlen

theorem exec_setTime_length {s t t' : State} {e : Env} {d : Nat} (h : exec .setTime s = .next t)
    (h' : exec .setTime { s with env := e, draws := d } = .next t') : t.events.length = t'.events.length := by
  obtain heq | ⟨u, v, huv, ht, ht'⟩ := exec_twice h h'
  · rw [heq]
  · rw [ht, ht']
    exact run_setTime_length s.regs.time huv

/-! ### The statement -/

/-- Settles O57: the program is the same, and of two runs of it each step adds the same events up to the values read;
`set_time` checks nothing it reads, so its eleven transactions are as many in every environment. -/
theorem environmentDecidesOnlyTheAnswers : Obligations.EnvironmentDecidesOnlyTheAnswers := by
  unfold Obligations.EnvironmentDecidesOnlyTheAnswers
  intro i s t t' e d h h'
  obtain ⟨tr, htr⟩ := exec_events h
  obtain ⟨tr', htr'⟩ := exec_events h'
  have hshape (hi : i ≠ .setTime) : tr.map TraceEntry.shape = tr'.map TraceEntry.shape := by
    have hmap := exec_shape hi h h'
    rw [htr, htr', List.map_append, List.map_append] at hmap
    exact List.append_cancel_left hmap
  refine ⟨tr, tr', htr, htr', ?_, hshape⟩
  by_cases hi : i = .setTime
  · subst hi
    have hlen := exec_setTime_length h h'
    rw [htr, htr', List.length_append, List.length_append] at hlen
    exact Nat.add_left_cancel hlen
  · simpa using congrArg List.length (hshape hi)

end Sys2Proof.Machine
end

section
/-! SUPPORT. The encodings (30_encoding.md R92 to R94, R98 to R102): decoding and encoding undo each other, which codes and
bytes decode to nothing, and the digits of a BCD byte. -/

namespace Sys2Proof.Machine

open Sys2Proof.Laws

/-! ### Decoding what was encoded -/

/-- Settles O1: instruction by instruction, the round trip of its own word. -/
theorem decodeOfEncodeIsTheInstruction : Obligations.DecodeOfEncodeIsTheInstruction := by
  unfold Obligations.DecodeOfEncodeIsTheInstruction
  intro i
  cases i with
  | reset => exact RoundTrip.reset
  | start => exact RoundTrip.start
  | stop => exact RoundTrip.stop
  | clock => exact RoundTrip.clock
  | txbit => exact RoundTrip.txbit
  | rxbit => exact RoundTrip.rxbit
  | sendbits => exact RoundTrip.sendbits
  | recvbits => exact RoundTrip.recvbits
  | readbyte => exact RoundTrip.readbyte
  | writebyte => exact RoundTrip.writebyte
  | readTime => exact RoundTrip.readTime
  | setTime => exact RoundTrip.setTime
  | tcGet => exact RoundTrip.tcGet
  | tcSet => exact RoundTrip.tcSet
  | tcStrength => exact RoundTrip.tcStrength
  | ctrl => exact RoundTrip.ctrl
  | selftest => exact RoundTrip.selftest
  | cmdRead a => exact RoundTrip.cmdRead a
  | cmdWrite a => exact RoundTrip.cmdWrite a
  | wrSeconds => exact RoundTrip.wrSeconds
  | rdSeconds => exact RoundTrip.rdSeconds
  | wrMinutes => exact RoundTrip.wrMinutes
  | rdMinutes => exact RoundTrip.rdMinutes
  | wrHours => exact RoundTrip.wrHours
  | rdHours => exact RoundTrip.rdHours
  | wrDate => exact RoundTrip.wrDate
  | rdDate => exact RoundTrip.rdDate
  | wrMonth => exact RoundTrip.wrMonth
  | rdMonth => exact RoundTrip.rdMonth
  | wrDay => exact RoundTrip.wrDay
  | rdDay => exact RoundTrip.rdDay
  | wrYear => exact RoundTrip.wrYear
  | rdYear => exact RoundTrip.rdYear
  | wrTrickle => exact RoundTrip.wrTrickle
  | rdTrickle => exact RoundTrip.rdTrickle
  | wrRam0 => exact RoundTrip.wrRam0
  | rdRam0 => exact RoundTrip.rdRam0

/-! ### Host codes -/

theorem lookup_of_decodeOp {code : Byte} {i : Instr} (h : decodeOp code = .ok i) : opTable.lookup code = some i := by
  unfold decodeOp at h
  split at h
  next hl => rw [hl, Except.ok.inj h]
  next => cases h

/-- Each line of R99's table is the encoding of its operation. -/
theorem encode_of_mem_opTable : ∀ p ∈ opTable, p.2.wellFormed = true ∧ encode p.2 = (.host, p.1) := by decide

theorem encode_of_decodeOp {code : Byte} {i : Instr} (h : decodeOp code = .ok i) :
    i.wellFormed = true ∧ encode i = (.host, code) := by
  obtain ⟨k, l, hkl, -⟩ := List.lookup_eq_some_iff.mp (lookup_of_decodeOp h)
  exact encode_of_mem_opTable (code, i) (by simp [hkl])

/-- R99 and R102 share the 256 codes out between them. -/
theorem lookup_eq_none_iff (code : Byte) : opTable.lookup code = none ↔ UnassignedCode code := by
  unfold UnassignedCode
  revert code
  decide

theorem decodeOp_of_unassigned {code : Byte} (h : UnassignedCode code) : decodeOp code = .error (.illegalOp code) := by
  rw [decodeOp, (lookup_eq_none_iff code).mpr h]

theorem decodeOp_of_assigned {code : Byte} (h : ¬ UnassignedCode code) : ∃ i, decodeOp code = .ok i := by
  obtain ⟨i, hi⟩ := Option.ne_none_iff_exists'.mp (mt (lookup_eq_none_iff code).mp h)
  exact ⟨i, by rw [decodeOp, hi]⟩

/-! ### Command bytes -/

theorem address_of_atAddress? {a : Address} {r : ChipReg} (h : ChipReg.atAddress? a = some r) : r.address = a := by
  simpa using List.find?_some h

@[simp] theorem encode_readRow (r : ChipReg) : encode (readRow r) = (.wire, commandByte r.address .read) := by
  cases r <;> rfl

@[simp] theorem encode_writeRow (r : ChipReg) : encode (writeRow r) = (.wire, commandByte r.address .write) := by
  cases r <;> rfl

@[simp] theorem wellFormed_readRow (r : ChipReg) : (readRow r).wellFormed = true := by cases r <;> rfl
@[simp] theorem wellFormed_writeRow (r : ChipReg) : (writeRow r).wellFormed = true := by cases r <;> rfl

/-- The one instruction for the transaction of an address (log entry 4): the named row where the RegisterMap defines a
register there, else the pattern. -/
def commandRow (a : Address) : RW → Instr
  | .read => (ChipReg.atAddress? a).elim (.cmdRead a) readRow
  | .write => (ChipReg.atAddress? a).elim (.cmdWrite a) writeRow

theorem wellFormed_commandRow (a : Address) (f : RW) : (commandRow a f).wellFormed = true := by
  cases h : ChipReg.atAddress? a with
  | none => cases f <;> simp [commandRow, h, Instr.wellFormed]
  | some r => cases f <;> simp [commandRow, h]

theorem encode_commandRow (a : Address) (f : RW) : encode (commandRow a f) = (.wire, commandByte a f) := by
  cases h : ChipReg.atAddress? a with
  | none => cases f <;> simp [commandRow, h, encode]
  | some r => cases f <;> simp [commandRow, h, address_of_atAddress? h]

/-- The read/write flag of a command byte: bit 0 (R92). -/
def commandFlag (b : Byte) : RW := if b.getLsbD 0 then .read else .write

/-- A byte with bit 7 set is the command byte of its address field and its flag (R92). -/
theorem commandByte_fields (b : Byte) : b.getLsbD 7 = true → commandByte (commandAddress b) (commandFlag b) = b := by
  revert b; decide

theorem decodeCommand_of_bit7_clear {b : Byte} (h : b.getLsbD 7 = false) :
    decodeCommand b = .error (.notACommand b) := by
  rw [decodeCommand, h, if_neg Bool.false_ne_true]

theorem decodeCommand_of_bit7_set {b : Byte} (h : b.getLsbD 7 = true) :
    decodeCommand b = .ok (commandRow (commandAddress b) (commandFlag b)) := by
  rw [decodeCommand, h, if_pos rfl, commandFlag]
  cases hr : ChipReg.atAddress? (commandAddress b) with
  | none => cases b.getLsbD 0 <;> simp [commandRow, hr]
  | some r => cases b.getLsbD 0 <;> simp [commandRow, hr]

theorem encode_of_decodeCommand {b : Byte} {i : Instr} (h : decodeCommand b = .ok i) :
    i.wellFormed = true ∧ encode i = (.wire, b) := by
  cases h7 : b.getLsbD 7 with
  | false => rw [decodeCommand_of_bit7_clear h7] at h; cases h
  | true =>
    rw [decodeCommand_of_bit7_set h7] at h
    obtain rfl := Except.ok.inj h
    exact ⟨wellFormed_commandRow _ _, by rw [encode_commandRow, commandByte_fields b h7]⟩

/-- Settles O2: a host code is found in R99's table, and a command byte is put together again from its fields. -/
theorem encodeOfDecodeIsTheByte : Obligations.EncodeOfDecodeIsTheByte := by
  unfold Obligations.EncodeOfDecodeIsTheByte
  intro l b i h
  cases l with
  | host => exact encode_of_decodeOp h
  | wire => exact encode_of_decodeCommand h

/-- Settles O6: the two columns of R93's table, computed. -/
theorem commandBytesOfTheRegisterMap : Obligations.CommandBytesOfTheRegisterMap := by
  unfold Obligations.CommandBytesOfTheRegisterMap
  decide

/-- Settles O3: each word is decoded. -/
theorem writtenOutWordsDecode : Obligations.WrittenOutWordsDecode := by
  unfold Obligations.WrittenOutWordsDecode
  decide

/-! ### BCD bytes -/

/-- The tens and the ones share no bit, so the byte is their sum. -/
theorem encodeBcd_toNat {v : Nat} (h : v ≤ 99) : (encodeBcd v).toNat = 16 * (v / 10) + v % 10 := by
  have hor : (v / 10) <<< 4 ||| v % 10 = (v / 10) <<< 4 + v % 10 :=
    (Nat.shiftLeft_add_eq_or_of_lt (by omega) _).symm
  rw [encodeBcd, hor, BitVec.toNat_ofNat, Nat.shiftLeft_eq]
  omega

/-- Settles O24: the nibbles of a value's byte are its two digits, so neither is above 9. -/
theorem bcdByteHoldsTensAndOnes : Obligations.BcdByteHoldsTensAndOnes := by
  unfold Obligations.BcdByteHoldsTensAndOnes
  refine ⟨fun v hv => ⟨rfl, ?_, ?_⟩, by decide, fun p => rfl, ?_⟩
  · rw [encodeBcd_toNat hv]; omega
  · rw [encodeBcd_toNat hv]; omega
  · rintro b hb v hv rfl
    rw [encodeBcd_toNat hv] at hb
    omega

end Sys2Proof.Machine
end

section
/-! SUPPORT. From a code or a command byte to the step that runs it (30_encoding.md R93, R98, R101, R102, R104;
10_state.md R24, R27; 60_exceptions.md R219), and the transaction each command byte opens (R146, R147). -/

namespace Sys2Proof.Machine

/-! ### Operation codes at the port -/

theorem callOp_of_decodeOp {code : Byte} {i : Instr} (h : decodeOp code = .ok i) (s : State) :
    callOp code s = exec i s := by
  rw [callOp, h]

theorem postOp_of_decodeOp {code : Byte} {i : Instr} (h : decodeOp code = .ok i) (s : State) :
    postOp code s = post (startCode i) (program i s) s := by
  rw [postOp, h]

theorem callOp_of_unassigned {code : Byte} (h : UnassignedCode code) (s : State) :
    callOp code s = .next s.illegalOp := by
  rw [callOp, decodeOp_of_unassigned h]

theorem postOp_of_unassigned {code : Byte} (h : UnassignedCode code) (s : State) : postOp code s = s.illegalOp := by
  rw [postOp, decodeOp_of_unassigned h]

theorem illegalOp_idle {s : State} (h : s.busy = false) :
    s.illegalOp = { s.setStatus .illegalOp with answer := .accepted } := by
  rw [State.illegalOp, h, if_neg Bool.false_ne_true]

/-- Settles O4: a code of R102 decodes to nothing, called or posted, and every other code to an operation. -/
theorem unassignedCodeEndsAtOnceWithIllegalOp : Obligations.UnassignedCodeEndsAtOnceWithIllegalOp := by
  unfold Obligations.UnassignedCodeEndsAtOnceWithIllegalOp
  refine ⟨fun s code rest hb hc hi => ?_, fun code => decodeOp_of_assigned⟩
  have hidle := illegalOp_idle (s := { s with inputs := rest }) hb
  obtain hi | hi := hi
  · rw [step_of_action hi, perform, callOp_of_unassigned hc, hidle]
    rfl
  · rw [step_of_action hi, perform, postOp_of_unassigned hc, hidle]
    rfl

/-! ### Command bytes at the port -/

theorem callFrame_of_decodeCommand {b : Byte} {i : Instr} (h : decodeCommand b = .ok i) (s : State) :
    callFrame b s = exec i s := by
  rw [callFrame, h]

theorem callFrame_of_bit7_clear {b : Byte} (h : b.getLsbD 7 = false) (s : State) :
    callFrame b s = .refused (.notACommandByte b) := by
  rw [callFrame, decodeCommand_of_bit7_clear h]

/-- Settles O43: a byte with bit 7 clear decodes to nothing, and every instruction answers a next state. -/
theorem onlyACommandByteOpensATransaction : Obligations.OnlyACommandByteOpensATransaction := by
  unfold Obligations.OnlyACommandByteOpensATransaction
  intro s b rest hi
  rw [step_of_action hi, perform]
  refine ⟨fun h7 => callFrame_of_bit7_clear h7 _, fun h7 => ?_⟩
  rw [callFrame_of_decodeCommand (decodeCommand_of_bit7_set h7), exec_eq_operate]
  exact ⟨_, rfl⟩

/-! ### The step -/

/-- The operands an operation latches do not depend on what the host will do next (R27). -/
theorem program_withInputs (i : Instr) (s : State) (acts : List HostAction) :
    program i { s with inputs := acts } = program i s := by
  cases i <;> rfl

/-- Settles O41: taken off the queue, the action does what its byte decodes to; with nothing to do the block moves. -/
theorem stepRunsTheDecodedInstruction : Obligations.StepRunsTheDecodedInstruction := by
  unfold Obligations.StepRunsTheDecodedInstruction
  refine ⟨fun s b i rest => ⟨fun hi hd => ?_, fun hi hd => ?_, fun hi hd => ?_⟩,
    fun s rest => ⟨fun hi => ?_, fun hi => ?_⟩⟩
  · exact (step_of_action hi).trans (callOp_of_decodeOp hd _)
  · exact (step_of_action hi).trans (callFrame_of_decodeCommand hd _)
  · rw [step_of_action hi, perform, postOp_of_decodeOp hd, program_withInputs]
  · rw [step, hi]
  · exact step_of_action hi

/-- The action a table word is placed as performs what the word decodes to at its level. -/
theorem perform_tableAction {b : Byte} {i : Instr} (h : decode (tableLevel b) b = .ok i) (s : State) :
    perform (tableAction b) s = exec i s := by
  unfold tableAction
  cases hl : tableLevel b with
  | host => rw [hl] at h; exact callOp_of_decodeOp h s
  | wire => rw [hl] at h; exact callFrame_of_decodeCommand h s

theorem decode_of_decodeTableWord {nbits w : Nat} {i : Instr} (h : decodeTableWord nbits w = some i) :
    decode (tableLevel (tableByte nbits w)) (tableByte nbits w) = .ok i := by
  unfold decodeTableWord at h
  cases hd : decode (tableLevel (tableByte nbits w)) (tableByte nbits w) with
  | ok j => rw [hd] at h; exact congrArg _ (Option.some.inj h)
  | error e => rw [hd] at h; cases h

/-- Settles O42: the placed action is the next one taken, and it leaves the queue as it was. -/
theorem placedWordRunsAtTheNextStep : Obligations.PlacedWordRunsAtTheNextStep := by
  unfold Obligations.PlacedWordRunsAtTheNextStep
  intro s w i h
  rw [step_of_action (s := s.withFetchWord 8 w) rfl]
  exact perform_tableAction (decode_of_decodeTableWord h) s

/-! ### The transactions of the command bytes -/

theorem exec_readRow (r : ChipReg) (s : State) : exec (readRow r) s = exec (.cmdRead r.address) s := by
  cases r <;> rfl

theorem exec_writeRow (r : ChipReg) (s : State) : exec (writeRow r) s = exec (.cmdWrite r.address) s := by
  cases r <;> rfl

/-- Settles O22: a named row does what the pattern does at its address, and that is one read transaction. -/
theorem readCommandsAreReadTransactions : Obligations.ReadCommandsAreReadTransactions := by
  unfold Obligations.ReadCommandsAreReadTransactions
  intro s i x hb hi
  have hexec : exec i s = exec (.cmdRead x) s := by
    obtain rfl | ⟨r, rfl, rfl⟩ := hi
    · rfl
    · exact exec_readRow r s
  obtain ⟨t, ht, h⟩ := readTx_op none (addressOperand x) s hb
  obtain ⟨ended, ev, ln, rg, pr, fr, ec, cl⟩ := h
  rw [encodeCommand_address] at ev
  rw [addressOperand_toNat] at ec
  exact ⟨t, hexec.trans (congrArg _ ht), ended, ev, ln, rg, pr, fr, fun dev he => (ec dev he).2, cl⟩

/-- Settles O23: a named row does what the pattern does at its address, and that is one write transaction. -/
theorem writeCommandsAreWriteTransactions : Obligations.WriteCommandsAreWriteTransactions := by
  unfold Obligations.WriteCommandsAreWriteTransactions
  intro s i x hb hi
  have hexec : exec i s = exec (.cmdWrite x) s := by
    obtain rfl | ⟨r, rfl, rfl⟩ := hi
    · rfl
    · exact exec_writeRow r s
  obtain ⟨t, ht, h⟩ := writeTx_op none (addressOperand x) s.regs.v s hb
  rw [← encodeCommand_address, ← addressOperand_toNat]
  exact ⟨t, hexec.trans (congrArg _ ht), h.ended, h.ev, h.ln, h.rg, h.pr, h.na, h.cl, fun dev => h.cell⟩

end Sys2Proof.Machine
end

section
/-! SUPPORT. The six operations of BitProtocol at the host port (40_bitprotocol.md R121 to R126): what each ends in when
it is accepted, and the refusals of `txbit` and `rxbit` (R219, R222). -/

namespace Sys2Proof.Machine

/-! ### Operations that only move the lines -/

/-- A write asks the environment nothing (R53). -/
theorem lineWrite_noAnswer (l : Line) (b : Bool) (s : State) : NoAnswerUsed s (s.lineWrite l b) :=
  ⟨rfl, fun given h => by simp [h]⟩

theorem busReset_noAnswer (s : State) : NoAnswerUsed s s.busReset :=
  ⟨rfl, fun given h => by simp [State.busReset, h]⟩

theorem pulse_noAnswer (s : State) : NoAnswerUsed s s.pulse :=
  ⟨rfl, fun given h => by simp [State.pulse, h]⟩

/-- Neither of the two writes of `reset` is a rising clock edge. -/
theorem busReset_cell (s : State) (a : Nat) : s.busReset.cell a = s.cell a :=
  (lineWrite_cell .clk false _ (by simp) a).trans (lineWrite_cell .rst false s (by simp) a)

/-- An operation whose steps touch the lines' side only: how it ends, the host registers and `PRESENT` (R27). -/
theorem exec_linesOnly {i : Instr} {s t : State} (hb : s.busy = false)
    (hr : runSteps (program i s) (s.begin (startCode i)) = .goOn t) (L : LinesOnly (s.begin (startCode i)) t) :
    exec i s = .next (t.raise .ok) ∧ Ended .ok s (t.raise .ok) ∧
      (t.raise .ok).regs = { s.regs with op := (startCode i).getD s.regs.op, status := 0 } ∧
      (t.raise .ok).present = s.present :=
  ⟨exec_goOn hb hr, L.ended .ok, L.raise_regs_eq .ok, L.present⟩

/-- An operation that is one write of a line, not a rising clock edge: all it leaves. -/
theorem exec_lineWrite {i : Instr} {l : Line} {b : Bool} {s : State} (hb : s.busy = false)
    (hr : runSteps (program i s) (s.begin (startCode i)) = .goOn ((s.begin (startCode i)).lineWrite l b))
    (hl : ¬ (l = .clk ∧ b = true)) :
    ∃ t, exec i s = .next t ∧ Ended .ok s t ∧ t.events = s.events ++ [.write l b] ∧
      t.lines = s.lines.setOut b l ∧ t.regs = { s.regs with op := (startCode i).getD s.regs.op, status := 0 } ∧
      t.present = s.present ∧ NoAnswerUsed s t ∧ ∀ a, t.cell a = s.cell a := by
  obtain ⟨hexec, hended, hregs, hpresent⟩ := exec_linesOnly hb hr (linesOnly_lineWrite l b _)
  exact ⟨_, hexec, hended, events_lineWrite l b _, rfl, hregs, hpresent,
    raise_noAnswer .ok (startCode i) (lineWrite_noAnswer l b _), fun a => by
      rw [raise_cell, lineWrite_cell l b _ hl, begin_cell]⟩

/-- Settles O7: the steps of `reset` are three line events, none of them a sample or a rising clock edge. -/
theorem busResetMakesTheBusIdle : Obligations.BusResetMakesTheBusIdle := by
  unfold Obligations.BusResetMakesTheBusIdle
  intro s hb
  obtain ⟨hexec, hended, hregs, hpresent⟩ :=
    exec_linesOnly (i := .reset) hb (run_busReset _) (linesOnly_busReset _)
  exact ⟨_, hexec, hended, busReset_events _, rfl, hregs, hpresent,
    raise_noAnswer .ok (some 0x00) (busReset_noAnswer _), fun a => by rw [raise_cell, busReset_cell, begin_cell]⟩

/-- Settles O8: each is one write of the chip-select line. -/
theorem startAndStopWriteChipSelectOnly : Obligations.StartAndStopWriteChipSelectOnly := by
  unfold Obligations.StartAndStopWriteChipSelectOnly
  intro s hb
  exact ⟨exec_lineWrite (i := .start) (l := .rst) (b := true) hb rfl (by simp),
    exec_lineWrite (i := .stop) (l := .rst) (b := false) hb rfl (by simp)⟩

/-- Settles O9: of the pulse only the rising edge reaches a cell, and it stores where `State.pulseStores` says. -/
theorem clockGivesOnePulse : Obligations.ClockGivesOnePulse := by
  unfold Obligations.ClockGivesOnePulse
  intro s hb
  obtain ⟨hexec, hended, hregs, hpresent⟩ := exec_linesOnly (i := .clock) hb (run_clock _) (linesOnly_pulse _)
  have hcell := fun a => risingEdge_cell (s.begin (some 0x03)) a
  refine ⟨_, hexec, hended, pulse_events _, rfl, hregs, hpresent,
    raise_noAnswer .ok (some 0x03) (pulse_noAnswer _), fun a ha => ?_, fun dev a he hwf ha => ?_⟩
  · rw [raise_cell, pulse_cell]
    exact (hcell a).1 ha
  · rw [raise_cell, pulse_cell]
    exact (hcell a).2 dev he hwf ha

/-! ### The bit operations and their refusal -/

/-- An operation refused before its first line event ends with that status and nothing else is changed (R222). -/
theorem exec_refused_early {i : Instr} {e : Status} {s : State} (hb : s.busy = false)
    (hr : runSteps (program i s) (s.begin (startCode i)) = .raised e (s.begin (startCode i)).opAsBefore) :
    ∃ t, exec i s = .next t ∧ Ended e s t ∧ Untouched s t ∧ t.regs = { s.regs with status := e.code } ∧
      t.present = s.present :=
  ⟨_, by rw [exec_eq_operate, operate_raised hb hr], refused_early e (startCode i) s⟩

theorem run_txbit_output {s : State} (b : Bool) (h : s.lines.dirDat = .output) :
    runSteps (txbitSteps b) s = .goOn (s.lineWrite .dat b) := by
  rw [txbitSteps, runSteps_cons, doStep, txbitStep, if_pos h, bind_goOn, runSteps_nil]

theorem run_txbit_input {s : State} (b : Bool) (h : s.lines.dirDat = .input) :
    runSteps (txbitSteps b) s = .raised .protocolViolation s.opAsBefore := by
  rw [txbitSteps, runSteps_cons, doStep, txbitStep, if_neg (by simp [h]), bind_raised]

/-- Settles O10: with the data line an output `txbit` is one write of it, else its one step raises. -/
theorem txbitWritesTheDataLineOrIsRefused : Obligations.TxbitWritesTheDataLineOrIsRefused := by
  unfold Obligations.TxbitWritesTheDataLineOrIsRefused
  intro s hb
  exact ⟨fun hd => exec_lineWrite (i := .txbit) hb (run_txbit_output _ hd) (by simp),
    fun hd => exec_refused_early (i := .txbit) hb (run_txbit_input _ hd)⟩

/-- A sample of the data line whose bit goes to `R` (R126). -/
def State.sampled (s : State) : State :=
  { s.afterRead with
    work := { s.work with got := Byte.ofBit s.datLevel }, regs := { s.regs with r := Byte.ofBit s.datLevel } }

theorem run_rxbit_input {s : State} (h : s.lines.dirDat = .input) : runSteps rxbitSteps s = .goOn s.sampled := by
  rw [rxbitSteps, runSteps_cons, doStep, rxbitStep, if_pos h, bind_goOn, runSteps_cons, doStep, bind_goOn, runSteps_nil,
    afterRead_regs, afterRead_work]
  rfl

theorem run_rxbit_output {s : State} (h : s.lines.dirDat = .output) :
    runSteps rxbitSteps s = .raised .protocolViolation s.opAsBefore := by
  rw [rxbitSteps, runSteps_cons, doStep, rxbitStep, if_neg (by simp [h]), bind_raised]

/-- Listed answers are given in order, each once (log entry 8). -/
theorem afterRead_given {s : State} {x : Bool} {rest : List Bool} (h : s.env = .free (x :: rest)) :
    s.datLevel = x ∧ s.afterRead.env = .free rest ∧ s.afterRead.draws = s.draws := by
  simp [State.datLevel, State.afterRead, h]

/-- Settles O11: with the data line an input `rxbit` is one sample, kept in `R`; else its first step raises. -/
theorem rxbitSamplesTheDataLineOrIsRefused : Obligations.RxbitSamplesTheDataLineOrIsRefused := by
  unfold Obligations.RxbitSamplesTheDataLineOrIsRefused
  intro s hb
  refine ⟨fun hd => ?_, fun hd => exec_refused_early (i := .rxbit) hb (run_rxbit_output hd)⟩
  have L := linesOnly_afterRead (s.begin (some 0x05))
  exact ⟨_, s.datLevel, exec_goOn (i := .rxbit) hb (run_rxbit_input hd),
    Ended.of (c := some 0x05) .ok L.raised L.answer L.text L.inputs L.dirRst L.dirClk L.params,
    events_afterRead _, afterRead_lines _, rfl, L.present,
    fun x rest he => afterRead_given (s := s.begin (some 0x05)) he, fun a => afterRead_cell (s.begin (some 0x05)) a⟩

end Sys2Proof.Machine
end

section
/-! SUPPORT. How the traces of the byte operations are laid out (41_byteframer.md R142, R143, R146, R147): where each bit
and each clock pulse stands, and how many entries of a kind there are. -/

namespace Sys2Proof.Machine

/-! ### Bits with a clock pulse after each (R142, R143) -/

/-- The loop of `sendbits` and of `recvbits`: for each bit its event `f`, then one clock pulse. -/
def clockedBits (p : Params) (f : Bool → TraceEntry) (bits : List Bool) : List TraceEntry :=
  bits.flatMap fun b => f b :: pulseTrace p

theorem sendTrace_eq (p : Params) (v : Byte) :
    sendTrace p v = .dir .dat .output :: clockedBits p (.write .dat) (bitsOf v) := rfl

theorem recvTrace_eq (p : Params) (b : Byte) :
    recvTrace p b = .dir .dat .input :: clockedBits p (.read .dat) (bitsOf b) := rfl

theorem clockedBits_cons (p : Params) (f : Bool → TraceEntry) (b : Bool) (bits : List Bool) :
    clockedBits p f (b :: bits) = f b :: (pulseTrace p ++ clockedBits p f bits) := by
  rw [clockedBits, List.flatMap_cons, List.cons_append, clockedBits]

/-- Each bit takes five entries. -/
theorem drop_clockedBits (p : Params) (f : Bool → TraceEntry) (bits : List Bool) (i : Nat) :
    (clockedBits p f bits).drop (5 * i) = clockedBits p f (bits.drop i) := by
  induction i generalizing bits with
  | zero => rfl
  | succ i ih =>
    cases bits with
    | nil => rw [List.drop_nil, clockedBits, List.flatMap_nil, List.drop_nil]
    | cons b bits =>
      have hfive : (clockedBits p f (b :: bits)).drop 5 = clockedBits p f bits := rfl
      rw [Nat.mul_succ, Nat.add_comm, ← List.drop_drop, hfive, ih, List.drop_succ_cons]

/-- After the direction event `e` comes, for each bit of the byte in turn, its event and the four entries of a pulse. -/
theorem clockedBits_layout (p : Params) (f : Bool → TraceEntry) (e : TraceEntry) (v : Byte) (i : Nat) (hi : i < 8) :
    (e :: clockedBits p f (bitsOf v))[1 + 5 * i]? = some (f (v.getLsbD i)) ∧
      ((e :: clockedBits p f (bitsOf v)).drop (2 + 5 * i)).take 4 = pulseTrace p := by
  have hlen : i < (bitsOf v).length := by rw [bitsOf_length]; exact hi
  have hbit : (bitsOf v)[i] = v.getLsbD i := by simp [bitsOf]
  have hdrop : (e :: clockedBits p f (bitsOf v)).drop (1 + 5 * i) =
      f (v.getLsbD i) :: (pulseTrace p ++ clockedBits p f ((bitsOf v).drop (i + 1))) := by
    rw [Nat.add_comm, List.drop_succ_cons, drop_clockedBits, List.drop_eq_getElem_cons hlen, clockedBits_cons, hbit]
  constructor
  · rw [← List.head?_drop, hdrop, List.head?_cons]
  · rw [show 2 + 5 * i = (1 + 5 * i) + 1 by omega, ← List.drop_drop, hdrop]
    rfl

/-- Entries of a kind to which the events of all bits belong (`k = true`), or none does. -/
theorem countP_clockedBits {q : TraceEntry → Bool} {f : Bool → TraceEntry} {k : Bool} (h : ∀ b, q (f b) = k) (p : Params)
    (bits : List Bool) :
    (clockedBits p f bits).countP q = bits.length * (k.toNat + (pulseTrace p).countP q) := by
  induction bits with
  | nil => simp [clockedBits]
  | cons b bits ih =>
    rw [clockedBits_cons, List.countP_cons, List.countP_append, ih, h, List.length_cons, Nat.succ_mul]
    cases k <;> simp <;> omega

theorem filter_clockedBits {q : TraceEntry → Bool} {f : Bool → TraceEntry} (h : ∀ b, q (f b) = false) {p : Params}
    (hp : (pulseTrace p).filter q = []) (bits : List Bool) : (clockedBits p f bits).filter q = [] := by
  induction bits with
  | nil => rfl
  | cons b bits ih => rw [clockedBits_cons, List.filter_cons_of_neg (by simp [h]), List.filter_append, hp, ih]; rfl

/-! ### A transaction (R146, R147) -/

/-- The common shape of the two transactions: the command byte sent, then the data byte as events `f` after the turn `e`
of the data line. -/
def transactionTrace (p : Params) (c : Byte) (e : TraceEntry) (f : Bool → TraceEntry) (v : Byte) : List TraceEntry :=
  openingTrace p ++ sendTrace p c ++ (e :: clockedBits p f (bitsOf v)) ++ [.write .rst false]

theorem readTrace_eq (p : Params) (c b : Byte) :
    readTrace p c b = transactionTrace p c (.dir .dat .input) (.read .dat) b := rfl

theorem writeTrace_eq (p : Params) (c v : Byte) :
    writeTrace p c v = transactionTrace p c (.dir .dat .output) (.write .dat) v := rfl

/-- How many entries of a kind there are, where the kind does not depend on the levels of the data line. -/
theorem countP_transactionTrace {q : TraceEntry → Bool} {f : Bool → TraceEntry} {w k : Bool}
    (hw : ∀ b, q (.write .dat b) = w) (hf : ∀ b, q (f b) = k) (p : Params) (c : Byte) (e : TraceEntry) (v : Byte) :
    (transactionTrace p c e f v).countP q =
      (openingTrace p ++ [TraceEntry.dir .dat .output, e, .write .rst false]).countP q +
        8 * (w.toNat + k.toNat) + 16 * (pulseTrace p).countP q := by
  simp only [transactionTrace, sendTrace_eq, List.countP_append, List.countP_cons, List.countP_nil,
    countP_clockedBits hw, countP_clockedBits hf, bitsOf_length]
  omega

/-- Entries of a kind that no bit and no pulse has: those of the opening, the two turns of the data line and the end. -/
theorem filter_transactionTrace {q : TraceEntry → Bool} {f : Bool → TraceEntry} (hw : ∀ b, q (.write .dat b) = false)
    (hf : ∀ b, q (f b) = false) {p : Params} (hp : (pulseTrace p).filter q = []) (c : Byte) (e : TraceEntry) (v : Byte) :
    (transactionTrace p c e f v).filter q =
      (openingTrace p ++ [TraceEntry.dir .dat .output, e, .write .rst false]).filter q := by
  have hsend : (sendTrace p c).filter q = [TraceEntry.dir .dat .output].filter q := by
    rw [sendTrace_eq, ← List.singleton_append, List.filter_append, filter_clockedBits hw hp, List.append_nil]
  have hdata : (e :: clockedBits p f (bitsOf v)).filter q = [e].filter q := by
    rw [← List.singleton_append, List.filter_append, filter_clockedBits hf hp, List.append_nil]
  rw [transactionTrace, List.filter_append, List.filter_append, List.filter_append, hsend, hdata]
  simp only [← List.filter_append, List.append_assoc, List.cons_append, List.nil_append]

end Sys2Proof.Machine
end

section
/-! SUPPORT. ByteFramer at the host port (41_byteframer.md R140 to R148): the command byte, `sendbits` and `recvbits`, the
two transactions, and `readbyte` against the operations it is made of. -/

namespace Sys2Proof.Machine

/-! ### The command byte (R140) -/

theorem commandByte_toNat (a : Address) (f : RW) :
    (commandByte a f).toNat = 0x80 + 2 * a.toNat + (if f = .read then 1 else 0) := by
  have ha := a.isLt
  have hread : (commandByte a .read).toNat = (1 <<< 6 ||| a.toNat) <<< 1 ||| 1 := by
    rw [commandByte, BitVec.toNat_append, BitVec.toNat_append]; rfl
  have hwrite : (commandByte a .write).toNat = (1 <<< 6 ||| a.toNat) <<< 1 ||| 0 := by
    rw [commandByte, BitVec.toNat_append, BitVec.toNat_append]; rfl
  rw [← Nat.shiftLeft_add_eq_or_of_lt ha] at hread hwrite
  cases f
  · rw [hread, ← Nat.shiftLeft_add_eq_or_of_lt (by omega), if_pos rfl]
    omega
  · rw [hwrite, ← Nat.shiftLeft_add_eq_or_of_lt (by omega), if_neg (by simp)]
    omega

/-- An operand's command byte is that of the address in its low six bits (R58, R92). -/
theorem encodeCommand_eq_commandByte (a : Byte) (f : RW) : encodeCommand a f = commandByte (a.setWidth 6) f := by
  have hmask : a &&& 0x3F#8 = addressOperand (a.setWidth 6) := by revert a; decide
  rw [← encodeCommand_masked, hmask, encodeCommand_address]

theorem setWidth_six_ofNat (n : Nat) : (BitVec.ofNat 8 n).setWidth 6 = BitVec.ofNat 6 n :=
  BitVec.setWidth_ofNat_of_le (by omega) n

/-- Settles O5: the two patterns are the definition, and the command byte is put together from the constant, the address
and the flag. -/
theorem commandByteIsPatternWithMaskedAddress : Obligations.CommandByteIsPatternWithMaskedAddress := by
  unfold Obligations.CommandByteIsPatternWithMaskedAddress
  intro n f
  have hnum : (encodeCommand (BitVec.ofNat 8 n) f).toNat = 0x80 + 2 * (n % 64) + (if f = .read then 1 else 0) := by
    rw [encodeCommand_eq_commandByte, commandByte_toNat, setWidth_six_ofNat, BitVec.toNat_ofNat]
  refine ⟨?_, hnum, by rw [hnum]; omega, encodeCommand_bit7 _ f, ?_, ?_, by decide⟩
  · cases f <;> rfl
  · rw [encodeCommand_bit0]; cases f <;> rfl
  · rw [commandAddress_encodeCommand, setWidth_six_ofNat]

/-! ### `sendbits` and `recvbits` (R142, R143) -/

/-- Settles O12: the eight bits sent touch the lines' side only and leave 0 in the shift register. -/
theorem sendbitsSendsEightBitsLowFirst : Obligations.SendbitsSendsEightBitsLowFirst := by
  unfold Obligations.SendbitsSendsEightBitsLowFirst
  refine ⟨fun s hb => ?_, fun p v => ⟨sendTrace_length p v, rfl, clockedBits_layout p _ _ v⟩,
    fun v s => ⟨_, run_send (.lit v) s, by rw [sent_work]⟩⟩
  obtain ⟨hexec, hended, hregs, hpresent⟩ :=
    exec_linesOnly (i := .sendbits) hb (run_send (.lit s.regs.v) _) (linesOnly_sent _ _)
  refine ⟨_, hexec, hended, ?_, ?_, hregs, hpresent, raise_noAnswer .ok (some 0x08) (sent_noAnswer _ _)⟩
  · rw [raise_events, sent_events, begin_events, begin_params, ByteSrc.value]
  · rw [raise_lines, sent_lines, begin_lines, ByteSrc.value]

/-- Settles O14: the byte assembled from the eight answers goes to `R`, and receiving reaches no cell. -/
theorem recvbitsAssemblesEightAnswersLowFirst : Obligations.RecvbitsAssemblesEightAnswersLowFirst := by
  unfold Obligations.RecvbitsAssemblesEightAnswersLowFirst
  refine ⟨fun s hb => ?_, fun p b => ⟨recvTrace_length p b, rfl, clockedBits_layout p _ _ b⟩, by decide⟩
  have L := linesOnly_received (s.begin (some 0x09))
  have hevents := received_events (s.begin (some 0x09))
  have hlines := received_lines (s.begin (some 0x09))
  have hfree := fun b rest => received_free b rest (s.begin (some 0x09))
  have hcell := received_cell (s.begin (some 0x09))
  refine ⟨_, exec_goOn (i := .recvbits) hb (run_recvbitsProgram (s.begin (some 0x09))), ?_⟩
  generalize (s.begin (some 0x09)).received = u at *
  exact ⟨Ended.of (c := some 0x09) .ok L.raised L.answer L.text L.inputs L.dirRst L.dirClk L.params, hevents, hlines, rfl,
    L.present, fun b rest he => have ⟨henv, hdraws, hbyte⟩ := hfree b rest he; ⟨hbyte, henv, hdraws⟩, hcell⟩

/-! ### The two transactions (R146, R147) -/

/-- Settles O15: the operation is one read transaction, and its trace is the opening, eight bits each way and `stop`. -/
theorem readbyteIsOneReadTransaction : Obligations.ReadbyteIsOneReadTransaction := by
  unfold Obligations.ReadbyteIsOneReadTransaction
  refine ⟨fun s hb => ?_, fun p c b => ⟨readTrace_length p c b, rfl, ?_⟩, by decide⟩
  · obtain ⟨t, ht, h⟩ := readTx_op (some 0x0A) s.regs.a s hb
    rw [← setWidth_six_toNat]
    exact ⟨t, congrArg _ ht, h.ended, h.ev, h.ln, h.rg, h.pr, h.fr, fun dev he => (h.ec dev he).2, h.cl⟩
  · rw [readTrace_eq]
    refine ⟨List.getLast?_concat .., ?_, ?_, ?_, ?_, ?_⟩
    · exact countP_transactionTrace (w := false) (k := false) (by decide) (by decide) p c _ b
    · exact countP_transactionTrace (w := true) (k := false) (by decide) (by decide) p c _ b
    · exact countP_transactionTrace (w := false) (k := true) (by decide) (by decide) p c _ b
    · exact filter_transactionTrace (q := TraceEntry.isDir) (fun _ => rfl) (fun _ => rfl) (p := p) rfl c _ b
    · exact filter_transactionTrace (q := TraceEntry.isChipSelect) (fun _ => rfl) (fun _ => rfl) (p := p) rfl c _ b

/-- Settles O16: the operation is one write transaction, and its trace is the opening, two bytes sent and `stop`. -/
theorem writebyteIsOneWriteTransaction : Obligations.WritebyteIsOneWriteTransaction := by
  unfold Obligations.WritebyteIsOneWriteTransaction
  refine ⟨fun s hb => ?_, fun p c v => ⟨writeTrace_length p c v, rfl, ?_⟩, by decide⟩
  · obtain ⟨t, ht, h⟩ := writeTx_op (some 0x0B) s.regs.a s.regs.v s hb
    have hdrives : t.drives .dat = some (s.regs.v.getLsbD 7) := by rw [State.drives, h.ln, if_pos rfl]
    rw [← setWidth_six_toNat]
    exact ⟨t, congrArg _ ht, h.ended, h.ev, h.ln, hdrives, h.rg, h.pr, h.na, fun dev => h.cell, h.cl⟩
  · rw [writeTrace_eq]
    refine ⟨List.getLast?_concat .., ?_, ?_, ?_, ?_, ?_⟩
    · exact countP_transactionTrace (w := false) (k := false) (by decide) (by decide) p c _ v
    · exact countP_transactionTrace (w := true) (k := true) (by decide) (by decide) p c _ v
    · exact countP_transactionTrace (w := false) (k := false) (by decide) (by decide) p c _ v
    · exact filter_transactionTrace (q := TraceEntry.isDir) (fun _ => rfl) (fun _ => rfl) (p := p) rfl c _ v
    · exact filter_transactionTrace (q := TraceEntry.isChipSelect) (fun _ => rfl) (fun _ => rfl) (p := p) rfl c _ v

/-- Settles O19: the write leaves the value in the addressed cell and the operand in `A`, and the read returns that cell. -/
theorem readbyteAfterWritebyteReturnsTheValue : Obligations.ReadbyteAfterWritebyteReturnsTheValue := by
  unfold Obligations.ReadbyteAfterWritebyteReturnsTheValue
  intro s dev hb he hwf
  obtain ⟨t, ht, hwrite⟩ := writeTx_op (some 0x0B) s.regs.a s.regs.v s hb
  obtain ⟨u, hu, hread⟩ := readTx_op (some 0x0A) t.regs.a t hwrite.ended.busy
  have ha : t.regs.a = s.regs.a := by rw [hwrite.rg]
  have hr : u.regs.r = s.regs.v := by rw [(hread.ec _ (hwrite.ec dev he)).2, ha, hwrite.cell he hwf]
  rw [← setWidth_six_toNat]
  exact ⟨t, u, congrArg _ ht, hwrite.ended.status, congrArg _ hu, hread.ended.status, hr, fun a hne => by
    rw [hread.cl, hwrite.cl a hne]⟩

/-! ### `readbyte` and the operations it is made of (R144, R146) -/

theorem SameView.trans {s t u : State} (h : SameView s t) (k : SameView t u) : SameView s u :=
  ⟨h.lines.trans k.lines, h.env.trans k.env, h.draws.trans k.draws⟩

theorem sameView_begin (c : Option Byte) (s : State) : SameView (s.begin c) s := ⟨rfl, rfl, rfl⟩

theorem sameView_raise (e : Status) (s : State) : SameView (s.raise e) s := ⟨rfl, rfl, rfl⟩

theorem busReset_view {s t : State} (h : SameView s t) : SameView s.busReset t.busReset := by
  have hw := sameView_lineWrite (sameView_lineWrite h .rst false) .clk false
  exact ⟨congrArg (LinePort.setDir · .input .dat) hw.lines, hw.env, hw.draws⟩

/-- An operation whose steps touch the lines' side only does on the bus what its steps do: beginning and ending it move
nothing there. -/
theorem exec_sameView {i : Instr} {s : State} (f : State → State) (hb : s.busy = false)
    (hr : runSteps (program i s) (s.begin (startCode i)) = .goOn (f (s.begin (startCode i))))
    (L : LinesOnly (s.begin (startCode i)) (f (s.begin (startCode i))))
    (hf : ∀ {x y : State}, SameView x y → SameView (f x) (f y)) :
    ∃ t, exec i s = .next t ∧ Ended .ok s t ∧ SameView t (f s) ∧
      t.regs = { s.regs with op := (startCode i).getD s.regs.op, status := 0 } ∧
      t.events = (f (s.begin (startCode i))).events := by
  obtain ⟨hexec, hended, hregs, -⟩ := exec_linesOnly hb hr L
  exact ⟨_, hexec, hended, (sameView_raise .ok _).trans (hf (sameView_begin _ s)), hregs, raise_events .ok _⟩

/-- `recvbits` does on the bus what its eight samples do, and its byte goes to `R` (R143). -/
theorem exec_recvbits_sameView {s : State} (hb : s.busy = false) :
    ∃ t, exec .recvbits s = .next t ∧ t.busy = false ∧ t.params = s.params ∧ SameView t s.received ∧
      t.regs.r = s.received.work.shift ∧ t.events = s.events ++ recvTrace s.params s.received.work.shift := by
  obtain ⟨hview, hbyte⟩ := received_view (sameView_begin (some 0x09) s)
  have hevents := received_events (s.begin (some 0x09))
  have hparams := received_params (s.begin (some 0x09))
  rw [hbyte] at hevents
  refine ⟨_, exec_goOn (i := .recvbits) hb (run_recvbitsProgram (s.begin (some 0x09))), rfl, ?_⟩
  generalize (s.begin (some 0x09)).received = u at *
  exact ⟨hparams, ⟨hview.lines, hview.env, hview.draws⟩, hbyte, hevents⟩

/-- `readbyte` does on the bus what its transaction does, and its byte goes to `R` (R146). -/
theorem exec_readbyte_sameView {s : State} (hb : s.busy = false) :
    ∃ u, exec .readbyte s = .next u ∧ u.regs.status = 0 ∧ SameView u ((s.begin (some 0x0A)).readTx s.regs.a) ∧
      u.regs.r = ((s.begin (some 0x0A)).readTx s.regs.a).work.shift ∧
      u.events = s.events ++ readTrace s.params (encodeCommand s.regs.a .read) u.regs.r := by
  have hevents := readTx_events s.regs.a (s.begin (some 0x0A))
  refine ⟨_, exec_goOn (i := .readbyte) hb (run_readbyteProgram s.regs.a (s.begin (some 0x0A))), rfl, ?_⟩
  generalize (s.begin (some 0x0A)).readTx s.regs.a = u at *
  exact ⟨⟨rfl, rfl, rfl⟩, rfl, hevents⟩

/-- A read transaction taken part by part: from an opened bus `p`, with the command sent by `q` and the byte received by
`r`, `stop` leaves the bus as the whole transaction does, and the byte is the same. -/
theorem readTx_view_of_parts {a : Byte} {s p q r : State} (hp : SameView p s.opening)
    (hq : SameView q (p.sent (encodeCommand a .read))) (hr : SameView r q.received) :
    SameView (r.lineWrite .rst false) (s.readTx a) ∧ q.received.work.shift = (s.readTx a).work.shift := by
  have hopen : SameView p (s.opening.withCmd (encodeCommand a .read)) := ⟨hp.lines, hp.env, hp.draws⟩
  obtain ⟨hview, hbyte⟩ := received_view (hq.trans (sent_view _ hopen))
  exact ⟨sameView_lineWrite (hr.trans hview) .rst false, hbyte⟩

/-- The fifth entry of a read transaction is the settle delay. -/
theorem readTrace_without_settle (p : Params) (c b : Byte) : (readTrace p c b).eraseIdx 4 =
    busResetTrace ++ [.write .rst true] ++ sendTrace p c ++ recvTrace p b ++ [.write .rst false] := rfl

/-- Settles O21: the five operations do on the bus, one after the other, what the parts of the transaction do. -/
theorem readbyteIsItsPrimitivesPlusTheSettleDelay : Obligations.ReadbyteIsItsPrimitivesPlusTheSettleDelay := by
  unfold Obligations.ReadbyteIsItsPrimitivesPlusTheSettleDelay
  intro s hb hv
  obtain ⟨t1, h1, e1, v1, r1, ev1⟩ := exec_sameView (i := .reset) State.busReset hb (run_busReset _)
    (linesOnly_busReset _) busReset_view
  obtain ⟨t2, h2, e2, v2, r2, ev2⟩ := exec_sameView (i := .start) (State.lineWrite .rst true) e1.busy rfl
    (linesOnly_lineWrite _ _ _) (sameView_lineWrite · _ _)
  obtain ⟨t3, h3, e3, v3, -, ev3⟩ := exec_sameView (i := .sendbits) (State.sent t2.regs.v) e2.busy (run_send _ _)
    (linesOnly_sent _ _) (sent_view _)
  obtain ⟨t4, h4, b4, p4, v4, r4, ev4⟩ := exec_recvbits_sameView e3.busy
  obtain ⟨t, h5, e5, v5, r5, ev5⟩ := exec_sameView (i := .stop) (State.lineWrite .rst false) b4 rfl
    (linesOnly_lineWrite _ _ _) (sameView_lineWrite · _ _)
  obtain ⟨u, hu, su, vu, ru, evu⟩ := exec_readbyte_sameView hb
  have hcmd : t2.regs.v = encodeCommand s.regs.a .read := by rw [r2, r1, hv]
  rw [hcmd] at v3 ev3
  have hopen : SameView t2 (s.begin (some 0x0A)).opening := by
    obtain ⟨hlines, henv, hdraws⟩ := v2.trans (sameView_lineWrite v1 .rst true)
    exact ⟨hlines, henv, hdraws⟩
  obtain ⟨hview, hbyte⟩ := readTx_view_of_parts hopen v3 v4
  have hr : t.regs.r = u.regs.r := by rw [r5, ru, ← hbyte, ← r4]
  obtain ⟨hlines, henv, hdraws⟩ := v5.trans hview
  refine ⟨t1, t2, t3, t4, t, u, h1, h2, h3, h4, h5, hu, hlines.trans vu.lines.symm, henv.trans vu.env.symm,
    hdraws.trans vu.draws.symm, hr, e5.status.trans su.symm, _, _, evu, ?_⟩
  rw [readTrace_without_settle, ev5, events_lineWrite, begin_events, ev4, ev3, sent_events, begin_events, begin_params, ev2,
    events_lineWrite, begin_events, ev1, busReset_events, begin_events, e3.params, e2.params, e1.params, hbyte, ← ru]
  simp only [List.append_assoc]

end Sys2Proof.Machine
end

section
/-! SUPPORT. The codec's pure functions (42_timecodec.md): BCD bytes by their digits (R161 to R163) and the century rule
(R165). -/

namespace Sys2Proof.Machine

/-! ### The digits of a byte -/

theorem ushiftRight_four_toNat (b : Byte) : (b >>> 4).toNat = b.toNat / 16 := by
  rw [BitVec.toNat_ushiftRight, Nat.shiftRight_eq_div_pow]

theorem and_fifteen_toNat (b : Byte) : (b &&& 0x0F#8).toNat = b.toNat % 16 := by
  rw [BitVec.toNat_and]
  exact Nat.and_two_pow_sub_one_eq_mod b.toNat 4

/-- Both nibbles decimal digits, as numbers (R94). -/
theorem isDecimal_iff (b : Byte) : isDecimal b = true ↔ b.toNat / 16 ≤ 9 ∧ b.toNat % 16 ≤ 9 := by
  simp only [isDecimal, ushiftRight_four_toNat, and_fifteen_toNat, Bool.and_eq_true, decide_eq_true_eq]

theorem decodeFormula_eq (b : Byte) : decodeFormula b = b.toNat / 16 * 10 + b.toNat % 16 := by
  rw [decodeFormula, ushiftRight_four_toNat, and_fifteen_toNat]

/-! ### Decoding -/

/-- On a decimal byte the parameter is not read (R162, D12). -/
theorem decodeBcd_of_digits (p : Params) {b : Byte} (hb : b.toNat / 16 ≤ 9 ∧ b.toNat % 16 ≤ 9) :
    decodeBcd p b = b.toNat / 16 * 10 + b.toNat % 16 := by
  rw [decodeBcd, if_pos ((isDecimal_iff b).mpr hb), decodeFormula_eq]

/-- With no exception listed the other bytes decode by the formula too (D12). -/
theorem decodeBcd_of_default {p : Params} (h : p.nonDecimal = []) (b : Byte) :
    decodeBcd p b = b.toNat / 16 * 10 + b.toNat % 16 := by
  have hnon : decodeNonDecimal p b = decodeFormula b := by rw [decodeNonDecimal, h]; rfl
  rw [decodeBcd, hnon, ite_self, decodeFormula_eq]

/-- Settles O60: a nibble is at most 15, so the formula gives at most 165. -/
theorem decodeBcdIsTheFormula : Obligations.DecodeBcdIsTheFormula := by
  unfold Obligations.DecodeBcdIsTheFormula
  refine ⟨fun p b h => ?_, fun p b htens hones => decodeBcd_of_digits p ⟨htens, hones⟩, by decide⟩
  have hlt := b.isLt
  rw [decodeBcd_of_default h b]
  exact ⟨rfl, by omega⟩

/-! ### There and back (R163) -/

theorem digits_encodeBcd {v : Nat} (h : v ≤ 99) : (encodeBcd v).toNat / 16 ≤ 9 ∧ (encodeBcd v).toNat % 16 ≤ 9 := by
  rw [encodeBcd_toNat h]
  omega

theorem decodeBcd_encodeBcd (p : Params) {v : Nat} (h : v ≤ 99) : decodeBcd p (encodeBcd v) = v := by
  rw [decodeBcd_of_digits p (digits_encodeBcd h), encodeBcd_toNat h]
  omega

/-- The value of two digits is in the codec's domain, and its tens and ones are the digits. -/
theorem encodeBcd_decodeBcd (p : Params) {b : Byte} (hb : b.toNat / 16 ≤ 9 ∧ b.toNat % 16 ≤ 9) :
    encodeBcd (decodeBcd p b) = b ∧ decodeBcd p b ≤ 99 := by
  rw [decodeBcd_of_digits p hb]
  refine ⟨BitVec.eq_of_toNat_eq ?_, by omega⟩
  rw [encodeBcd_toNat (by omega)]
  omega

/-- Settles O25: decoding takes a value's byte back to the value, and only decimal bytes are bytes of values. -/
theorem bcdRoundTrip : Obligations.BcdRoundTrip := by
  unfold Obligations.BcdRoundTrip
  refine ⟨fun p v _ => decodeBcd_encodeBcd p (by omega), fun p b => ⟨?_, encodeBcd_decodeBcd p⟩⟩
  rintro ⟨hb, hv⟩
  rw [← hb]
  exact digits_encodeBcd hv

/-! ### The century rule (R165) -/

theorem year_mod_hundred_le (year : Nat) : year % 100 ≤ 99 := Nat.le_of_lt_succ (Nat.mod_lt _ (by omega))

theorem centuryOffset_of_lt {y : Nat} (h : y < 70) : centuryOffset y = y + 100 := if_pos h

theorem centuryOffset_of_le {y : Nat} (h : 70 ≤ y) : centuryOffset y = y := if_neg (Nat.not_lt_of_le h)

/-- Settles O26: the two sides of the pivot. -/
theorem centuryPivotsAtSeventy : Obligations.CenturyPivotsAtSeventy := by
  unfold Obligations.CenturyPivotsAtSeventy
  refine ⟨fun y h => ?_, fun y h => ?_, fun _ => rfl, by decide⟩
  · rw [centuryYear, centuryOffset_of_lt h]
    omega
  · rw [centuryYear, centuryOffset_of_le h]
    exact ⟨rfl, rfl⟩

/-- In the hundred years the two digits stand for, the rule gives the year back (R166). -/
theorem centuryYear_mod_hundred {year : Nat} (h : 1970 ≤ year) (h' : year ≤ 2069) :
    centuryYear (year % 100) = year := by
  by_cases hy : year % 100 < 70
  · rw [centuryYear, centuryOffset_of_lt hy]
    omega
  · rw [centuryYear, centuryOffset_of_le (Nat.le_of_not_lt hy)]
    omega

end Sys2Proof.Machine
end

section
/-! SUPPORT. `read_time` and `set_time` with the gate open, run (42_timecodec.md R169, R170), and one after the other
(R172). -/

namespace Sys2Proof.Machine

/-! ### `read_time` (R169) -/

theorem run_checkTime {s : State} (h : BytesAreATime s.params s.work.raw) : runSteps [.checkTime, .storeTime] s =
    .goOn { s with regs := { s.regs with time := recordOf s.params s.work.raw } } := by
  rw [runSteps_cons, doStep, if_pos ((valid_iff _ _).mpr h), bind_goOn, runSteps_cons, doStep, bind_goOn, runSteps_nil,
    toRegs_eq _ _ h]

theorem run_checkTime_invalid {s : State} (h : ¬ BytesAreATime s.params s.work.raw) :
    runSteps [.checkTime, .storeTime] s = .raised .invalidTime s := by
  rw [runSteps_cons, doStep, if_neg (mt (valid_iff _ _).mp h), bind_raised]

/-- `read_time` ends in `t` when its seven reads end in `u`: on the bus nothing more is done, and the bytes read decide
between the record with `Ok` and `T_*` as they were with `InvalidTime`. -/
structure ReadTimeEnds (s u t : State) : Prop where
  view : SameView t u
  events : t.events = s.events ++ readTimeTrace s.params u.work.raw
  present : t.present = s.present
  valid : BytesAreATime s.params u.work.raw → Ended .ok s t ∧
    t.regs = { s.regs with op := 0x10, status := 0, time := recordOf s.params u.work.raw }
  invalid : ¬ BytesAreATime s.params u.work.raw →
    Ended .invalidTime s t ∧ t.regs = { s.regs with op := 0x10, status := 1 }

theorem exec_readTime {s : State} (hb : s.busy = false) (hp : s.present = .ok) :
    ∃ t, exec .readTime s = .next t ∧ ReadTimeEnds s (readAll (s.begin (some 0x10))) t := by
  have L := linesOnly_readAll (s.begin (some 0x10))
  have hevents := readAll_events (s.begin (some 0x10))
  have hrun : runSteps (program .readTime s) (s.begin (startCode .readTime)) =
      runSteps [.checkTime, .storeTime] (readAll (s.begin (some 0x10))) := run_readTime _ hp
  generalize readAll (s.begin (some 0x10)) = u at *
  have hparams : u.params = s.params := L.params
  by_cases hv : BytesAreATime s.params u.work.raw
  · rw [run_checkTime (by rwa [hparams])] at hrun
    exact ⟨_, exec_goOn (i := .readTime) hb hrun, ⟨rfl, rfl, rfl⟩, hevents, L.present,
      fun _ => ⟨Ended.of (c := some 0x10) .ok L.raised L.answer L.text L.inputs L.dirRst L.dirClk L.params,
        by rw [← hparams, raise_regs, L.regs]; rfl⟩,
      fun h => absurd hv h⟩
  · rw [run_checkTime_invalid (by rwa [hparams])] at hrun
    exact ⟨_, by rw [exec_eq_operate, operate_raised hb hrun], sameView_raise _ u, hevents, L.present,
      fun h => absurd h hv, fun _ => ⟨L.ended (c := some 0x10) _, by rw [raise_regs, L.regs]; rfl⟩⟩

/-- The lengths of the months, with the leap-year rule (R168, G2). -/
theorem daysInMonth_table (y : Nat) : (List.range 12).map (daysInMonth · y) =
    [31, if y % 4 = 0 ∧ (y % 100 ≠ 0 ∨ y % 400 = 0) then 29 else 28, 31, 30, 31, 30, 31, 31, 30, 31, 30, 31] := by
  have hleap : (isLeapYear y = true) = (y % 4 = 0 ∧ (y % 100 ≠ 0 ∨ y % 400 = 0)) := by simp [isLeapYear]
  simp only [← hleap]
  rfl

/-- Settles O27: the seven reads decide everything; what they leave on the bus, receive and do to the cells is said of
them. -/
theorem readTimeReadsSevenRegistersThenChecks : Obligations.ReadTimeReadsSevenRegistersThenChecks := by
  unfold Obligations.ReadTimeReadsSevenRegistersThenChecks
  refine ⟨fun s hb hp => ?_, validTime_iff, daysInMonth_table⟩
  obtain ⟨t, ht, ⟨hlines, henv, hdraws⟩, hevents, hpresent, hvalid, hinvalid⟩ := exec_readTime hb hp
  refine ⟨t, _, ht, hevents, hlines.trans (readAll_lines _), hpresent.trans hp, hvalid, hinvalid,
    fun c rest he => ?_, fun dev he => ?_, fun a => ?_⟩
  · obtain ⟨hrest, hdrawn, hraw⟩ := readAll_free (s.begin (some 0x10)) c rest he
    exact ⟨hraw, henv.trans hrest, hdraws.trans hdrawn⟩
  · exact (readAll_echo (s.begin (some 0x10)) he).1
  · rw [cell_of_env henv, readAll_cell, begin_cell]

/-! ### `set_time` (R170) -/

/-- Settles O29: the check of the fields is the first step behind the gate, and it raises. -/
theorem setTimeRejectsWhatBcdCannotHold : Obligations.SetTimeRejectsWhatBcdCannotHold := by
  unfold Obligations.SetTimeRejectsWhatBcdCannotHold
  intro s hb hp hf
  obtain ⟨t, ht, hended, huntouched, hregs, hpresent⟩ :=
    exec_refused_early (i := .setTime) hb (run_setTime_rejected hp hf)
  exact ⟨t, ht, hended, huntouched, hregs, hpresent.trans hp⟩

/-- `set_time` does on the bus what its eleven transactions do, and gives no result. -/
theorem exec_setTime {s : State} (hb : s.busy = false) (hp : s.present = .ok)
    (hf : FieldsAreEncodable s.regs.time) : ∃ t, exec .setTime s = .next t ∧ Ended .ok s t ∧
      t.regs = { s.regs with op := 0x11, status := 0 } ∧ t.present = .ok ∧
      t.events = (writeAll s.regs.time (s.begin (some 0x11))).events ∧
      SameView t (writeAll s.regs.time (s.begin (some 0x11))) := by
  obtain ⟨hexec, hended, hregs, hpresent⟩ :=
    exec_linesOnly (i := .setTime) hb (run_setTime s.regs.time (s.begin (some 0x11)) hp hf) (linesOnly_writeAll _ _)
  exact ⟨_, hexec, hended, hregs, hpresent.trans hp, raise_events _ _, sameView_raise _ _⟩

/-- Settles O28: the eleven transactions, whose first and tenth give `s0` and `s1`. -/
theorem setTimeHaltsWritesSevenFieldsAndResumes : Obligations.SetTimeHaltsWritesSevenFieldsAndResumes := by
  unfold Obligations.SetTimeHaltsWritesSevenFieldsAndResumes
  intro s hb hp hf
  obtain ⟨t, ht, hended, hregs, hpresent, hevents, hlines, henv, hdraws⟩ := exec_setTime hb hp hf
  refine ⟨t, _, _, ht, hended, hevents.trans (writeAll_events _ _), hlines.trans (writeAll_lines _ _), hregs, hpresent,
    fun x y rest he => ?_, fun dev he hwf => ?_, fun a ha => ?_⟩
  · rw [henv, hdraws]
    exact writeAll_free s.regs.time (s.begin (some 0x11)) x y rest he
  · obtain ⟨hs0, hs1, dev', hdev, -, hread⟩ := writeAll_echo s.regs.time (s.begin (some 0x11)) he hwf
    refine ⟨hs0, hs1, ?_⟩
    simp [cell_echo (henv.trans hdev), hread]
  · rw [cell_of_env henv, fields_cell _ _ a ha, begin_cell]

/-! ### `read_time` after `set_time` (R172) -/

/-- The bytes of a record (R170), by register. -/
def bytesOf (c : CalendarTime) : RawTime :=
  { sec := encodeBcd c.sec.toNat, min := encodeBcd c.min.toNat, hour := encodeBcd c.hour.toNat,
    day := encodeBcd c.wday.toNat, date := encodeBcd c.mday.toNat, mon := encodeBcd (c.mon.toNat + 1),
    year := encodeBcd (c.year.toNat % 100) }

/-- With the halt bit clear, clearing it does nothing. -/
theorem and_seven_bits {b : Byte} : b.getLsbD 7 = false → b &&& 0x7F#8 = b := by
  revert b
  decide

theorem daysInMonth_le (mon year : Nat) : daysInMonth mon year ≤ 31 := by
  unfold daysInMonth
  split
  · split <;> omega
  all_goals omega

/-- R167 asks more of a record than the codec does (R170), but for the day of the week. -/
theorem fieldsAreEncodable_of_validTime {c : CalendarTime}
    (hv : validTime c.sec.toNat c.min.toNat c.hour.toNat c.mday.toNat c.mon.toNat c.year.toNat = true)
    (hw : c.wday.toNat ≤ 99) : FieldsAreEncodable c := by
  obtain ⟨hsec, hmin, hhour, -, hmon, -, hmday⟩ := (validTime_iff ..).mp hv
  have hlen := daysInMonth_le c.mon.toNat c.year.toNat
  rw [Int.toNat_natCast] at hmday
  exact ⟨by omega, by omega, by omega, hw, by omega, by omega⟩

/-- The bytes of a valid record of the window are a time (R163, R166, R167). -/
theorem bytesAreATime_bytesOf (p : Params) {c : CalendarTime} (hf : FieldsAreEncodable c)
    (hv : validTime c.sec.toNat c.min.toNat c.hour.toNat c.mday.toNat c.mon.toNat c.year.toNat = true)
    (hlo : 1970 ≤ c.year.toNat) (hhi : c.year.toNat ≤ 2069) : BytesAreATime p (bytesOf c) := by
  obtain ⟨esec, emin, ehour, -, emday, emon⟩ := hf
  obtain ⟨hsec, hmin, hhour, -, hmon, hone, hmday⟩ := (validTime_iff ..).mp hv
  rw [Int.toNat_natCast] at hmday
  simp only [BytesAreATime, bytesOf, decodeBcd_encodeBcd p esec, decodeBcd_encodeBcd p emin,
    decodeBcd_encodeBcd p ehour, decodeBcd_encodeBcd p emday, decodeBcd_encodeBcd p emon,
    decodeBcd_encodeBcd p (year_mod_hundred_le c.year.toNat), centuryYear_mod_hundred hlo hhi, Nat.add_sub_cancel]
  exact ⟨hsec, hmin, hhour, by omega, by omega, hone, hmday⟩

/-- A record of the window is decoded from its own bytes (R163, R166). -/
theorem recordOf_bytesOf (p : Params) {c : CalendarTime} (hf : FieldsAreEncodable c) (hlo : 1970 ≤ c.year.toNat)
    (hhi : c.year.toNat ≤ 2069) : recordOf p (bytesOf c) = c := by
  obtain ⟨esec, emin, ehour, ewday, emday, emon⟩ := hf
  simp only [recordOf, bytesOf, decodeBcd_encodeBcd p esec, decodeBcd_encodeBcd p emin, decodeBcd_encodeBcd p ehour,
    decodeBcd_encodeBcd p ewday, decodeBcd_encodeBcd p emday, decodeBcd_encodeBcd p emon,
    decodeBcd_encodeBcd p (year_mod_hundred_le c.year.toNat), centuryYear_mod_hundred hlo hhi, Nat.add_sub_cancel,
    BitVec.ofNat_toNat, BitVec.setWidth_eq]

/-- On the device the seven reads of `read_time` get back the bytes `set_time` wrote, if its resume write had no bit to
clear (R75, R171). -/
theorem readAll_of_writeAll {c : CalendarTime} {s t : State} {dev : EchoDevice} (he : s.env = .echo dev)
    (hwf : dev.mem.wf) (hsec : c.sec.toNat ≤ 79) (ht : t.env = (writeAll c s).env) :
    (readAll t).work.raw = bytesOf c := by
  obtain ⟨-, hs1, dev', henv, -, hread⟩ := writeAll_echo c s he hwf
  have hecho : t.env = .echo dev' := ht.trans henv
  rw [hs1, and_seven_bits (encodeBcd_bit7 _ hsec)] at hread
  rw [(readAll_echo t hecho).1]
  simp [cell_echo hecho, hread, bytesOf]

/-- Settles O30: the bytes read back are the record's own, which are a time and decode to the record. -/
theorem readTimeAfterSetTimeReturnsTheRecord : Obligations.ReadTimeAfterSetTimeReturnsTheRecord := by
  unfold Obligations.ReadTimeAfterSetTimeReturnsTheRecord
  intro s dev hb hp he hwf hv hw hlo hhi
  have hf := fieldsAreEncodable_of_validTime hv hw
  have hsec : s.regs.time.sec.toNat ≤ 59 := ((validTime_iff ..).mp hv).1
  obtain ⟨t, ht, hset, -, hpresent, -, hview⟩ := exec_setTime hb hp hf
  obtain ⟨u, hu, hread⟩ := exec_readTime hset.busy hpresent
  have hraw : (readAll (t.begin (some 0x10))).work.raw = bytesOf s.regs.time :=
    readAll_of_writeAll (s := s.begin (some 0x11)) he hwf (by omega) hview.env
  have hvalid := hread.valid
  rw [hraw] at hvalid
  obtain ⟨hended, hregs⟩ := hvalid (bytesAreATime_bytesOf _ hf hv hlo hhi)
  refine ⟨t, u, ht, hset.status, hu, hended.status, ?_⟩
  rw [hregs]
  exact recordOf_bytesOf _ hf hlo hhi

end Sys2Proof.Machine
end

section
/-! SUPPORT. The halt bit while a `set_time` runs on the test device (42_timecodec.md R171; 20_memory.md R75): a started
operation at the moments between its steps, and the seconds cell along the stretches of `set_time`. -/

namespace Sys2Proof.Machine

/-! ### A started operation that runs through, moment by moment -/

/-- An idle block stays as it is. -/
theorem ticks_idle {s : State} (hs : s.seq = []) (k : Nat) : ticks k s = s := by
  induction k with
  | zero => rfl
  | succ k ih => rw [ticks, tick_nil hs, ih]

theorem ticks_return_add (s : State) (k : Nat) : ticks (2 + k) { s with seq := returnSteps } = s.finish := by
  rw [ticks_add, ticks_return, ticks_idle rfl]

/-- Neither of the two closing steps reaches a cell, and nothing comes after them. -/
theorem ticks_return_cell (s : State) (a k : Nat) : (ticks k { s with seq := returnSteps }).cell a = s.cell a := by
  obtain rfl | rfl | ⟨j, rfl⟩ : k = 0 ∨ k = 1 ∨ ∃ j, k = 2 + j := by
    obtain h | h := Nat.lt_or_ge k 2
    · omega
    · exact .inr (.inr (Nat.exists_eq_add_of_le h))
  · exact cell_of_env rfl a
  · exact cell_of_env rfl a
  · rw [ticks_return_add]
    exact cell_of_env rfl a

section
variable {c : Option Byte} {prog : List SeqStep} {s : State} (hb : s.busy = false)
  (hp : ∀ st ∈ prog, st.inner = true)
include hb hp

/-- After its first stretch the operation goes on with the rest. -/
theorem ticks_post_add {xs ys : List SeqStep} {u : State} (hprog : prog = xs ++ ys)
    (hr : runSteps xs (s.begin c) = .goOn u) (k : Nat) :
    ticks (xs.length + k) (post c prog s) = ticks k { u with seq := ys ++ returnSteps } := by
  have hx : ∀ st ∈ xs, st.inner = true := fun st hm => hp st (by rw [hprog]; exact List.mem_append_left ys hm)
  rw [post_idle hb, hprog, List.append_assoc, ticks_add, (ticks_goOn xs (ys ++ returnSteps) _ u hx hr).1]

theorem ticks_post_events {xs ys : List SeqStep} {u : State} (hprog : prog = xs ++ ys)
    (hr : runSteps xs (s.begin c) = .goOn u) : (ticks xs.length (post c prog s)).events = u.events := by
  rw [← Nat.add_zero xs.length, ticks_post_add hb hp hprog hr]
  rfl

/-- From its last step on the cells are what the operation has made of them. -/
theorem ticks_post_cell_end {t : State} (hr : runSteps prog (s.begin c) = .goOn t) {k : Nat} (hk : prog.length ≤ k)
    (a : Nat) : (ticks k (post c prog s)).cell a = t.cell a := by
  obtain ⟨j, rfl⟩ := Nat.exists_eq_add_of_le hk
  rw [ticks_post_add hb hp (List.append_nil prog).symm hr]
  exact ticks_return_cell t a j

/-- `BUSY` is up until the second of the two closing steps (R27). -/
theorem ticks_post_busy {t : State} (hr : runSteps prog (s.begin c) = .goOn t) (k : Nat) :
    (ticks k (post c prog s)).busy = decide (k < prog.length + 2) := by
  by_cases hk : k < prog.length + 2
  · rw [decide_eq_true hk]
    by_cases hk' : k ≤ prog.length
    · rw [post_idle hb]
      exact (ticks_goOn prog returnSteps (s.begin c) t hp hr).2 k hk'
    · obtain rfl : k = prog.length + 1 := by omega
      rw [ticks_post_add hb hp (List.append_nil prog).symm hr]
      have hbusy := (runSteps_frame prog (s.begin c) hp).busy
      rw [hr] at hbusy
      exact hbusy
  · obtain ⟨j, rfl⟩ := Nat.exists_eq_add_of_le (Nat.le_of_not_lt hk)
    rw [decide_eq_false hk, Nat.add_assoc, ticks_post_add hb hp (List.append_nil prog).symm hr]
    exact congrArg State.busy (ticks_return_add t j)

end

/-! ### A cell along a stretch -/

theorem Along.finish {Q : State → Prop} {xs : List SeqStep} {s t : State} (h : Along Q xs s)
    (hr : runSteps xs s = .goOn t) : Q t := by
  induction xs generalizing s with
  | nil => cases hr; exact h
  | cons st xs ih =>
    obtain ⟨-, h2⟩ := h
    rw [runSteps_cons] at hr
    cases hd : doStep st s with
    | goOn u => rw [hd] at hr h2; exact ih h2 hr
    | raised e u => rw [hd] at hr; cases hr

/-- A stretch of steps leads from `s` to `t`, and at every moment of it cell `a` has `P`. -/
structure KeepsCell (P : Byte → Prop) (a : Nat) (xs : List SeqStep) (s t : State) : Prop where
  run : runSteps xs s = .goOn t
  along : Along (fun u => P (u.cell a)) xs s

section
variable {P : Byte → Prop} {a : Nat} {s : State}

theorem KeepsCell.last {xs : List SeqStep} {t : State} (h : KeepsCell P a xs s t) : P (t.cell a) :=
  h.along.finish h.run

theorem KeepsCell.append {xs ys : List SeqStep} {t u : State} (h : KeepsCell P a xs s t) (k : KeepsCell P a ys t u) :
    KeepsCell P a (xs ++ ys) s u where
  run := by rw [runSteps_append, h.run, bind_goOn, k.run]
  along := h.along.append h.run k.along

/-- The block's own steps between two moments of a started operation. -/
theorem KeepsCell.ticks_post {c : Option Byte} {prog xs ys zs : List SeqStep} {u v : State} (hb : s.busy = false)
    (hp : ∀ st ∈ prog, st.inner = true) (hprog : prog = xs ++ (ys ++ zs)) (hr : runSteps xs (s.begin c) = .goOn u)
    (h : KeepsCell P a ys u v) {k : Nat} (hlo : xs.length ≤ k) (hhi : k ≤ xs.length + ys.length) :
    P ((ticks k (post c prog s)).cell a) := by
  obtain ⟨j, rfl⟩ := Nat.exists_eq_add_of_le hlo
  have hy : ∀ st ∈ ys, st.inner = true := fun st hm => hp st (by simp [hprog, hm])
  rw [ticks_post_add hb hp hprog hr, List.append_assoc]
  exact Along.ticks (fun _ _ => id) hy h.run h.along j (by omega)

theorem keepsCell_readReg {dev : EchoDevice} (r : ChipReg) (l : Local) (he : s.env = .echo dev) (h : P (s.cell a)) :
    KeepsCell P a (readRegSteps r l) s (s.readInto r l) :=
  ⟨run_readReg r l s, along_readbyte _ l s he h⟩

/-- Along a register write a cell has its old byte or its new one. -/
theorem keepsCell_writeReg {dev : EchoDevice} (r : ChipReg) {src : ByteSrc} (hsrc : src ≠ .cmd)
    (he : s.env = .echo dev) (h : P (s.cell a)) (k : P ((s.writeReg r (src.value s.work)).cell a)) :
    KeepsCell P a (writeRegSteps r src) s (s.writeReg r (src.value s.work)) :=
  ⟨run_writeReg r src s hsrc, along_writebyte _ src hsrc s he h k⟩

/-- A register write keeps every other cell. -/
theorem keepsCell_writeOther {dev : EchoDevice} (r : ChipReg) (v : Byte) (he : s.env = .echo dev)
    (ha : a ≠ r.address.toNat) (h : P (s.cell a)) :
    KeepsCell P a (writeRegSteps r (.lit v)) s (s.writeReg r v) :=
  keepsCell_writeReg r (src := .lit v) (by simp) he h (by rw [writeReg_cell _ _ _ ha]; exact h)

end

/-! ### The stretches of `set_time` (R170) -/

/-- The checks, the read of the seconds and the halt write: up to the end of transaction 2. -/
def haltSteps (c : CalendarTime) : List SeqStep :=
  [.gate] ++ ([.checkDomain (bcdOperands c)] ++
    (readRegSteps .seconds .secBack ++ writeRegSteps .seconds .halt))

/-- The six field writes after that of the seconds. -/
def otherFieldSteps (c : CalendarTime) : List SeqStep :=
  writeRegSteps .minutes (.lit (encodeBcd c.min.toNat)) ++ writeRegSteps .hours (.lit (encodeBcd c.hour.toNat)) ++
    writeRegSteps .day (.lit (encodeBcd c.wday.toNat)) ++ writeRegSteps .date (.lit (encodeBcd c.mday.toNat)) ++
    writeRegSteps .month (.lit (encodeBcd (c.mon.toNat + 1))) ++
    writeRegSteps .year (.lit (encodeBcd (c.year.toNat % 100)))

def otherFields (c : CalendarTime) (s : State) : State :=
  (((((s.writeReg .minutes (encodeBcd c.min.toNat)).writeReg .hours (encodeBcd c.hour.toNat)).writeReg .day
    (encodeBcd c.wday.toNat)).writeReg .date (encodeBcd c.mday.toNat)).writeReg .month
    (encodeBcd (c.mon.toNat + 1))).writeReg .year (encodeBcd (c.year.toNat % 100))

/-- What comes after transaction 3: the other fields, the second read of the seconds and the resume write. -/
def laterSteps (c : CalendarTime) : List SeqStep :=
  otherFieldSteps c ++ (readRegSteps .seconds .secBack ++ writeRegSteps .seconds .resume)

theorem writeAll_eq (c : CalendarTime) (s : State) : writeAll c s =
    resumeClock (otherFields c ((haltClock s).writeReg .seconds (encodeBcd c.sec.toNat))) := rfl

/-- Up to the end of transaction 3, the seconds field write. -/
def secondsSteps (c : CalendarTime) : List SeqStep :=
  haltSteps c ++ writeRegSteps .seconds (.lit (encodeBcd c.sec.toNat))

theorem setTimeProgram_eq_seconds (c : CalendarTime) : setTimeProgram c = secondsSteps c ++ laterSteps c := by
  rw [setTimeProgram_eq]
  simp only [secondsSteps, haltSteps, fieldSteps, laterSteps, otherFieldSteps, List.append_assoc]

theorem run_haltSteps {c : CalendarTime} {s : State} (hp : s.present = .ok) (hf : FieldsAreEncodable c) :
    runSteps (haltSteps c) s = .goOn (haltClock s) := by
  rw [haltSteps, gate_open hp, List.singleton_append, runSteps_cons, doStep, if_pos ((fields_iff c).mpr hf), bind_goOn,
    run_halt]

theorem run_secondsSteps {c : CalendarTime} {s : State} (hp : s.present = .ok) (hf : FieldsAreEncodable c) :
    runSteps (secondsSteps c) s = .goOn ((haltClock s).writeReg .seconds (encodeBcd c.sec.toNat)) := by
  rw [secondsSteps, runSteps_append, run_haltSteps hp hf, bind_goOn, run_writeLit]

theorem haltClock_events (s : State) : (haltClock s).events = s.events ++
    readTrace s.params 0x81 (s.byteRead .seconds) ++ writeTrace s.params 0x80 (s.byteRead .seconds ||| 0x80#8) := by
  rw [haltClock, writeReg_events, readInto_events, readInto_params]
  rfl

theorem writeReg_cell_same {s : State} {dev : EchoDevice} (r : ChipReg) (v : Byte) (he : s.env = .echo dev)
    (hwf : dev.mem.wf) : (s.writeReg r v).cell r.address.toNat = v := by
  rw [cell_echo (writeReg_echo r v s he), Memory.read_write _ _ _ hwf, if_pos rfl]

/-- The halt write leaves the seconds byte read, with bit 7 set, in the seconds cell. -/
theorem haltClock_echo {s : State} {dev : EchoDevice} (he : s.env = .echo dev) (hwf : dev.mem.wf) :
    (∃ dev', (haltClock s).env = .echo dev' ∧ dev'.mem.wf) ∧ s.byteRead .seconds = s.cell 0 ∧
      (haltClock s).cell 0 = s.cell 0 ||| 0x80#8 := by
  obtain ⟨h1, hbyte⟩ := readInto_echo .seconds .secBack s he
  have hcell : s.byteRead .seconds = s.cell 0 := hbyte.trans (cell_echo he 0).symm
  refine ⟨⟨_, writeReg_echo .seconds _ _ h1, Memory.write_wf _ hwf (by decide)⟩, hcell, ?_⟩
  rw [← hcell]
  exact writeReg_cell_same .seconds _ h1 hwf

section
variable {P : Byte → Prop} {s : State} {dev : EchoDevice} (c : CalendarTime) (he : s.env = .echo dev)
include he

theorem otherFields_echo : ∃ dev', (otherFields c s).env = .echo dev' :=
  ⟨_, writeReg_echo .year _ _ (writeReg_echo .month _ _ (writeReg_echo .date _ _ (writeReg_echo .day _ _
    (writeReg_echo .hours _ _ (writeReg_echo .minutes _ _ he)))))⟩

/-- None of the six other field writes reaches the seconds cell. -/
theorem keepsCell_otherFields (h : P (s.cell 0)) : KeepsCell P 0 (otherFieldSteps c) s (otherFields c s) := by
  have e1 := writeReg_echo .minutes (encodeBcd c.min.toNat) s he
  have e2 := writeReg_echo .hours (encodeBcd c.hour.toNat) _ e1
  have e3 := writeReg_echo .day (encodeBcd c.wday.toNat) _ e2
  have e4 := writeReg_echo .date (encodeBcd c.mday.toNat) _ e3
  have e5 := writeReg_echo .month (encodeBcd (c.mon.toNat + 1)) _ e4
  have k1 := keepsCell_writeOther .minutes (encodeBcd c.min.toNat) he (by decide) h
  have k2 := keepsCell_writeOther .hours (encodeBcd c.hour.toNat) e1 (by decide) k1.last
  have k3 := keepsCell_writeOther .day (encodeBcd c.wday.toNat) e2 (by decide) k2.last
  have k4 := keepsCell_writeOther .date (encodeBcd c.mday.toNat) e3 (by decide) k3.last
  have k5 := keepsCell_writeOther .month (encodeBcd (c.mon.toNat + 1)) e4 (by decide) k4.last
  have k6 := keepsCell_writeOther .year (encodeBcd (c.year.toNat % 100)) e5 (by decide) k5.last
  exact ((((k1.append k2).append k3).append k4).append k5).append k6

theorem keepsCell_resume (h : P (s.cell 0)) (k : P ((resumeClock s).cell 0)) :
    KeepsCell P 0 (readRegSteps .seconds .secBack ++ writeRegSteps .seconds .resume) s (resumeClock s) := by
  have hread := keepsCell_readReg .seconds .secBack he h
  exact hread.append (keepsCell_writeReg .seconds (by simp) (readInto_echo .seconds .secBack s he).1 hread.last k)

/-- After transaction 3 the seconds cell changes once more, to what the resume write leaves. -/
theorem keepsCell_later (h : P (s.cell 0)) (k : P ((resumeClock (otherFields c s)).cell 0)) :
    KeepsCell P 0 (laterSteps c) s (resumeClock (otherFields c s)) := by
  obtain ⟨dev', he'⟩ := otherFields_echo c he
  have hfields := keepsCell_otherFields c he h
  exact hfields.append (keepsCell_resume he' hfields.last k)

end

/-! ### The halt bit (R171) -/

/-- The seconds field write up to its sixteenth rising edge, which is still to come. -/
def secondsHead (c : CalendarTime) : List SeqStep :=
  writeHead (addressOperand ChipReg.seconds.address) (.lit (encodeBcd c.sec.toNat))

/-- `set_time` up to the moment at which the seconds cell is written. -/
def edgeSteps (c : CalendarTime) : List SeqStep := haltSteps c ++ (secondsHead c ++ [.lineWrite .clk true])

theorem secondsSteps_eq_edge (c : CalendarTime) : secondsSteps c = edgeSteps c ++ writeTail := by
  rw [secondsSteps, writeRegSteps, writebyteSteps_split]
  simp only [edgeSteps, secondsHead, List.append_assoc, List.cons_append, List.nil_append]

theorem setTimeProgram_eq_edge (c : CalendarTime) : setTimeProgram c = edgeSteps c ++ (writeTail ++ laterSteps c) := by
  rw [setTimeProgram_eq_seconds, secondsSteps_eq_edge, List.append_assoc]

theorem setTimeProgram_eq_halt (c : CalendarTime) : setTimeProgram c =
    haltSteps c ++ (secondsHead c ++ ([.lineWrite .clk true] ++ (writeTail ++ laterSteps c))) := by
  rw [setTimeProgram_eq_edge, edgeSteps, List.append_assoc, List.append_assoc]

theorem edgeSteps_length (c : CalendarTime) :
    (edgeSteps c).length = (haltSteps c).length + (secondsHead c).length + 1 := by
  rw [edgeSteps, List.length_append, List.length_append, List.length_singleton, Nat.add_assoc]

theorem secondsSteps_length (c : CalendarTime) :
    (secondsSteps c).length = (edgeSteps c).length + writeTail.length := by
  rw [secondsSteps_eq_edge, List.length_append]

theorem setTimeProgram_length (c : CalendarTime) :
    (setTimeProgram c).length = (secondsSteps c).length + (laterSteps c).length := by
  rw [setTimeProgram_eq_seconds, List.length_append]

/-- The resume write clears the bit whatever the seconds are. -/
theorem writeAll_haltBit {c : CalendarTime} {s : State} {dev : EchoDevice} (he : s.env = .echo dev)
    (hwf : dev.mem.wf) : ((writeAll c s).cell 0).getLsbD 7 = false := by
  obtain ⟨-, -, dev', henv, -, hread⟩ := writeAll_echo c s he hwf
  rw [cell_echo henv, hread, if_pos rfl, BitVec.getLsbD_and]
  exact Bool.and_false _

/-- Bit 7 of the seconds cell from the halt write on: set at every moment up to the sixteenth rising edge of the seconds
field write, and with `T_SEC <= 79` clear at every moment from that edge, where 84 of the write's entries have been
issued. -/
theorem haltBit_stretches {c : CalendarTime} {s : State} {dev : EchoDevice} (he : s.env = .echo dev)
    (hwf : dev.mem.wf) : ∃ u w,
      KeepsCell (fun b => b.getLsbD 7 = true) 0 (secondsHead c) (haltClock s) u ∧
      runSteps [.lineWrite .clk true] u = .goOn w ∧
      w.events = (haltClock s).events ++ (writeTrace s.params 0x80 (encodeBcd c.sec.toNat)).take 84 ∧
      KeepsCell (fun b => c.sec.toNat ≤ 79 → b.getLsbD 7 = false) 0 (writeTail ++ laterSteps c) w (writeAll c s) := by
  obtain ⟨⟨dev', he', hwf'⟩, -, hcell⟩ := haltClock_echo he hwf
  have hset : ((haltClock s).cell 0).getLsbD 7 = true := by
    rw [hcell, BitVec.getLsbD_or]
    exact Bool.or_true _
  have hnew : ((haltClock s).writeReg .seconds (encodeBcd c.sec.toNat)).cell 0 = encodeBcd c.sec.toNat :=
    writeReg_cell_same .seconds _ he' hwf'
  have hclear : c.sec.toNat ≤ 79 →
      (((haltClock s).writeReg .seconds (encodeBcd c.sec.toNat)).cell 0).getLsbD 7 = false := fun h => by
    rw [hnew]
    exact encodeBcd_bit7 _ h
  obtain ⟨halong, u, w, hu, hw, htail, hrun⟩ :=
    along_writeSplit (P := fun b => b.getLsbD 7 = true) (Q := fun b => c.sec.toNat ≤ 79 → b.getLsbD 7 = false)
      (addressOperand ChipReg.seconds.address) (encodeBcd c.sec.toNat) (haltClock s) he' hset hclear
  have hevents := writeSplit_events hrun
  rw [(linesOnly_halt s).params] at hevents
  exact ⟨u, w, ⟨hu, halong⟩, congrArg (Progress.bind · _) hw, hevents, KeepsCell.append ⟨hrun, htail⟩
    (keepsCell_later c (writeReg_echo .seconds _ _ he') hclear fun _ => writeAll_haltBit he hwf)⟩

/-- Settles O31: `n1`, `m` and `n2` are the ends of the first stretches of the program, and `n3` is two steps after its
end. -/
theorem haltBitIsSetThenClearDuringSetTime : Obligations.HaltBitIsSetThenClearDuringSetTime := by
  unfold Obligations.HaltBitIsSetThenClearDuringSetTime
  intro s dev hb hp he hwf hf
  have hpost : postOp 0x11 s = post (some 0x11) (setTimeProgram s.regs.time) s := rfl
  have hinner : ∀ st ∈ setTimeProgram s.regs.time, st.inner = true := program_inner .setTime s
  rw [hpost]
  generalize s.regs.time = c at *
  obtain ⟨-, hbyte, -⟩ := haltClock_echo (s := s.begin (some 0x11)) he hwf
  obtain ⟨u, w, hset, hstep, hw, hclear⟩ := haltBit_stretches (c := c) (s := s.begin (some 0x11)) he hwf
  have hend := writeAll_haltBit (c := c) (s := s.begin (some 0x11)) he hwf
  have hhalt := run_haltSteps (s := s.begin (some 0x11)) hp hf
  have hedge : runSteps (edgeSteps c) (s.begin (some 0x11)) = .goOn w := by
    rw [edgeSteps, runSteps_append, hhalt, bind_goOn, runSteps_append, hset.run, bind_goOn, hstep]
  have hseconds := run_secondsSteps (s := s.begin (some 0x11)) hp hf
  have hrun := run_setTime c (s.begin (some 0x11)) hp hf
  have hbusy := ticks_post_busy hb hinner hrun
  have hdone := fun k hk => ticks_post_cell_end hb hinner hrun (k := k) hk 0
  have hlen1 := edgeSteps_length c
  have hlen2 := secondsSteps_length c
  have hlen3 := setTimeProgram_length c
  have hevents := ticks_post_events hb hinner (setTimeProgram_eq_halt c) hhalt
  refine ⟨(haltSteps c).length, (edgeSteps c).length, (secondsSteps c).length, (setTimeProgram c).length + 2, by omega,
    by omega, by omega, ?_, ?_, ?_, fun k hk => ?_, fun k hk => ?_, fun k hlo hhi => ?_, fun hsec k hk => ?_,
    fun k hk => ?_⟩
  · rw [hevents, haltClock_events, hbyte]
    rfl
  · rw [hevents, ticks_post_events hb hinner (setTimeProgram_eq_seconds c) hseconds, writeReg_events,
      (linesOnly_halt _).params]
    rfl
  · rw [hevents, ticks_post_events hb hinner (setTimeProgram_eq_edge c) hedge, hw]
    rfl
  · rw [hbusy, decide_eq_true hk]
  · rw [hbusy, decide_eq_false (Nat.not_lt_of_le hk)]
  · exact hset.ticks_post hb hinner (setTimeProgram_eq_halt c) hhalt hlo (by omega)
  · by_cases hk' : k ≤ (setTimeProgram c).length
    · exact hclear.ticks_post (zs := []) hb hinner (by rw [List.append_nil, setTimeProgram_eq_edge]) hedge hk
        (by rw [List.length_append]; omega) hsec
    · rw [hdone k (by omega)]
      exact hend
  · rw [hdone k (by omega)]
    exact hend

end Sys2Proof.Machine
end

section
/-! SUPPORT. TrickleChargeControl and the self-test at the host port (43_tricklecharge_selftest.md R191 to R195, R199,
R201): the services behind the gate are one transaction of the trickle-charge register each, or are refused before the
first line event. -/

namespace Sys2Proof.Machine

/-! ### The strength encoding (R193) -/

theorem encodeStrength_toNat (selector : Byte) :
    (encodeStrength selector).toNat = (0xA0 ||| (selector.toNat * 0x0F)) % 256 := BitVec.toNat_ofNat ..

/-- Whatever the selector, the bits of the pattern `0xA0` are set. -/
theorem encodeStrength_getLsbD {i : Nat} (hi : i < 8) (h : Nat.testBit 0xA0 i = true) (selector : Byte) :
    (encodeStrength selector).getLsbD i = true := by
  rw [encodeStrength, BitVec.getLsbD_ofNat, Nat.testBit_or, h, decide_eq_true hi]
  rfl

/-- Settles O32: the byte is the definition's, the pattern has bits 7 and 5, and the table is computed. -/
theorem strengthEncodingIsTheFormula : Obligations.StrengthEncodingIsTheFormula := by
  unfold Obligations.StrengthEncodingIsTheFormula
  exact ⟨fun s => ⟨encodeStrength_toNat s, encodeStrength_getLsbD (by omega) (by decide) s,
    encodeStrength_getLsbD (by omega) (by decide) s⟩, by decide⟩

/-! ### The gate open: one transaction (R191, R192, R194, R195) -/

/-- `tc_get` is one read transaction of the trickle-charge register. -/
theorem exec_tcGet {s : State} (hb : s.busy = false) (hp : s.present = .ok) :
    ∃ t, exec .tcGet s = .next t ∧ ReadTx (some 0x18#8) (addressOperand ChipReg.trickle.address) s t := by
  obtain ⟨t, ht, hread⟩ := readTx_op (some 0x18#8) (addressOperand ChipReg.trickle.address) s hb
  exact ⟨t, by rw [gated_read s hb hp, ht], hread⟩

/-- Settles O33: what a read transaction leaves, at the address of the trickle-charge register. -/
theorem tcGetReadsTheTrickleRegister : Obligations.TcGetReadsTheTrickleRegister := by
  unfold Obligations.TcGetReadsTheTrickleRegister
  intro s hb hp
  obtain ⟨t, ht, h⟩ := exec_tcGet hb hp
  exact ⟨t, ht, h.ended, h.ev, h.ln, h.rg, h.pr.trans hp, h.fr, fun dev he => (h.ec dev he).2, h.cl⟩

theorem run_tcSet {s : State} (hp : s.present = .ok) (v : Byte) :
    runSteps (tcSetProgram v) s = .goOn (s.writeReg .trickle v) :=
  (gate_open hp _).trans (run_writeLit .trickle v s)

theorem run_tcStrength {s : State} (hp : s.present = .ok) (selector : Byte) :
    runSteps (tcStrengthProgram selector) s = .goOn (s.writeReg .trickle (encodeStrength selector)) :=
  (gate_open hp _).trans (run_writeLit .trickle _ s)

/-- Behind the gate comes the check of the request code (R195). -/
theorem run_ctrl_open {s : State} (hp : s.present = .ok) (code : Half) (arg : Byte) :
    runSteps (ctrlProgram code arg) s = (doStep (.checkRequest code) s).bind (runSteps (tcStrengthProgram arg)) :=
  gate_open hp (.checkRequest code :: tcStrengthProgram arg)

/-- The gate is passed twice (R195). -/
theorem run_ctrl {code : Half} {s : State} (hp : s.present = .ok) (hc : code = Config.ctrlTcStrength)
    (selector : Byte) :
    runSteps (ctrlProgram code selector) s = .goOn (s.writeReg .trickle (encodeStrength selector)) := by
  rw [run_ctrl_open hp, doStep, if_pos hc, bind_goOn, run_tcStrength hp]

/-- A service whose steps come to one write of the trickle-charge register: all it leaves (R147). -/
theorem exec_trickleWrite {i : Instr} {v : Byte} {s : State} (hb : s.busy = false)
    (hr : runSteps (program i s) (s.begin (startCode i)) = .goOn ((s.begin (startCode i)).writeReg .trickle v)) :
    ∃ t, exec i s = .next t ∧ WriteTx (startCode i) (addressOperand ChipReg.trickle.address) v s t := by
  obtain ⟨t, ht, hwrite⟩ := writeTx_op (startCode i) (addressOperand ChipReg.trickle.address) v s hb
  have hop := (operate_goOn hb (run_writeLit .trickle v _)).symm.trans ht
  exact ⟨t, by rw [exec_goOn hb hr, hop], hwrite⟩

theorem exec_tcSet {s : State} (hb : s.busy = false) (hp : s.present = .ok) : ∃ t, exec .tcSet s = .next t ∧
    WriteTx (some 0x19#8) (addressOperand ChipReg.trickle.address) s.regs.v s t :=
  exec_trickleWrite (i := .tcSet) hb (run_tcSet (s := s.begin (some 0x19#8)) hp s.regs.v)

/-- Settles O34: each of the three is one write transaction of the trickle-charge register. -/
theorem trickleWritesAreOneWriteTransaction : Obligations.TrickleWritesAreOneWriteTransaction := by
  unfold Obligations.TrickleWritesAreOneWriteTransaction
  intro s i code data hb hp hi
  obtain ⟨hcode, hr⟩ : startCode i = some code ∧
      runSteps (program i s) (s.begin (startCode i)) = .goOn ((s.begin (startCode i)).writeReg .trickle data) := by
    obtain ⟨rfl, rfl, rfl⟩ | ⟨rfl, rfl, rfl⟩ | ⟨rfl, rfl, rfl, hreq⟩ := hi
    · exact ⟨rfl, run_tcSet (s := s.begin (some 0x19#8)) hp _⟩
    · exact ⟨rfl, run_tcStrength (s := s.begin (some 0x1A#8)) hp _⟩
    · exact ⟨rfl, run_ctrl (s := s.begin (some 0x1B#8)) hp hreq _⟩
  obtain ⟨t, ht, h⟩ := exec_trickleWrite hb hr
  rw [hcode] at h
  exact ⟨t, ht, h.ended, h.ev, h.ln, h.rg, h.pr.trans hp, h.na, h.cl, fun dev he hwf => h.cell he hwf⟩

/-! ### Refused before the first line event (R201, R216, R222) -/

/-- An operation whose program raises ends with that status (R211). -/
theorem exec_raised {i : Instr} {e : Status} {s t : State} (hb : s.busy = false)
    (hr : runSteps (program i s) (s.begin (startCode i)) = .raised e t) : exec i s = .next (t.raise e) := by
  rw [exec_eq_operate, operate_raised hb hr]

theorem run_ctrl_unrecognised {code : Half} {arg : Byte} {s : State} (hp : s.present = .ok)
    (hc : code ≠ Config.ctrlTcStrength) :
    runSteps (ctrlProgram code arg) s = .raised .unsupportedControlRequest s.opAsBefore := by
  rw [run_ctrl_open hp, doStep, if_neg hc, bind_raised]

/-- Settles O35: the check of the request code is the first step behind the gate, and it raises. -/
theorem unrecognisedRequestIsReportedAndHarmless : Obligations.UnrecognisedRequestIsReportedAndHarmless := by
  unfold Obligations.UnrecognisedRequestIsReportedAndHarmless
  intro s hb hp hc
  obtain ⟨t, ht, hended, huntouched, hregs, hpresent⟩ :=
    exec_refused_early (i := .ctrl) hb (run_ctrl_unrecognised hp hc)
  exact ⟨t, ht, hended, huntouched, hregs, hpresent.trans hp⟩

/-- The six services behind the gate (R201). -/
def gatedServices : List Instr := [.readTime, .setTime, .tcGet, .tcSet, .tcStrength, .ctrl]

/-- The gate is the first step of each. -/
theorem program_gated {i : Instr} (hi : i ∈ gatedServices) (s : State) : ∃ rest, program i s = [.gate] ++ rest := by
  simp only [gatedServices, List.mem_cons, List.not_mem_nil, or_false] at hi
  obtain rfl | rfl | rfl | rfl | rfl | rfl := hi <;> exact ⟨_, rfl⟩

theorem exec_gateShut {i : Instr} {s : State} (hi : i ∈ gatedServices) (hb : s.busy = false) (hp : s.present ≠ .ok) :
    ∃ t, exec i s = .next t ∧ Ended .deviceNotPresent s t ∧ Untouched s t ∧
      t.regs = { s.regs with status := 2 } ∧ t.present = s.present := by
  obtain ⟨rest, hprog⟩ := program_gated hi s
  exact exec_refused_early hb (by rw [hprog]; exact gate_shut (s := s.begin _) hp rest)

/-- Settles O36: the first step of each service is the gate, and it raises. -/
theorem shutGateRefusesTheSixServices : Obligations.ShutGateRefusesTheSixServices := by
  unfold Obligations.ShutGateRefusesTheSixServices
  exact fun s i hb hp hi => exec_gateShut hi hb hp

/-! ### The self-test (R199) -/

/-- The self-test up to its compare: bus reset, the write of the sentinel to the scratch register and the read of it. -/
def State.probed (s : State) : State := (s.busReset.writeReg .ram0 0x42#8).readInto .ram0 .got

theorem linesOnly_probed (s : State) : LinesOnly s s.probed :=
  ((linesOnly_busReset s).trans (linesOnly_writeReg _ _ _)).trans (linesOnly_readInto _ _ _)

theorem probed_events (s : State) : s.probed.events =
    s.events ++ busResetTrace ++ writeTrace s.params 0xC0 0x42 ++ readTrace s.params 0xC1 s.probed.work.got := by
  rw [State.probed, readInto_events, writeReg_events, writeReg_params, busReset_events, (linesOnly_busReset s).params,
    readInto_got]
  rfl

theorem probed_lines (s : State) : s.probed.lines =
    { s.lines with outRst := false, outClk := false, dirDat := .input, outDat := true } := by
  rw [State.probed, readInto_lines, writeReg_lines]
  rfl

theorem probed_free {s : State} {b : Byte} {rest : List Bool} (h : s.env = .free (bitsOf b ++ rest)) :
    s.probed.work.got = b ∧ s.probed.env = .free rest ∧ s.probed.draws = s.draws := by
  have hwrite := writeReg_free .ram0 0x42#8 _ ((busReset_noAnswer s).2 _ h)
  obtain ⟨henv, hdraws, hbyte⟩ := readInto_free .ram0 .got b rest _ hwrite
  exact ⟨hbyte, henv, hdraws.trans (writeReg_draws _ _ _)⟩

theorem probed_cell (s : State) {a : Nat} (ha : a ≠ 0x20) : s.probed.cell a = s.cell a := by
  rw [State.probed, readInto_cell, writeReg_cell _ _ _ ha, busReset_cell]

theorem busReset_echo {s : State} {dev : EchoDevice} (h : s.env = .echo dev) : s.busReset.env = .echo dev := by
  simp [State.busReset, h, Env.onWrite]

/-- On the device the sentinel stays in the scratch cell and is read back from it (R75). -/
theorem probed_echo {s : State} {dev : EchoDevice} (h : s.env = .echo dev) (hwf : dev.mem.wf) :
    s.probed.work.got = 0x42#8 ∧ s.probed.cell 0x20 = 0x42#8 := by
  have hreset := busReset_echo h
  have hcell : (s.busReset.writeReg .ram0 0x42#8).cell 0x20 = 0x42#8 := writeReg_cell_same .ram0 0x42#8 hreset hwf
  have hwrite := writeReg_echo .ram0 0x42#8 _ hreset
  refine ⟨?_, by rw [State.probed, readInto_cell, hcell]⟩
  rw [State.probed, readInto_got, (readInto_echo .ram0 .got _ hwrite).2, ← cell_echo hwrite]
  exact hcell

theorem run_selftest (s : State) : runSteps selftestProgram s = runSteps [.compareSentinel] s.probed := by
  rw [selftestProgram, runSteps_append, runSteps_append, runSteps_append, run_busReset, bind_goOn, run_writeLit,
    bind_goOn, run_readReg, bind_goOn, State.probed]

theorem run_compareSentinel_match {s : State} (h : s.work.got = 0x42#8) :
    runSteps [.compareSentinel] s = .goOn (s.setPresent .ok) := by
  rw [runSteps_cons, doStep, if_pos h, bind_goOn, runSteps_nil]

theorem run_compareSentinel_mismatch {s : State} (h : s.work.got ≠ 0x42#8) :
    runSteps [.compareSentinel] s = .raised .deviceNotPresent (s.setPresent .absent) := by
  rw [runSteps_cons, doStep, if_neg h, bind_raised]

/-- `selftest` ends in `t` when its two transactions end in `u`: on the bus nothing more is done, and the byte read
decides `PRESENT` and `STATUS`. -/
structure SelftestEnds (s u t : State) : Prop where
  view : SameView t u
  events : t.events = u.events
  matched : u.work.got = 0x42#8 → Ended .ok s t ∧ t.present = .ok ∧ t.regs = { s.regs with op := 0x1F, status := 0 }
  mismatched : u.work.got ≠ 0x42#8 →
    Ended .deviceNotPresent s t ∧ t.present = .absent ∧ t.regs = { s.regs with op := 0x1F, status := 2 }

/-- The verdict of the compare is written to `PRESENT`, and the operation ends with the status that goes with it. -/
theorem LinesOnly.verdict {s u : State} (L : LinesOnly (s.begin (some 0x1F#8)) u) (p : Present) (e : Status) :
    Ended e s ((u.setPresent p).raise e) ∧ ((u.setPresent p).raise e).present = p ∧
      ((u.setPresent p).raise e).regs = { s.regs with op := 0x1F, status := e.code } :=
  ⟨Ended.of (c := some 0x1F#8) e L.raised L.answer L.text L.inputs L.dirRst L.dirClk L.params, rfl,
    by rw [raise_regs, setPresent_regs, L.regs]; rfl⟩

theorem exec_selftest {s : State} (hb : s.busy = false) :
    ∃ t, exec .selftest s = .next t ∧ SelftestEnds s (s.begin (some 0x1F#8)).probed t := by
  have L := linesOnly_probed (s.begin (some 0x1F#8))
  have hrun : runSteps (program .selftest s) (s.begin (startCode .selftest)) =
      runSteps [.compareSentinel] (s.begin (some 0x1F#8)).probed := run_selftest _
  generalize (s.begin (some 0x1F#8)).probed = u at *
  by_cases h : u.work.got = 0x42#8
  · rw [run_compareSentinel_match h] at hrun
    exact ⟨_, exec_goOn hb hrun, ⟨rfl, rfl, rfl⟩, rfl, fun _ => L.verdict .ok .ok, fun hne => absurd h hne⟩
  · rw [run_compareSentinel_mismatch h] at hrun
    exact ⟨_, exec_raised hb hrun, ⟨rfl, rfl, rfl⟩, rfl, fun heq => absurd heq h,
      fun _ => L.verdict .absent .deviceNotPresent⟩

/-- Settles O37: what the two transactions leave on the bus, receive and do to the cells is said of them; the compare
decides the rest. -/
theorem selftestWritesTheSentinelAndCompares : Obligations.SelftestWritesTheSentinelAndCompares := by
  unfold Obligations.SelftestWritesTheSentinelAndCompares
  intro s hb
  obtain ⟨t, ht, ⟨hlines, henv, hdraws⟩, hevents, hmatched, hmismatched⟩ := exec_selftest hb
  refine ⟨t, _, ht, hevents.trans (probed_events _), hlines.trans (probed_lines _), hmatched, hmismatched,
    fun x rest he => ?_, fun dev he hwf => ?_, fun a ha => ?_⟩
  · rw [henv, hdraws]
    exact probed_free (s := s.begin (some 0x1F#8)) he
  · rw [cell_of_env henv]
    exact probed_echo (s := s.begin (some 0x1F#8)) he hwf
  · rw [cell_of_env henv, probed_cell _ ha, begin_cell]

end Sys2Proof.Machine
end

section
/-! SUPPORT. The two wrapper functions of R105 and their texts (43_tricklecharge_selftest.md R196 to R198;
30_encoding.md R106): what `parse_hex_or_zero` gives, and `tc_store` and `tc_show` at the host port. -/

namespace Sys2Proof.Machine

/-! ### `parse_hex_or_zero` (R198) -/

/-- A text parses to the number left when it is stripped, or to zero. -/
theorem parseHexOrZero_eq (text : List Byte) : parseHexOrZero text =
    ((hexNumber? 0 (stripHexMark (stripBlanks text))).map (BitVec.ofNat 8)).getD 0 := by
  unfold parseHexOrZero
  split
  next h => rw [h]; rfl
  next =>
    split
    next h => rw [h]; rfl
    next h => rw [h]; rfl

theorem hexNumber?_cons {ch : Byte} {x : Nat} (h : hexValue? ch = some x) (acc : Nat) (rest : List Byte) :
    hexNumber? acc (ch :: rest) = hexNumber? (acc * 16 + x) rest := by
  rw [hexNumber?, h]

/-- One character that is no digit spoils the number (R198). -/
theorem hexNumber?_eq_none {text : List Byte} {ch : Byte} (hm : ch ∈ text) (hch : hexValue? ch = none) (acc : Nat) :
    hexNumber? acc text = none := by
  induction text generalizing acc with
  | nil => cases hm
  | cons c rest ih =>
    cases hc : hexValue? c with
    | none => rw [hexNumber?, hc]
    | some x =>
      rw [hexNumber?_cons hc]
      obtain rfl | hm := List.mem_cons.mp hm
      · rw [hch] at hc; cases hc
      · exact ih hm _

/-- What does not parse is taken as zero (R197, R217). -/
theorem parseHexOrZero_malformed {text : List Byte}
    (h : stripHexMark (stripBlanks text) = [] ∨ ∃ ch ∈ stripHexMark (stripBlanks text), hexValue? ch = none) :
    parseHexOrZero text = 0 := by
  rw [parseHexOrZero_eq]
  obtain h | ⟨ch, hm, hch⟩ := h
  · rw [h]; rfl
  · rw [hexNumber?_eq_none hm hch]; rfl

/-! ### White space -/

/-- Blanks in front of a text that has none are dropped. -/
theorem dropWhile_isBlank {pre mid : List Byte} (hpre : ∀ ch ∈ pre, isBlank ch = true) (hne : mid ≠ [])
    (hmid : ∀ ch ∈ mid, isBlank ch = false) (rest : List Byte) :
    (pre ++ (mid ++ rest)).dropWhile isBlank = mid ++ rest := by
  rw [List.dropWhile_append_of_pos hpre]
  cases mid with
  | nil => exact absurd rfl hne
  | cons c cs => rw [List.cons_append, List.dropWhile_cons_of_neg (by simp [hmid c])]

theorem stripBlanks_eq {pre mid post : List Byte} (hpre : ∀ ch ∈ pre, isBlank ch = true) (hne : mid ≠ [])
    (hmid : ∀ ch ∈ mid, isBlank ch = false) (hpost : ∀ ch ∈ post, isBlank ch = true) :
    stripBlanks (pre ++ mid ++ post) = mid := by
  have hback : (post.reverse ++ (mid.reverse ++ [])).dropWhile isBlank = mid.reverse ++ [] :=
    dropWhile_isBlank (by simpa using hpost) (by simpa using hne) (by simpa using hmid) []
  rw [List.append_nil] at hback
  rw [stripBlanks, List.append_assoc, dropWhile_isBlank hpre hne hmid, List.reverse_append, hback, List.reverse_reverse]

/-! ### The hexadecimal text of a byte (R106) -/

theorem hexValue?_hexDigit : ∀ n < 16, hexValue? (hexDigit n) = some n := by decide

theorem isBlank_hexDigit : ∀ n < 16, isBlank (hexDigit n) = false := by decide

/-- No digit is the `x` of a hexadecimal mark. -/
theorem hexDigit_ne_mark : ∀ n < 16, (hexDigit n == 0x78#8 || hexDigit n == 0x58#8) = false := by decide

/-- The text is the one digit of a byte below 16, or the two of another. -/
theorem hexText_cases (b : Byte) : (b.toNat < 16 ∧ hexText b = [hexDigit b.toNat]) ∨
    hexText b = [hexDigit (b.toNat / 16), hexDigit (b.toNat % 16)] := by
  unfold hexText
  split
  next h => exact .inl ⟨h, rfl⟩
  next => exact .inr rfl

theorem digits_lt (b : Byte) : b.toNat / 16 < 16 ∧ b.toNat % 16 < 16 := by
  have := b.isLt
  omega

theorem hexText_ne_nil (b : Byte) : hexText b ≠ [] := by
  obtain ⟨-, h⟩ | h := hexText_cases b <;> rw [h] <;> exact List.cons_ne_nil _ _

theorem isBlank_hexText (b : Byte) : ∀ ch ∈ hexText b, isBlank ch = false := by
  obtain ⟨hhigh, hlow⟩ := digits_lt b
  obtain ⟨hb, h⟩ | h := hexText_cases b
  · simp [h, isBlank_hexDigit _ hb]
  · simp [h, isBlank_hexDigit _ hhigh, isBlank_hexDigit _ hlow]

/-- The digits give the byte back. -/
theorem hexNumber?_hexText (b : Byte) : hexNumber? 0 (hexText b) = some b.toNat := by
  obtain ⟨hhigh, hlow⟩ := digits_lt b
  obtain ⟨hb, h⟩ | h := hexText_cases b
  · rw [h, hexNumber?_cons (hexValue?_hexDigit _ hb), hexNumber?, Nat.zero_mul, Nat.zero_add]
  · rw [h, hexNumber?_cons (hexValue?_hexDigit _ hhigh), hexNumber?_cons (hexValue?_hexDigit _ hlow), hexNumber?]
    congr 1
    omega

/-- The text of a byte has no mark to strip. -/
theorem stripHexMark_hexText (b : Byte) : stripHexMark (hexText b) = hexText b := by
  obtain ⟨-, h⟩ | h := hexText_cases b
  · rw [h]; rfl
  · rw [h, stripHexMark, hexDigit_ne_mark _ (digits_lt b).2, Bool.and_false, if_neg Bool.false_ne_true]

/-- Between blanks, and after a mark that is stripped, the text of a byte parses to the byte. -/
theorem parseHexOrZero_spelled {pre mark post : List Byte} {b : Byte} (hpre : ∀ ch ∈ pre, isBlank ch = true)
    (hmark : ∀ ch ∈ mark, isBlank ch = false) (hpost : ∀ ch ∈ post, isBlank ch = true)
    (hstrip : stripHexMark (mark ++ hexText b) = hexText b) :
    parseHexOrZero (pre ++ (mark ++ hexText b) ++ post) = b := by
  have hne : mark ++ hexText b ≠ [] := List.append_ne_nil_of_right_ne_nil _ (hexText_ne_nil b)
  have hmid : ∀ ch ∈ mark ++ hexText b, isBlank ch = false := fun ch h =>
    (List.mem_append.mp h).elim (hmark ch) (isBlank_hexText b ch)
  rw [parseHexOrZero_eq, stripBlanks_eq hpre hne hmid hpost, hstrip, hexNumber?_hexText]
  exact BitVec.ofNat_toNat ..

/-- Settles O38: the three spellings differ in the blanks and the mark around the digits, and these are stripped. -/
theorem parseReadsBackTheHexText : Obligations.ParseReadsBackTheHexText := by
  unfold Obligations.ParseReadsBackTheHexText
  intro b
  have hnone := parseHexOrZero_spelled (pre := []) (mark := []) (post := []) (by decide) (by decide) (by decide)
    (stripHexMark_hexText b)
  have hlower := parseHexOrZero_spelled (pre := []) (mark := [0x30, 0x78]) (post := []) (b := b) (by decide) (by decide)
    (by decide) rfl
  rw [List.append_nil] at hnone hlower
  exact ⟨hnone, hlower, parseHexOrZero_spelled (pre := [0x20, 0x09]) (mark := [0x30, 0x58]) (post := [0x0D, 0x0A])
    (by decide) (by decide) (by decide) rfl⟩

/-! ### `tc_store` (R197) -/

/-- With the gate open `tc_store` is a write of `V` and one write transaction of it. -/
theorem perform_tcStore_open (text : List Byte) {s : State} (hb : s.busy = false) (hp : s.present = .ok) :
    ∃ t, perform (.tcStore text) s = .next t ∧ t.inputs = s.inputs ∧
      t.events = s.events ++ writeTrace s.params 0x90 (parseHexOrZero text) ∧
      t.regs = { s.regs with op := 0x19, v := parseHexOrZero text, status := 0 } := by
  rw [perform_tcStore, hostWrite_idle hb]
  obtain ⟨t, ht, h⟩ := exec_tcSet
    (s := { s with regs := { s.regs with v := parseHexOrZero text }, answer := .accepted }) hb hp
  exact ⟨t, ht, h.ended.inputs, h.ev, h.rg⟩

/-- With the gate shut it is a write of `V` only (R201, R222). -/
theorem perform_tcStore_shut (text : List Byte) {s : State} (hb : s.busy = false) (hp : s.present ≠ .ok) :
    ∃ t, perform (.tcStore text) s = .next t ∧ Ended .deviceNotPresent s t ∧ Untouched s t ∧ t.present = s.present ∧
      t.regs = { s.regs with v := parseHexOrZero text, status := 2 } := by
  rw [perform_tcStore, hostWrite_idle hb]
  obtain ⟨t, ht, hended, huntouched, hregs, hpresent⟩ := exec_gateShut (i := .tcSet)
    (s := { s with regs := { s.regs with v := parseHexOrZero text }, answer := .accepted }) (by decide) hb hp
  exact ⟨t, ht, { hended with }, { huntouched with }, hpresent, hregs⟩

/-- Settles O39: what does not parse is zero, and `tc_store` of any text is the write of `V`, then `tc_set`. -/
theorem malformedTextWritesZero : Obligations.MalformedTextWritesZero := by
  unfold Obligations.MalformedTextWritesZero
  refine ⟨fun text => parseHexOrZero_malformed, fun s text rest hb hi => ?_⟩
  rw [step_of_action hi]
  by_cases hp : s.present = .ok
  · obtain ⟨t, ht, hinputs, hevents, hregs⟩ := perform_tcStore_open text (s := { s with inputs := rest }) hb hp
    exact ⟨t, ht, hinputs, fun _ => ⟨hevents, hregs⟩, fun hne => absurd hp hne⟩
  · obtain ⟨t, ht, hended, huntouched, hpresent, hregs⟩ :=
      perform_tcStore_shut text (s := { s with inputs := rest }) hb hp
    exact ⟨t, ht, hended.inputs, fun h => absurd h hp, fun _ => ⟨hended, { huntouched with }, hpresent, hregs⟩⟩

/-! ### `tc_show` (R196) -/

theorem tcShow_idle {s t : State} (hb : s.busy = false) (h : exec .tcGet s = .next t) : tcShow s =
    .next { t with text := if t.regs.status = Status.ok.code then some (formatTc t.regs.r) else none } := by
  rw [tcShow, hb, if_neg Bool.false_ne_true, h]

/-- Settles O40: the status of `tc_get`, `Ok` or `DeviceNotPresent`, decides whether there is a text. -/
theorem tcShowGivesTheTextOfTheByteRead : Obligations.TcShowGivesTheTextOfTheByteRead := by
  unfold Obligations.TcShowGivesTheTextOfTheByteRead
  intro s rest hb hi
  rw [step_of_action hi, perform]
  by_cases hp : s.present = .ok
  · obtain ⟨t, ht, h⟩ := exec_tcGet (s := { s with inputs := rest }) hb hp
    exact ⟨_, tcShow_idle hb ht, h.ended.inputs, fun _ => ⟨if_pos h.ended.status, h.ended.status, h.ev⟩,
      fun hne => absurd hp hne⟩
  · obtain ⟨t, ht, hended, huntouched, hregs, -⟩ :=
      exec_gateShut (i := .tcGet) (s := { s with inputs := rest }) (by decide) hb hp
    have hstatus : t.regs.status ≠ Status.ok.code := by
      rw [hended.status]
      decide
    exact ⟨_, tcShow_idle hb ht, hended.inputs, fun h => absurd h hp,
      fun _ => ⟨if_neg hstatus, hregs, events_eq_of_trace huntouched.trace⟩⟩

end Sys2Proof.Machine
end

section
/-! SUPPORT. Chip-select at the end of an operation (60_exceptions.md R211, 41_byteframer.md R144): a transaction ends with
it deasserted, and a step outside the transactions touches no line. -/

namespace Sys2Proof.Machine

/-! ### No transaction open -/

/-- From `s` to `u` no transaction was left open: chip-select is deasserted, or the lines were not touched. -/
def NoneOpened (s u : State) : Prop := u.lines.outRst = false ∨ (u.lines = s.lines ∧ u.events = s.events)

theorem NoneOpened.trans {s t u : State} (h : NoneOpened s t) (k : NoneOpened t u) : NoneOpened s u := by
  obtain hk | ⟨hlines, hevents⟩ := k
  · exact .inl hk
  · rwa [NoneOpened, hlines, hevents]

/-- A list of steps that leaves no transaction open, whether it goes on or raises. -/
def LeavesNoneOpen (xs : List SeqStep) : Prop := ∀ s, NoneOpened s (runSteps xs s).state

theorem LeavesNoneOpen.append {xs ys : List SeqStep} (hx : LeavesNoneOpen xs) (hy : LeavesNoneOpen ys) :
    LeavesNoneOpen (xs ++ ys) := by
  intro s
  have h := hx s
  rw [runSteps_append]
  cases hr : runSteps xs s with
  | goOn t =>
    rw [hr] at h
    exact h.trans (hy t)
  | raised e t =>
    rw [hr] at h
    exact h

/-! ### Steps outside the transactions -/

/-- The checks and the stores of a result issue no line event. -/
theorem doStep_special {st : SeqStep} (hi : st.inner = true) (hp : st.plain = false) (s : State) :
    (doStep st s).state.lines = s.lines ∧ (doStep st s).state.events = s.events := by
  cases st
  case gate | checkDomain | checkRequest | compareSentinel | checkTime =>
    simp only [doStep]
    split <;> exact ⟨rfl, rfl⟩
  case storeR | storeTime => exact ⟨rfl, rfl⟩
  all_goals exact absurd (hi.symm.trans hp) (by decide)

theorem leavesNoneOpen_special {st : SeqStep} (hi : st.inner = true) (hp : st.plain = false) :
    LeavesNoneOpen [st] := by
  intro s
  have h := doStep_special hi hp s
  rw [runSteps_cons]
  cases hd : doStep st s <;> rw [hd] at h <;> exact .inr h

theorem leavesNoneOpen_gate : LeavesNoneOpen [.gate] := leavesNoneOpen_special rfl rfl

/-! ### Transactions -/

/-- A list that always goes on, and to a state with chip-select deasserted. -/
theorem LeavesNoneOpen.of_run {xs : List SeqStep} {f : State → State} (hr : ∀ s, runSteps xs s = .goOn (f s))
    (hf : ∀ s, (f s).lines.outRst = false) : LeavesNoneOpen xs := by
  intro s
  rw [hr]
  exact .inl (hf s)

theorem leavesNoneOpen_busReset : LeavesNoneOpen busResetSteps := .of_run run_busReset fun _ => rfl

theorem leavesNoneOpen_readbyte (a : Byte) (l : Local) : LeavesNoneOpen (readbyteSteps a l) :=
  .of_run (run_readbyte a l) fun s => by rw [keep_lines, readTx_lines]

theorem leavesNoneOpen_writebyte (a : Byte) {src : ByteSrc} (h : src ≠ .cmd) :
    LeavesNoneOpen (writebyteSteps a src) :=
  .of_run (fun s => run_writebyte a src s h) fun s => by rw [writeTx_lines]

theorem LeavesNoneOpen.thenRead {xs : List SeqStep} (h : LeavesNoneOpen xs) (r : ChipReg) (l : Local) :
    LeavesNoneOpen (xs ++ readRegSteps r l) := h.append (leavesNoneOpen_readbyte _ l)

theorem LeavesNoneOpen.thenWrite {xs : List SeqStep} (h : LeavesNoneOpen xs) (r : ChipReg) {src : ByteSrc}
    (hsrc : src ≠ .cmd := by simp) : LeavesNoneOpen (xs ++ writeRegSteps r src) :=
  h.append (leavesNoneOpen_writebyte _ hsrc)

/-! ### Programs -/

theorem leavesNoneOpen_readbyteProgram (a : Byte) : LeavesNoneOpen (readbyteProgram a) :=
  (leavesNoneOpen_readbyte a .got).append (leavesNoneOpen_special rfl rfl)

theorem leavesNoneOpen_writeLit (a v : Byte) : LeavesNoneOpen (writebyteSteps a (.lit v)) :=
  leavesNoneOpen_writebyte a (by simp)

theorem leavesNoneOpen_tcStrength (selector : Byte) : LeavesNoneOpen (tcStrengthProgram selector) :=
  leavesNoneOpen_gate.thenWrite _

theorem leavesNoneOpen_readTime : LeavesNoneOpen readTimeProgram :=
  (((((((leavesNoneOpen_gate.thenRead _ _).thenRead _ _).thenRead _ _).thenRead _ _).thenRead _ _).thenRead _
    _).thenRead _ _).append ((leavesNoneOpen_special (st := .checkTime) rfl rfl).append (leavesNoneOpen_special rfl rfl))

theorem leavesNoneOpen_setTime (c : CalendarTime) : LeavesNoneOpen (setTimeProgram c) :=
  (((((((((((leavesNoneOpen_gate.append (leavesNoneOpen_special rfl rfl)).thenRead _ _).thenWrite _).thenWrite
    _).thenWrite _).thenWrite _).thenWrite _).thenWrite _).thenWrite _).thenWrite _).thenRead _ _).thenWrite _

theorem leavesNoneOpen_selftest : LeavesNoneOpen selftestProgram :=
  ((leavesNoneOpen_busReset.thenWrite _).thenRead _ _).append (leavesNoneOpen_special rfl rfl)

/-- Every program but those of the bit and byte primitives, which work inside a transaction of their caller. -/
theorem program_leavesNoneOpen {i : Instr}
    (hi : i ∉ ([.reset, .start, .stop, .clock, .txbit, .rxbit, .sendbits, .recvbits] : List Instr)) (s : State) :
    LeavesNoneOpen (program i s) := by
  cases i
  case reset | start | stop | clock | txbit | rxbit | sendbits | recvbits => exact absurd (by decide) hi
  case readTime => exact leavesNoneOpen_readTime
  case setTime => exact leavesNoneOpen_setTime _
  case tcGet => exact (leavesNoneOpen_gate.thenRead _ _).append (leavesNoneOpen_special rfl rfl)
  case tcSet => exact leavesNoneOpen_gate.thenWrite _
  case tcStrength => exact leavesNoneOpen_tcStrength _
  case ctrl =>
    exact (leavesNoneOpen_gate.append (leavesNoneOpen_special rfl rfl)).append (leavesNoneOpen_tcStrength _)
  case selftest => exact leavesNoneOpen_selftest
  case readbyte | cmdRead => exact leavesNoneOpen_readbyteProgram _
  case rdSeconds | rdMinutes | rdHours | rdDate | rdMonth | rdDay | rdYear | rdTrickle | rdRam0 =>
    exact leavesNoneOpen_readbyteProgram _
  all_goals exact leavesNoneOpen_writeLit _ _

/-- Settles O56: a refused operation touches no line, and a program run to its end, or to the step that raises, leaves no
transaction open. -/
theorem noTransactionIsLeftOpen : Obligations.NoTransactionIsLeftOpen := by
  unfold Obligations.NoTransactionIsLeftOpen
  intro i s t hi h
  cases hb : s.busy with
  | true =>
    obtain rfl := Host.Outcome.next.inj ((exec_busy hb).symm.trans h)
    exact .inr ⟨rfl, rfl⟩
  | false =>
    obtain ⟨e, rfl⟩ := exec_idle hb h
    exact program_leavesNoneOpen hi s (s.begin (startCode i))

end Sys2Proof.Machine
end

section
/-! SUPPORT. The busy refusal at the host port (60_exceptions.md R219): what each action of the host comes to while an
operation runs. -/

namespace Sys2Proof.Machine

theorem illegalOp_busy {s : State} (h : s.busy = true) : s.illegalOp = s.refuseBusy := by
  rw [State.illegalOp, h, if_pos rfl]

/-- An assigned code is refused as its operation is, an unassigned one before `IllegalOp` is reported (R102). -/
theorem callOp_busy {s : State} (h : s.busy = true) (code : Byte) : callOp code s = .next s.refuseBusy := by
  unfold callOp
  split
  · exact exec_busy h
  · rw [illegalOp_busy h]

theorem postOp_busy {s : State} (h : s.busy = true) (code : Byte) : postOp code s = s.refuseBusy := by
  unfold postOp
  split
  · exact post_busy h _ _
  · exact illegalOp_busy h

theorem tcShow_busy {s : State} (h : s.busy = true) : tcShow s = .next { s.refuseBusy with text := none } := by
  rw [tcShow, h, if_pos rfl]

/-- Of `tc_store` both the write of `V` and the `tc_set` are refused (R197). -/
theorem perform_tcStore_busy {s : State} (h : s.busy = true) (text : List Byte) :
    perform (.tcStore text) s = .next s.refuseBusy := by
  rw [perform_tcStore, hostWrite_busy h, exec_busy (s := s.refuseBusy) h]
  rfl

/-- Settles O44: every action that writes or starts something is refused, whatever it asks for. -/
theorem busyDropsEveryWrite : Obligations.BusyDropsEveryWrite := by
  unfold Obligations.BusyDropsEveryWrite
  intro s hb
  have hb' (rest : List HostAction) : ({ s with inputs := rest } : State).busy = true := hb
  refine ⟨fun i => exec_busy hb, fun code rest hi => ?_, fun w rest hi => ?_, fun b i rest hi hd => ?_,
    fun rest hi => ?_, fun text rest hi => ?_⟩
  · obtain hi | hi := hi <;> rw [step_of_action hi]
    · exact callOp_busy (hb' rest) code
    · exact congrArg Host.Outcome.next (postOp_busy (hb' rest) code)
  · rw [step_of_action hi]
    exact congrArg Host.Outcome.next (hostWrite_busy (hb' rest) w)
  · rw [step_of_action hi, perform, callFrame_of_decodeCommand hd]
    exact exec_busy (hb' rest)
  · rw [step_of_action hi]
    exact tcShow_busy (hb' rest)
  · rw [step_of_action hi]
    exact perform_tcStore_busy (hb' rest) text

end Sys2Proof.Machine
end

section
/-! SUPPORT. Hardware reset at the host port (70_reset_and_hazards.md R240; 10_state.md R32), and the end of every running
operation under the block's own steps (70_reset_and_hazards.md R249; 41_byteframer.md R141). -/

namespace Sys2Proof.Machine

/-- Settles O47: the action is taken off the queue whether an operation runs or not, and it gives `State.hardReset`. -/
theorem hardwareResetIdlesTheBlockAndNotTheBus : Obligations.HardwareResetIdlesTheBlockAndNotTheBus := by
  unfold Obligations.HardwareResetIdlesTheBlockAndNotTheBus
  intro s rest hi
  exact ⟨_, step_of_action hi, hardReset_busy _, hardReset_seq _, hardReset_present _, rfl, hardReset_lines _, rfl,
    hardReset_env _, hardReset_inputs _, hardReset_params _⟩

/-- What one move of a running block comes to: its last step ends the operation, any other goes on to the rest of the
sequence or raises, with the two steps of R211 to do. -/
theorem tick_cases {s : State} {st : SeqStep} {rest : List SeqStep} (hs : s.seq = st :: rest) :
    (tick s).busy = false ∨ (tick s).seq = rest ∨
      ∃ (e : Status) (t : State), tick s = { t with seq := [.setStatus e, .release] } := by
  by_cases hst : st = .release
  · subst hst
    exact .inl (by rw [tick_release hs, release_busy])
  · have hseq := ((doStep_frame st { s with seq := rest }).busy hst).2
    cases hd : doStep st { s with seq := rest } with
    | goOn t =>
      rw [hd] at hseq
      exact .inr (.inl (by rw [tick_goOn hs hd]; exact hseq))
    | raised e t => exact .inr (.inr ⟨e, t, tick_raised hs hd⟩)

/-- By the steps left in the sequence: each move takes one of them, and a raise leaves two, of which none raises. -/
theorem ticks_reach_idle {q : List SeqStep} {s : State} (hs : s.seq = q) (h : Inv s) :
    ∃ n, n ≤ q.length + 2 ∧ (ticks n s).busy = false := by
  induction q generalizing s with
  | nil =>
    have hb : s.busy = false := by
      by_contra hb
      simpa [hs, seqClosed] using h.running (Bool.eq_true_of_not_eq_false hb)
    exact ⟨0, Nat.zero_le _, hb⟩
  | cons st rest ih =>
    obtain hb | hq | ⟨e, t, ht⟩ := tick_cases hs
    · exact ⟨1, by omega, hb⟩
    · obtain ⟨n, hn, hb⟩ := ih hq h.tick
      exact ⟨n + 1, Nat.succ_le_succ hn, hb⟩
    · refine ⟨2 + 1, by rw [List.length_cons]; omega, ?_⟩
      rw [ticks, ht, ticks_end, raise_busy]

/-- Settles O52: the invariant is kept by every move, and the moves use up the sequence. -/
theorem noOperationHangs : Obligations.NoOperationHangs := by
  unfold Obligations.NoOperationHangs
  exact fun s h => ticks_reach_idle rfl h

end Sys2Proof.Machine
end

section
/-! SUPPORT. The least duration of every operation (70_reset_and_hazards.md R260), from the trace each is known to
add. -/

namespace Sys2Proof.Machine

/-! ### The traces of the time operations -/

theorem leastDuration_readTimeTrace (p : Params) (b : RawTime) :
    leastDuration (readTimeTrace p b) = 7 * transactionUnits p := by
  simp only [readTimeTrace, leastDuration_append, leastDuration_readTrace]
  omega

theorem leastDuration_setTimeTrace (p : Params) (c : CalendarTime) (s0 s1 : Byte) :
    leastDuration (setTimeTrace p c s0 s1) = 11 * transactionUnits p := by
  simp only [setTimeTrace, leastDuration_append, leastDuration_readTrace, leastDuration_writeTrace]
  omega

/-! ### Operations -/

/-- The call of `i` in `s` adds a trace whose delays sum to `n`. -/
def Takes (i : Instr) (s : State) (n : Nat) : Prop :=
  ∃ t tr, exec i s = .next t ∧ t.events = s.events ++ tr ∧ leastDuration tr = n

/-- An operation that issues no event, as one refused before the first. -/
theorem takes_of_untouched {i : Instr} {s t : State} (ht : exec i s = .next t) (h : Untouched s t) : Takes i s 0 :=
  ⟨t, [], ht, by rw [events_eq_of_trace h.trace, List.append_nil], leastDuration_nil⟩

/-- An operation that is one read transaction (R146). -/
theorem takes_of_read {i : Instr} {c : Option Byte} {a : Byte} {s : State} (hb : s.busy = false)
    (hi : exec i s = .next (operate c (readbyteProgram a) s)) : Takes i s (transactionUnits s.params) := by
  obtain ⟨t, ht, h⟩ := readTx_op c a s hb
  exact ⟨t, _, by rw [hi, ht], h.ev, leastDuration_readTrace ..⟩

theorem WriteTx.takes {i : Instr} {c : Option Byte} {a v : Byte} {s t : State} (h : WriteTx c a v s t)
    (ht : exec i s = .next t) : Takes i s (transactionUnits s.params) :=
  ⟨t, _, ht, h.ev, leastDuration_writeTrace ..⟩

/-- An operation that is one write transaction (R147). -/
theorem takes_of_write {i : Instr} {c : Option Byte} {a v : Byte} {s : State} (hb : s.busy = false)
    (hi : exec i s = .next (operate c (writebyteSteps a (.lit v)) s)) : Takes i s (transactionUnits s.params) := by
  obtain ⟨t, ht, h⟩ := writeTx_op c a v s hb
  exact h.takes (by rw [hi, ht])

/-- A service that comes to one write of the trickle-charge register (R194, R195). -/
theorem takes_of_trickleWrite {i : Instr} {v : Byte} {s : State} (hb : s.busy = false)
    (hr : runSteps (program i s) (s.begin (startCode i)) = .goOn ((s.begin (startCode i)).writeReg .trickle v)) :
    Takes i s (transactionUnits s.params) := by
  obtain ⟨t, ht, h⟩ := exec_trickleWrite hb hr
  exact h.takes ht

/-- One write of the data line, or a refusal: no delay either way (R125). -/
theorem takes_txbit {s : State} (hb : s.busy = false) : Takes .txbit s 0 := by
  obtain ⟨houtput, hinput⟩ := txbitWritesTheDataLineOrIsRefused s hb
  cases hd : s.lines.dirDat with
  | output =>
    obtain ⟨t, ht, -, hev, -⟩ := houtput hd
    exact ⟨t, _, ht, hev, rfl⟩
  | input =>
    obtain ⟨t, ht, -, huntouched, -⟩ := hinput hd
    exact takes_of_untouched ht huntouched

/-- One sample of the data line, or a refusal (R126). -/
theorem takes_rxbit {s : State} (hb : s.busy = false) : Takes .rxbit s 0 := by
  obtain ⟨hinput, houtput⟩ := rxbitSamplesTheDataLineOrIsRefused s hb
  cases hd : s.lines.dirDat with
  | output =>
    obtain ⟨t, ht, -, huntouched, -⟩ := houtput hd
    exact takes_of_untouched ht huntouched
  | input =>
    obtain ⟨t, b, ht, -, hev, -⟩ := hinput hd
    exact ⟨t, _, ht, hev, rfl⟩

theorem takes_sendbits {s : State} (hb : s.busy = false) : Takes .sendbits s (8 * (2 * s.params.tPulse)) := by
  obtain ⟨t, ht, -, hev, -⟩ := sendbitsSendsEightBitsLowFirst.1 s hb
  exact ⟨t, _, ht, hev, leastDuration_sendTrace ..⟩

theorem takes_recvbits {s : State} (hb : s.busy = false) : Takes .recvbits s (8 * (2 * s.params.tPulse)) := by
  obtain ⟨t, ht, -, hev, -⟩ := recvbitsAssemblesEightAnswersLowFirst.1 s hb
  exact ⟨t, _, ht, hev, leastDuration_recvTrace ..⟩

/-- The bytes read decide how `read_time` ends, and only after its last event (R169). -/
theorem takes_readTime {s : State} (hb : s.busy = false) (hp : s.present = .ok) :
    Takes .readTime s (7 * transactionUnits s.params) := by
  obtain ⟨t, ht, h⟩ := exec_readTime hb hp
  exact ⟨t, _, ht, h.events, leastDuration_readTimeTrace ..⟩

theorem takes_setTime {s : State} (hb : s.busy = false) (hp : s.present = .ok) (hf : FieldsAreEncodable s.regs.time) :
    Takes .setTime s (11 * transactionUnits s.params) := by
  obtain ⟨t, ht, -, -, -, hev, -⟩ := exec_setTime hb hp hf
  exact ⟨t, _, ht, hev.trans (writeAll_events _ _), leastDuration_setTimeTrace ..⟩

/-- The compare comes after the last event (R199), and the bus reset before the two transactions has no delay. -/
theorem takes_selftest {s : State} (hb : s.busy = false) : Takes .selftest s (2 * transactionUnits s.params) := by
  obtain ⟨t, ht, h⟩ := exec_selftest hb
  have hev := h.events.trans (probed_events _)
  rw [List.append_assoc, List.append_assoc] at hev
  refine ⟨t, _, ht, hev, ?_⟩
  simp only [busResetTrace, leastDuration_append, leastDuration_write, leastDuration_dir, leastDuration_nil,
    leastDuration_readTrace, leastDuration_writeTrace, begin_params]
  omega

/-- The table of R260, for every operation that the gate, the codec's domain and the request code let through. -/
theorem takes_leastDurationOf (i : Instr) {s : State} (hb : s.busy = false) (hp : s.present = .ok)
    (hf : FieldsAreEncodable s.regs.time) (hc : s.regs.cCode = Config.ctrlTcStrength) :
    Takes i s (leastDurationOf s.params i) := by
  cases i
  case reset => exact ⟨_, _, exec_goOn hb (run_busReset _), busReset_events _, rfl⟩
  case start => exact ⟨_, _, exec_goOn hb rfl, events_lineWrite .rst true _, rfl⟩
  case stop => exact ⟨_, _, exec_goOn hb rfl, events_lineWrite .rst false _, rfl⟩
  case clock => exact ⟨_, _, exec_goOn hb (run_clock _), pulse_events _, leastDuration_pulseTrace _⟩
  case txbit => exact takes_txbit hb
  case rxbit => exact takes_rxbit hb
  case sendbits => exact takes_sendbits hb
  case recvbits => exact takes_recvbits hb
  case readTime => exact takes_readTime hb hp
  case setTime => exact takes_setTime hb hp hf
  case tcGet => exact takes_of_read hb (gated_read s hb hp)
  case tcSet => exact takes_of_trickleWrite hb (run_tcSet (s := s.begin (some 0x19#8)) hp _)
  case tcStrength => exact takes_of_trickleWrite hb (run_tcStrength (s := s.begin (some 0x1A#8)) hp _)
  case ctrl => exact takes_of_trickleWrite hb (run_ctrl (s := s.begin (some 0x1B#8)) hp hc _)
  case selftest => exact takes_selftest hb
  case readbyte | cmdRead => exact takes_of_read hb rfl
  case rdSeconds | rdMinutes | rdHours | rdDate | rdMonth | rdDay | rdYear | rdTrickle | rdRam0 =>
    exact takes_of_read hb rfl
  all_goals exact takes_of_write hb rfl

/-- The numbers of R260's last column are its expressions at the values of R6. -/
theorem leastDurationOf_default (i : Instr) : leastDurationOf Params.default i = leastDurationFigure i := by
  cases i <;> rfl

/-- Settles O58: every operation takes what the table of R260 says, and the table's figures are its expressions at R6. -/
theorem delaysAddUpToTheLeastDuration : Obligations.DelaysAddUpToTheLeastDuration := by
  unfold Obligations.DelaysAddUpToTheLeastDuration
  refine ⟨fun i s t hb hp hf hc ht => ?_, leastDurationOf_default⟩
  obtain ⟨u, tr, hu, hev, hsum⟩ := takes_leastDurationOf i hb hp hf hc
  obtain rfl := Host.Outcome.next.inj (hu.symm.trans ht)
  exact ⟨tr, hev, hsum⟩

end Sys2Proof.Machine
end
